-- ==== Sys2Proof/Word.lean ====
section
/-! DEFINITION. The plain value types of GOST89-CORE: host words and addresses, symbols, bitstrings, texts and
sequences (00_scope.md section 6.1). -/

namespace Sys2Proof

/-- A 32-bit host data word or command word (R7, WORD_W); bit 0 is the least significant (R8). -/
abbrev Word := BitVec 32

/-- A 12-bit host word address (R7, ADDR_W; R60). -/
abbrev Addr := BitVec 12

/-- A symbol identifier, the document's "character": 32 bits, unsigned (R27, D2). -/
abbrev Sym := BitVec 32

/-- A Bitstring: the first bit is the head of the list (R8). -/
abbrev Bits := List Bool

/-- A Text: the first symbol is the head of the list. -/
abbrev Text := List Sym

/-- A Seq: an ordered list of bitstrings. -/
abbrev BitSeq := List Bits

/-- The contents of a 2048-bit data store (R21, R28). Position i of the store is bit i counted from the MOST
significant end (`getMsbD i`), so that data word 0 is the top word (R62). -/
abbrev Store := BitVec 2048

end Sys2Proof
end

