-- ==== Sys2Proof/Syntax.lean ====
section
/-! DEFINITION. The 18 commands, one constructor per row of spec/opcode_table.json (R93, R98). -/

namespace Sys2Proof

/-- A bit register specifier, class B: B0..B3 (R91). -/
abbrev BSel := Fin 4

/-- A text register specifier, class T: T0, T1 (R91). -/
abbrev TSel := Fin 2

/-- One command. Specifiers are named rd, ra, rb as in the command word (R90); imm is the unsigned immediate, "used as
is" (R92), a number whose bound is checked by `Instr.WellFormed` (log 13). -/
inductive Instr where
  | codeof                          -- R122
  | symof                           -- R124
  | t2b (rd : BSel) (ra : TSel)     -- R142
  | b2t (rd : TSel) (ra : BSel)     -- R148
  | xor (rd ra rb : BSel)           -- R151
  | dec8 (ra : BSel)                -- R154
  | rotl11 (rd ra : BSel)           -- R157
  | split (ra : BSel) (imm : Nat)   -- R172
  | join (rd : BSel)                -- R175
  | getq (rd : BSel) (imm : Nat)    -- R177
  | subst (rd ra : BSel)            -- R192
  | frnd (rd ra rb : BSel)          -- R200
  | kidx (imm : Nat)                -- R205
  | ldkey (ra : TSel)               -- R242
  | encb (rd ra rb : BSel)          -- R222
  | decb (rd ra rb : BSel)          -- R226
  | enc (rd : BSel) (ra rb : TSel)  -- R246
  | dec (rd : TSel) (ra : BSel) (rb : TSel)  -- R250
  deriving DecidableEq, Repr

end Sys2Proof
end

