-- ==== Sys2Proof/WellFormed.lean ====
section
/-! DEFINITION. When a term of `Instr` is a command that a word can carry. The specifier classes of R91 are the types
BSel and TSel, so the immediates of the three commands that use one (R92, R93) are what is left to check. -/

namespace Sys2Proof

/-- The immediate fits the field imm[11:0]: "an unsigned integer in [0, 4095]" (R92). -/
def immFits (imm : Nat) : Bool := imm < 4096

/-- A command word exists for the term: SPLIT's chunk size, GETQ's chunk index and KIDX's block index fit the immediate
field (R92). Every other term is a command. -/
def Instr.WellFormed : Instr → Bool
  | .codeof => true
  | .symof => true
  | .t2b _ _ => true
  | .b2t _ _ => true
  | .xor _ _ _ => true
  | .dec8 _ => true
  | .rotl11 _ _ => true
  | .split _ imm => immFits imm
  | .join _ => true
  | .getq _ imm => immFits imm
  | .subst _ _ => true
  | .frnd _ _ _ => true
  | .kidx imm => immFits imm
  | .ldkey _ => true
  | .encb _ _ _ => true
  | .decb _ _ _ => true
  | .enc _ _ _ => true
  | .dec _ _ _ => true

end Sys2Proof
end

