-- ==== Sys2Proof/Decode.lean ====
section
/-! DEFINITION. The decoder of command words, total and strict (R90 to R99), written from the opcode map of R98, and
after it the encoder of R100. -/

namespace Sys2Proof

/-- The 18 opcodes, the rows of R98 in its order. -/
inductive Op where
  | codeof | symof | t2b | b2t | xor | dec8 | rotl11 | split | join | getq
  | subst | frnd | kidx | ldkey | encb | decb | enc | dec
  deriving DecidableEq, Repr

/-- The rows of R98, top to bottom. -/
def Op.all : List Op :=
  [.codeof, .symof, .t2b, .b2t, .xor, .dec8, .rotl11, .split, .join, .getq, .subst, .frnd, .kidx, .ldkey, .encb, .decb,
    .enc, .dec]

/-- The "match" column of R98. -/
def Op.matchWord : Op → Word
  | .codeof => 0x10000000#32
  | .symof => 0x11000000#32
  | .t2b => 0x20000000#32
  | .b2t => 0x21000000#32
  | .xor => 0x22000000#32
  | .dec8 => 0x23000000#32
  | .rotl11 => 0x24000000#32
  | .split => 0x30000000#32
  | .join => 0x31000000#32
  | .getq => 0x32000000#32
  | .subst => 0x40000000#32
  | .frnd => 0x41000000#32
  | .kidx => 0x42000000#32
  | .ldkey => 0x43000000#32
  | .encb => 0x44000000#32
  | .decb => 0x45000000#32
  | .enc => 0x46000000#32
  | .dec => 0x47000000#32

/-- The "mask" column of R98. -/
def Op.maskWord : Op → Word
  | .codeof => 0xFFFFFFFF#32
  | .symof => 0xFFFFFFFF#32
  | .t2b => 0xFFCEFFFF#32
  | .b2t => 0xFFECFFFF#32
  | .xor => 0xFFCCCFFF#32
  | .dec8 => 0xFFFCFFFF#32
  | .rotl11 => 0xFFCCFFFF#32
  | .split => 0xFFFCF000#32
  | .join => 0xFFCFFFFF#32
  | .getq => 0xFFCFF000#32
  | .subst => 0xFFCCFFFF#32
  | .frnd => 0xFFCCCFFF#32
  | .kidx => 0xFFFFF000#32
  | .ldkey => 0xFFFEFFFF#32
  | .encb => 0xFFCCCFFF#32
  | .decb => 0xFFCCCFFF#32
  | .enc => 0xFFCEEFFF#32
  | .dec => 0xFFECEFFF#32

/-! ### The fields of a command word (R90) -/

/-- op, bits 31:24 (R90). -/
def fieldOp (w : Word) : BitVec 8 := w.extractLsb' 24 8
/-- rd, bits 23:20 (R90). -/
def fieldRd (w : Word) : BitVec 4 := w.extractLsb' 20 4
/-- ra, bits 19:16 (R90). -/
def fieldRa (w : Word) : BitVec 4 := w.extractLsb' 16 4
/-- rb, bits 15:12 (R90). -/
def fieldRb (w : Word) : BitVec 4 := w.extractLsb' 12 4
/-- imm, bits 11:0 (R90). -/
def fieldImm (w : Word) : BitVec 12 := w.extractLsb' 0 12

/-- The bit register a legal class-B field names (R91). -/
def bsel (f : BitVec 4) : BSel := Fin.ofNat 4 f.toNat
/-- The text register a legal class-T field names (R91). -/
def tsel (f : BitVec 4) : TSel := Fin.ofNat 2 f.toNat

/-- The command of row `o` that the fields of `w` spell (R93). -/
def Op.build (o : Op) (w : Word) : Instr :=
  match o with
  | .codeof => .codeof
  | .symof => .symof
  | .t2b => .t2b (bsel (fieldRd w)) (tsel (fieldRa w))
  | .b2t => .b2t (tsel (fieldRd w)) (bsel (fieldRa w))
  | .xor => .xor (bsel (fieldRd w)) (bsel (fieldRa w)) (bsel (fieldRb w))
  | .dec8 => .dec8 (bsel (fieldRa w))
  | .rotl11 => .rotl11 (bsel (fieldRd w)) (bsel (fieldRa w))
  | .split => .split (bsel (fieldRa w)) (fieldImm w).toNat
  | .join => .join (bsel (fieldRd w))
  | .getq => .getq (bsel (fieldRd w)) (fieldImm w).toNat
  | .subst => .subst (bsel (fieldRd w)) (bsel (fieldRa w))
  | .frnd => .frnd (bsel (fieldRd w)) (bsel (fieldRa w)) (bsel (fieldRb w))
  | .kidx => .kidx (fieldImm w).toNat
  | .ldkey => .ldkey (tsel (fieldRa w))
  | .encb => .encb (bsel (fieldRd w)) (bsel (fieldRa w)) (bsel (fieldRb w))
  | .decb => .decb (bsel (fieldRd w)) (bsel (fieldRa w)) (bsel (fieldRb w))
  | .enc => .enc (bsel (fieldRd w)) (tsel (fieldRa w)) (tsel (fieldRb w))
  | .dec => .dec (tsel (fieldRd w)) (bsel (fieldRa w)) (tsel (fieldRb w))

/-- `w` decodes to row `o`: (w AND mask) = match (R96). -/
def Op.accepts (o : Op) (w : Word) : Bool := w &&& o.maskWord == o.matchWord

/-- The row of R98 that `w` decodes to, if any (R96). -/
def findOp (w : Word) : Option Op := Op.all.find? (fun o => o.accepts w)

/-- Why a word does not decode, by R97's list. The hardware tells none of them apart: each raises IllegalCommand (log 14). -/
inductive Illegal where
  /-- An opcode value not in R98. -/
  | unlistedOpcode
  /-- A listed opcode with a non-zero unused field. -/
  | unusedFieldNotZero
  /-- A listed opcode whose used specifier is out of range for its class. -/
  | specifierOutOfRange
  deriving DecidableEq, Repr

/-- How a command uses a specifier field: class B, class T, or not at all (R93). -/
inductive FieldUse where
  | classB | classT | unused
  deriving DecidableEq, Repr

/-- The columns rd, ra, rb and imm of R93: the use of each specifier field, and whether imm is used. -/
def Op.uses : Op → FieldUse × FieldUse × FieldUse × Bool
  | .codeof => (.unused, .unused, .unused, false)
  | .symof => (.unused, .unused, .unused, false)
  | .t2b => (.classB, .classT, .unused, false)
  | .b2t => (.classT, .classB, .unused, false)
  | .xor => (.classB, .classB, .classB, false)
  | .dec8 => (.unused, .classB, .unused, false)
  | .rotl11 => (.classB, .classB, .unused, false)
  | .split => (.unused, .classB, .unused, true)
  | .join => (.classB, .unused, .unused, false)
  | .getq => (.classB, .unused, .unused, true)
  | .subst => (.classB, .classB, .unused, false)
  | .frnd => (.classB, .classB, .classB, false)
  | .kidx => (.unused, .unused, .unused, true)
  | .ldkey => (.unused, .classT, .unused, false)
  | .encb => (.classB, .classB, .classB, false)
  | .decb => (.classB, .classB, .classB, false)
  | .enc => (.classB, .classT, .classT, false)
  | .dec => (.classT, .classB, .classT, false)

/-- The mask bits of a specifier field: "all 4 bits of every specifier field the command does not use; bits 3:2 of a
used class-B field; bits 3:1 of a used class-T field" (R96). -/
def FieldUse.mask : FieldUse → BitVec 4
  | .classB => 0xC#4
  | .classT => 0xE#4
  | .unused => 0xF#4

/-- The opcode of a row, the field op of its match. -/
def Op.opcode (o : Op) : BitVec 8 := fieldOp o.matchWord

/-- Some field the command does not use is non-zero (R91, R92). -/
def Op.unusedFieldSet (o : Op) (w : Word) : Bool :=
  (o.uses.1 == .unused && fieldRd w != 0#4)
    || (o.uses.2.1 == .unused && fieldRa w != 0#4)
    || (o.uses.2.2.1 == .unused && fieldRb w != 0#4)
    || (!o.uses.2.2.2 && fieldImm w != 0#12)

/-- The reason a word that no row accepts is illegal (R97). -/
def illegalReason (w : Word) : Illegal :=
  match Op.all.find? (fun o => fieldOp o.matchWord == fieldOp w) with
  | none => .unlistedOpcode
  | some o => if o.unusedFieldSet w then .unusedFieldNotZero else .specifierOutOfRange

/-- Decode a command word (R96): the one row that accepts it, or the reason there is none. -/
def decode (w : Word) : Except Illegal Instr :=
  match findOp w with
  | some o => .ok (o.build w)
  | none => .error (illegalReason w)

/-! ### The encoder -/

/-- (op << 24) | (rd << 20) | (ra << 16) | (rb << 12) | imm (R100). -/
def packFields (op : BitVec 8) (rd ra rb : BitVec 4) (imm : BitVec 12) : Word :=
  op ++ rd ++ ra ++ rb ++ imm

/-- The field of a bit register specifier. -/
def bfield (n : BSel) : BitVec 4 := BitVec.ofNat 4 n.val
/-- The field of a text register specifier. -/
def tfield (n : TSel) : BitVec 4 := BitVec.ofNat 4 n.val
/-- The field of an immediate. -/
def immField (imm : Nat) : BitVec 12 := BitVec.ofNat 12 imm

/-- The command word of an instruction: opcode and field use of R93, formula of R100, unused fields 0. -/
def encode : Instr → Word
  | .codeof => packFields 0x10 0 0 0 0
  | .symof => packFields 0x11 0 0 0 0
  | .t2b rd ra => packFields 0x20 (bfield rd) (tfield ra) 0 0
  | .b2t rd ra => packFields 0x21 (tfield rd) (bfield ra) 0 0
  | .xor rd ra rb => packFields 0x22 (bfield rd) (bfield ra) (bfield rb) 0
  | .dec8 ra => packFields 0x23 0 (bfield ra) 0 0
  | .rotl11 rd ra => packFields 0x24 (bfield rd) (bfield ra) 0 0
  | .split ra imm => packFields 0x30 0 (bfield ra) 0 (immField imm)
  | .join rd => packFields 0x31 (bfield rd) 0 0 0
  | .getq rd imm => packFields 0x32 (bfield rd) 0 0 (immField imm)
  | .subst rd ra => packFields 0x40 (bfield rd) (bfield ra) 0 0
  | .frnd rd ra rb => packFields 0x41 (bfield rd) (bfield ra) (bfield rb) 0
  | .kidx imm => packFields 0x42 0 0 0 (immField imm)
  | .ldkey ra => packFields 0x43 0 (tfield ra) 0 0
  | .encb rd ra rb => packFields 0x44 (bfield rd) (bfield ra) (bfield rb) 0
  | .decb rd ra rb => packFields 0x45 (bfield rd) (bfield ra) (bfield rb) 0
  | .enc rd ra rb => packFields 0x46 (bfield rd) (tfield ra) (tfield rb) 0
  | .dec rd ra rb => packFields 0x47 (tfield rd) (bfield ra) (tfield rb) 0

/-! ### The host's view of the decoder -/

/-- The command word of an instruction of `nbits` bits whose bits are `w`, numbered as spec/opcode_table.json numbers
them: bit 0 is the least significant bit of the one word (R90, R99); bits at or above `nbits` are 0. -/
def tableWord (nbits w : Nat) : Word := BitVec.ofNat 32 (w % 2 ^ nbits)

/-- The command that the decoder reads from such a word; no command is longer than 32 bits (R99; log 16). -/
def decodeTableWord (nbits w : Nat) : Option Instr :=
  if nbits ≤ 32 then
    match decode (tableWord nbits w) with
    | .ok i => some i
    | .error _ => none
  else none

end Sys2Proof
end

