-- ==== Sys2Proof/Config.lean ====
section
/-! DEFINITION. What the implementation fixes: the three parameters of R6 (SBOX and CP_EXT open, SENTINEL given). The
constants of R5 and R7 stand as literals where the meanings use them: "A model takes these as literals, not as arguments"
(R5). -/

namespace Sys2Proof

/-- The constraints R6 puts on CP_EXT: exactly 64 pairs (code, symbol); every code in [128, 241]; codes pairwise
distinct; symbols pairwise distinct; no symbol one of the 127 ASCII symbols 0..126; nothing more, "only the stated
constraints" (R6; for symbol 127 see log 7). -/
def CpExt.admissible (pairs : List (Nat × Sym)) : Bool :=
  pairs.length == 64
    && pairs.all (fun p => 128 ≤ p.1 && p.1 ≤ 241)
    && decide (pairs.map Prod.fst).Nodup
    && decide (pairs.map Prod.snd).Nodup
    && pairs.all (fun p => 126 < p.2.toNat)

/-- The open part of the Codepage Table, with its constraints (R6, R33): an inadmissible table cannot be built, so
R9's refusal of one never arises. -/
structure CpExt where
  pairs : List (Nat × Sym)
  ok : CpExt.admissible pairs = true
  deriving DecidableEq, Repr

/-- The constant tables of the circuit (R20, the rows marked "constant"; R33, R34): no command and no host access
writes them. -/
structure Tables where
  /-- SBOX: 16 entries of 4 bits, one table for all eight nibbles (R34, C1). -/
  sbox : Vector (Fin 16) 16
  /-- CP_EXT: the 64 pairs of the extended alphabet (R33). -/
  cpExt : CpExt
  /-- SENTINEL: the symbol of a code with no table entry (R121). -/
  sentinel : Sym
  deriving DecidableEq, Repr

namespace Config

/-- SBOX, whose contents the spec does not give (D27, N1): any 16 entries, not assumed a bijection (R228); log 5. -/
opaque sbox : Vector (Fin 16) 16

/-- The list CP_EXT is read from; the spec does not give it (D27, N2); log 6. -/
opaque cpExtList : List (Nat × Sym)

/-- The pairs (128 + k, 0x400 + k) for k < 64: the admissible table CP_EXT_T of 95_test_vectors.md section 2. It
stands here only as the value an INADMISSIBLE list is replaced by (log 6). -/
def cpExtStandIn : CpExt :=
  ⟨(List.range 64).map (fun k => (128 + k, BitVec.ofNat 32 (0x400 + k))), by decide +kernel⟩

/-- CP_EXT: an arbitrary admissible table, since `cpExtList` is an arbitrary list (R6, D27); log 6. -/
def cpExt : CpExt :=
  if h : CpExt.admissible cpExtList = true then ⟨cpExtList, h⟩ else cpExtStandIn

/-- SENTINEL: the symbol '0', number 0x30 (R6, D13). -/
def sentinel : Sym := 0x30#32

/-- The configured contents of the constant tables (R40, last row). -/
def tables : Tables := ⟨sbox, cpExt, sentinel⟩

end Config

end Sys2Proof
end

