-- ==== Sys2Proof/Machine/Bits.lean ====
section
/-! DEFINITION. The notation of 00_scope.md section 6 on bitstrings (R8), and the packing of bitstrings into data
stores and host words (R62). -/

namespace Sys2Proof.Machine

/-- `val(s)`: the first bit is the most significant (R8). -/
def val (s : Bits) : Nat := s.foldl (fun a b => 2 * a + b.toNat) 0

/-- `bin_n(v)`: the n-bit string of value v, for v < 2^n (R8). -/
def bin (n v : Nat) : Bits := (List.range n).map (fun i => v.testBit (n - 1 - i))

/-- `zeros(n)`. -/
def zeros (n : Nat) : Bits := List.replicate n false

/-- `ceil(a/b)`, for b >= 1. -/
def ceilDiv (a b : Nat) : Nat := (a + b - 1) / b

/-- The first `n` chunks of `p` bits of `s`: chunk j is `s[j*p .. (j+1)*p)`. -/
def chunks (n p : Nat) (s : Bits) : BitSeq :=
  match n with
  | 0 => []
  | m + 1 => s.take p :: chunks m p (s.drop p)

/-- Position by position exclusive-or of two bitstrings of one length (R149). -/
def xorBits (a b : Bits) : Bits := List.zipWith Bool.xor a b

/-- A 32-bit string as the word `val(s)` (R8: s[0] is word bit 31). -/
def bitsToWord (s : Bits) : Word := BitVec.ofNat 32 (val s)

/-- The bits at positions `i .. i+n` of a data store (R21). -/
def storeSlice (d : Store) (i n : Nat) : Bits := (List.range n).map (fun j => d.getMsbD (i + j))

/-- The data store that holds `s` from position 0 on and 0 after it, for `|s|` <= 2048 (R23, R30). -/
def packBits (s : Bits) : Store := BitVec.ofNat 2048 (val s * 2 ^ (2048 - s.length))

/-- Data word `w` of a store: the bit at position 32w + j is word bit 31 - j (R62). -/
def dataWord (d : Store) (w : Fin 64) : Word := d.extractLsb' (2016 - 32 * w.val) 32

/-- The store with exactly the 32 bits of data word `w` replaced by `v` (R62). -/
def setDataWord (d : Store) (w : Fin 64) (v : Word) : Store :=
  (d &&& ~~~((0xFFFFFFFF#32).setWidth 2048 <<< (2016 - 32 * w.val))) ||| (v.setWidth 2048 <<< (2016 - 32 * w.val))

end Sys2Proof.Machine
end

