-- ==== Sys2Proof/Machine/State.lean ====
section
/-! DEFINITION. The state of GOST89-CORE (R20), as plain data, with the two fields of the model's own through which a
step sees the host; the reasons a step can stop (there are none in this hardware); and the state after reset (R40). -/

namespace Sys2Proof.Machine

/-- A bit register: its length and its 2048 stored bits (R21). The length is a count (0..2048, an invariant kept by
every step, `State.Inv`; log 11); stored bits at or past it need not be 0 (R62). -/
structure BitReg where
  len : Nat
  store : Store
  deriving DecidableEq, Repr

/-- A text register: its length (0..256) and its 256 stored symbols (R25). -/
structure TextReg where
  len : Nat
  store : Vector Sym 256
  deriving DecidableEq, Repr

/-- The sequence register Q: chunk size, chunk count and 2048 stored bits (R28). -/
structure SeqReg where
  ps : Nat
  cnt : Nat
  store : Store
  deriving DecidableEq, Repr

/-- What the outside may do to the device, one per step (R60, R65, R66, R310). -/
inductive HostAccess where
  /-- `MemRead(addr, 32)` (R65). -/
  | read (addr : Addr)
  /-- `MemWrite(addr, 32, v)` (R66); to CMD it executes a command (R67). -/
  | write (addr : Addr) (v : Word)
  /-- The platform's reset event (R310). -/
  | reset
  deriving DecidableEq, Repr

/-- The eight architectural fault causes (R271). Taking one is a NEXT state of the machine (R272), not a stop. -/
inductive FaultCode where
  /-- 1: a symbol is not in the Codepage Table (R273). -/
  | unknownSymbol
  /-- 2: the operands of an XOR differ in length (R274). -/
  | lengthMismatch
  /-- 3: the key does not encode to 256 bits (R275). -/
  | keyLengthError
  /-- 4: join of a sequence with no element (R276). -/
  | emptyJoin
  /-- 5: keyIndex asked outside [0, 31] (R277). -/
  | scheduleRange
  /-- 6: an operand's length, value or index has no defined result (R278). -/
  | operandError
  /-- 7: the word written to CMD does not decode (R280). -/
  | illegalCommand
  /-- 8: a host access the register map does not allow (R279). -/
  | hostAccess
  deriving DecidableEq, Repr

/-- Reasons for which the MACHINE stops: none. Every architectural fault enters a state from which the device goes on
(reads work, reset recovers: R272, R284), and R284 says there is "no unrecoverable state and no state in which the machine is
neither running nor faulted". No meaning raises one; safe (log 4). -/
inductive Fault
  deriving DecidableEq, Repr

/-- Reasons for which the MODEL gives no answer. R9's refusal of an inadmissible configuration cannot arise, since
`CpExt` carries its constraints. -/
inductive Refusal where
  /-- Raised by an arm of `exec` whose instruction has no meaning yet; no arm is left so. Safe: a claim about the
  instruction is unprovable. -/
  | notModelled (mnemonic : String)
  deriving DecidableEq, Repr

/-- The state: every item of R20, then the model's own `input` and `reply` (log 1, log 2). -/
structure State where
  /-- B0..B3 (R21). -/
  b : Vector BitReg 4
  /-- T0, T1 (R25). -/
  t : Vector TextReg 2
  /-- The sequence register Q (R28). -/
  q : SeqReg
  /-- K0..K7, the key parts (R31). -/
  k : Vector Word 8
  /-- KVALID (R31). -/
  kvalid : Bool
  /-- LREG (R32). -/
  lreg : Word
  /-- RREG (R32). -/
  rreg : Word
  /-- RND, rounds done, 0..32 (R32). -/
  rnd : Nat
  /-- BIDX, block index, 0..31 (R32). -/
  bidx : Nat
  /-- NBLK, block count, 0..32 (R32). -/
  nblk : Nat
  /-- RES (R35). -/
  res : Word
  /-- ERR, the code of the first fault, 0 when none (R37). -/
  err : BitVec 4
  /-- FAULT, sticky until reset (R37). -/
  fault : Bool
  /-- The constant tables SBOX, CP and SENTINEL (R20, R33, R34): nothing writes them. -/
  tables : Tables
  /-- MODEL'S OWN: the accesses and reset events still to come, oldest first (log 1). -/
  input : List HostAccess
  /-- MODEL'S OWN: the word the last host access returned, if it returned one (log 2). -/
  reply : Option Word
  deriving DecidableEq, Repr

/-- A bit register after reset: empty, all stored bits 0 (R40). -/
def BitReg.empty : BitReg := ⟨0, 0#2048⟩

/-- A text register after reset: empty, all stored symbols 0 (R40). -/
def TextReg.empty : TextReg := ⟨0, Vector.replicate 256 0#32⟩

/-- Q after reset: ps and cnt 0, all stored bits 0 (R40). -/
def SeqReg.empty : SeqReg := ⟨0, 0, 0#2048⟩

/-- The machine right after reset (R40, R310). The tables hold "their configured constant contents"; no access is
pending and none has replied (DESIGN CHOICE, log 1, log 2). -/
def State.reset : State where
  b := Vector.replicate 4 BitReg.empty
  t := Vector.replicate 2 TextReg.empty
  q := SeqReg.empty
  k := Vector.replicate 8 0#32
  kvalid := false
  lreg := 0#32
  rreg := 0#32
  rnd := 0
  bidx := 0
  nblk := 0
  res := 0#32
  err := 0#4
  fault := false
  tables := Config.tables
  input := []
  reply := none

end Sys2Proof.Machine
end

