-- ==== Sys2Proof/Machine/Operands.lean ====
section
/-! DEFINITION. The operand forms: bit registers, text registers, Q, the key-part registers and RES, read and written
as the pseudocode does (00_scope.md section 6.4; R22, R23, R25, R26, R29, R30, R31, R35). -/

namespace Sys2Proof.Machine

/-- `B[n]`: the first `Bn.len` stored bits (R22). -/
def State.readB (s : State) (n : BSel) : Bits := storeSlice s.b[n].store 0 s.b[n].len

/-- `B[n] <- v`: length, data, and 0 in every later stored bit, for `|v|` <= 2048 (R23). -/
def State.writeB (s : State) (n : BSel) (v : Bits) : State :=
  { s with b := s.b.set n.val ⟨v.length, packBits v⟩ n.isLt }

/-- The first `n` stored symbols (R25). A position past the store, which no length kept by `State.Inv` reaches, reads
as 0 (log 9). -/
def textSlice (d : Vector Sym 256) (n : Nat) : Text := (List.range n).map (fun i => d.toList.getD i 0#32)

/-- The symbol store that holds `t` and 0 after it, for `|t|` <= 256 (R26). -/
def packText (t : Text) : Vector Sym 256 :=
  ⟨((t ++ List.replicate 256 0#32).take 256).toArray, by
    simp only [List.size_toArray, List.length_take, List.length_append, List.length_replicate]; omega⟩

/-- `T[n]`: the first `Tn.len` stored symbols (R25). -/
def State.readT (s : State) (n : TSel) : Text := textSlice s.t[n].store s.t[n].len

/-- `T[n] <- v`: length, symbols, and 0 in every later entry, for `|v|` <= 256 (R26). -/
def State.writeT (s : State) (n : TSel) (v : Text) : State :=
  { s with t := s.t.set n.val ⟨v.length, packText v⟩ n.isLt }

/-- `Q` read as a Seq: chunk j is `Q.bit[j*Q.ps .. (j+1)*Q.ps)` (R29). -/
def State.readQ (s : State) : BitSeq := chunks s.q.cnt s.q.ps (storeSlice s.q.store 0 (s.q.cnt * s.q.ps))

/-- `Q <- seq` with chunk size `p` (R30). -/
def State.writeQ (s : State) (p : Nat) (seq : BitSeq) : State :=
  { s with q := ⟨p, seq.length, packBits seq.flatten⟩ }

/-- `RES <- v` (R35). -/
def State.writeRes (s : State) (v : Word) : State := { s with res := v }

/-- A code, index or 8-bit value zero-extended to a word: `zext_32(v)` (R35). -/
def zext32 (v : Nat) : Word := BitVec.ofNat 32 v

/-- `K[k] <- val(kp[k])` for k = 0..7 and `KVALID <- 1` (R31, R242). -/
def State.writeKeys (s : State) (kp : BitSeq) : State :=
  { s with
    k := #v[bitsToWord (kp.getD 0 []), bitsToWord (kp.getD 1 []), bitsToWord (kp.getD 2 []), bitsToWord (kp.getD 3 []),
      bitsToWord (kp.getD 4 []), bitsToWord (kp.getD 5 []), bitsToWord (kp.getD 6 []), bitsToWord (kp.getD 7 [])]
    kvalid := true }

/-- LREG, RREG and RND after a block: the halves of the output block `c`, and 32 rounds done (R32, R222, R226). -/
def State.writeHalves (s : State) (c : Bits) : State :=
  { s with lreg := bitsToWord (c.take 32), rreg := bitsToWord (c.drop 32), rnd := 32 }

end Sys2Proof.Machine
end

