-- ==== Sys2Proof/Machine/Flags.lean ====
section
/-! DEFINITION. The status bits FAULT, KVALID and ERR as software sees them (R37, R38) and the fault codes (R271). There
are no arithmetic flags: "no command sets a carry, zero, sign or overflow flag" (R37). -/

namespace Sys2Proof.Machine

/-- The code that ERR holds after the fault (R271). -/
def FaultCode.code : FaultCode → BitVec 4
  | .unknownSymbol => 1#4
  | .lengthMismatch => 2#4
  | .keyLengthError => 3#4
  | .emptyJoin => 4#4
  | .scheduleRange => 5#4
  | .operandError => 6#4
  | .illegalCommand => 7#4
  | .hostAccess => 8#4

/-- STATUS: bit 0 FAULT, bit 1 KVALID, bits 31:2 zero (R38). -/
def State.statusWord (s : State) : Word := BitVec.ofNat 32 (s.fault.toNat + 2 * s.kvalid.toNat)

/-- The word of ERR: bits 3:0 ERR, bits 31:4 zero (R38). -/
def State.errWord (s : State) : Word := s.err.setWidth 32

end Sys2Proof.Machine
end

