-- ==== Sys2Proof/Machine/Ops.lean ====
section
/-! DEFINITION. The operations that commands and host accesses share: completing, taking a fault (R272), the reset
event that is the only way back from one (R284, R310), and the host register map (R61 to R66). -/

namespace Sys2Proof.Machine

/-- The outcome of one step of this machine. -/
abbrev Result := Host.Outcome State Fault Refusal

/-! ### Completing, faulting, resetting -/

/-- Fault entry: while FAULT = 0, ERR <- the code, FAULT <- 1, and nothing else changes; ERR keeps the FIRST code, so
while FAULT = 1 nothing changes (R272; log 12). -/
def takeFault (c : FaultCode) (s : State) : State :=
  if s.fault then s else { s with err := c.code, fault := true }

/-- `raise c`: the command or access ends with the fault, none of its writes done (R95, R272). -/
def raise (c : FaultCode) (s : State) : Result := .next (takeFault c s)

/-- The command completes: its writes commit together, ERR and FAULT stay as they are (R95). -/
def complete (s : State) : Result := .next s

/-- The reset event, the only way out of FAULT = 1 (R284): every register takes its reset value; the constant tables
are not state of the registers and stay (R310). The accesses still to come are the host's, so they stay (log 10). -/
def resetEvent (s : State) : State := { State.reset with tables := s.tables, input := s.input }

/-! ### The register map (R61) -/

/-- What a word address names (R61). -/
inductive MapReg where
  | cmd | status | err | res | rnd | bidx | nblk | lreg | rreg | qps | qcnt
  | key (k : Fin 8)
  | blen (n : BSel)
  | tlen (n : TSel)
  | bdata (n : BSel) (w : Fin 64)
  | qdata (w : Fin 64)
  | tdata (n : TSel) (i : Fin 256)
  | unmapped
  deriving DecidableEq, Repr

/-- The register map of R61, address by address. -/
def decodeAddr (addr : Addr) : MapReg :=
  let a := addr.toNat
  if a = 0x000 then .cmd
  else if a = 0x001 then .status
  else if a = 0x002 then .err
  else if a = 0x003 then .res
  else if a = 0x004 then .rnd
  else if a = 0x005 then .bidx
  else if a = 0x006 then .nblk
  else if a = 0x007 then .unmapped
  else if a = 0x008 then .lreg
  else if a = 0x009 then .rreg
  else if a = 0x00A then .qps
  else if a = 0x00B then .qcnt
  else if a < 0x010 then .unmapped
  else if a < 0x018 then .key (Fin.ofNat 8 (a - 0x010))
  else if a < 0x020 then .unmapped
  else if a < 0x024 then .blen (Fin.ofNat 4 (a - 0x020))
  else if a < 0x026 then .tlen (Fin.ofNat 2 (a - 0x024))
  else if a < 0x100 then .unmapped
  else if a < 0x200 then .bdata (Fin.ofNat 4 ((a - 0x100) / 0x40)) (Fin.ofNat 64 ((a - 0x100) % 0x40))
  else if a < 0x240 then .qdata (Fin.ofNat 64 (a - 0x200))
  else if a < 0x400 then .unmapped
  else if a < 0x600 then .tdata (Fin.ofNat 2 ((a - 0x400) / 0x100)) (Fin.ofNat 256 ((a - 0x400) % 0x100))
  else .unmapped

/-- The word address of each mapped register, by the formulas of R61's first column. -/
def MapReg.address : MapReg → Option Addr
  | .cmd => some 0x000
  | .status => some 0x001
  | .err => some 0x002
  | .res => some 0x003
  | .rnd => some 0x004
  | .bidx => some 0x005
  | .nblk => some 0x006
  | .lreg => some 0x008
  | .rreg => some 0x009
  | .qps => some 0x00A
  | .qcnt => some 0x00B
  | .key k => some (BitVec.ofNat 12 (0x010 + k.val))
  | .blen n => some (BitVec.ofNat 12 (0x020 + n.val))
  | .tlen n => some (BitVec.ofNat 12 (0x024 + n.val))
  | .bdata n w => some (BitVec.ofNat 12 (0x100 + 0x40 * n.val + w.val))
  | .qdata w => some (BitVec.ofNat 12 (0x200 + w.val))
  | .tdata n i => some (BitVec.ofNat 12 (0x400 + 0x100 * n.val + i.val))
  | .unmapped => none

/-- The word a host read of the register returns; none for CMD, which is write only, and for an unmapped address
(R61, R65). Fields narrower than 32 bits read zero-extended (R38). -/
def State.mapWord (s : State) : MapReg → Option Word
  | .cmd => none
  | .status => some s.statusWord
  | .err => some s.errWord
  | .res => some s.res
  | .rnd => some (zext32 s.rnd)
  | .bidx => some (zext32 s.bidx)
  | .nblk => some (zext32 s.nblk)
  | .lreg => some s.lreg
  | .rreg => some s.rreg
  | .qps => some (zext32 s.q.ps)
  | .qcnt => some (zext32 s.q.cnt)
  | .key k => some s.k[k]
  | .blen n => some (zext32 s.b[n].len)
  | .tlen n => some (zext32 s.t[n].len)
  | .bdata n w => some (dataWord s.b[n].store w)
  | .qdata w => some (dataWord s.q.store w)
  | .tdata n i => some s.t[n].store[i]
  | .unmapped => none

/-- `MemRead(addr, 32)`: the word of the register and no change; or 0 and, while FAULT = 0, the fault HostAccess
(R65, R279). The word read is left in `reply`. -/
def memRead (addr : Addr) (s : State) : State :=
  match s.mapWord (decodeAddr addr) with
  | some w => { s with reply := some w }
  | none => { takeFault .hostAccess s with reply := some 0#32 }

/-- `Bn.len <- v` when v <= 2048, else HostAccess; the whole 32-bit word is compared and no data bit changes (R64). -/
def writeBLen (n : BSel) (v : Word) (s : State) : State :=
  if v.toNat ≤ 2048 then { s with b := s.b.set n.val { s.b[n] with len := v.toNat } n.isLt }
  else takeFault .hostAccess s

/-- `Tn.len <- v` when v <= 256, else HostAccess (R64). -/
def writeTLen (n : TSel) (v : Word) (s : State) : State :=
  if v.toNat ≤ 256 then { s with t := s.t.set n.val { s.t[n] with len := v.toNat } n.isLt }
  else takeFault .hostAccess s

/-- A host write to BnDATA[w]: exactly those 32 stored bits, whatever `Bn.len` is (R62). -/
def writeBData (n : BSel) (w : Fin 64) (v : Word) (s : State) : State :=
  { s with b := s.b.set n.val { s.b[n] with store := setDataWord s.b[n].store w v } n.isLt }

/-- A host write to TnDATA[i]: exactly that symbol, whatever `Tn.len` is (R63). -/
def writeTData (n : TSel) (i : Fin 256) (v : Word) (s : State) : State :=
  { s with t := s.t.set n.val { s.t[n] with store := s.t[n].store.set i.val v i.isLt } n.isLt }

/-- A host write, while FAULT = 0, to a register other than CMD: a writable one stores the word; a read-only or
unmapped one faults with HostAccess (R66, R69). CMD is not written here (`memWrite`). -/
def mapWrite (r : MapReg) (v : Word) (s : State) : State :=
  match r with
  | .res => s.writeRes v
  | .blen n => writeBLen n v s
  | .tlen n => writeTLen n v s
  | .bdata n w => writeBData n w v s
  | .tdata n i => writeTData n i v s
  | .cmd | .status | .err | .rnd | .bidx | .nblk | .lreg | .rreg | .qps | .qcnt => takeFault .hostAccess s
  | .key _ => takeFault .hostAccess s
  | .qdata _ => takeFault .hostAccess s
  | .unmapped => takeFault .hostAccess s

end Sys2Proof.Machine
end

