-- ==== Sys2Proof/Machine/Codepage.lean ====
section
/-! DEFINITION. The Codepage unit (40_codepage.md): the two lookups, and CODEOF and SYMOF. -/

namespace Sys2Proof.Machine

/-- The Codepage Table CP, all 191 pairs (code, symbol): (c, c) for c = 0..126, then CP_EXT (R33). -/
def codepage (T : Tables) : List (Nat × Sym) :=
  (List.range 127).map (fun c => (c, BitVec.ofNat 32 c)) ++ T.cpExt.pairs

/-- `codeOf(sym)`: the code of a symbol of CP, else UnknownSymbol (R120; it agrees with a search of `codepage`). -/
def codeOf (T : Tables) (sym : Sym) : Except FaultCode Nat :=
  if sym.toNat ≤ 126 then .ok sym.toNat
  else match T.cpExt.pairs.find? (fun p => p.2 == sym) with
    | some p => .ok p.1
    | none => .error .unknownSymbol

/-- `symbolOf(code)`, for a code in [0, 255]: the symbol of a code of CP, else SENTINEL; it never fails (R121). -/
def symbolOf (T : Tables) (code : Nat) : Sym :=
  if code ≤ 126 then BitVec.ofNat 32 code
  else match T.cpExt.pairs.find? (fun p => p.1 == code) with
    | some p => p.2
    | none => T.sentinel

/-- CODEOF (R122). -/
def execCodeof (s : State) : Result :=
  match codeOf s.tables s.res with
  | .ok c => complete (s.writeRes (zext32 c))
  | .error e => raise e s

/-- SYMOF (R124). -/
def execSymof (s : State) : Result :=
  if s.res.toNat ≤ 255 then complete (s.writeRes (symbolOf s.tables s.res.toNat))
  else raise .operandError s

end Sys2Proof.Machine
end

