-- ==== Sys2Proof/Machine/BitCodec.lean ====
section
/-! DEFINITION. The Bit Codec unit (41_bitcodec.md): textToBits, bitsToText, xor, decimalOf, rotl11, and T2B, B2T,
XOR, DEC8, ROTL11. -/

namespace Sys2Proof.Machine

/-- `textToBits(t)`: the 8-bit codes in text order; UnknownSymbol if any symbol is unmapped (R140). -/
def textToBits (T : Tables) : Text → Except FaultCode Bits
  | [] => .ok []
  | x :: xs =>
    match codeOf T x with
    | .error e => .error e
    | .ok c =>
      match textToBits T xs with
      | .error e => .error e
      | .ok s => .ok (bin 8 c ++ s)

/-- `decimalOf(g)`, for a group of 8 bits (R152). -/
def decimalOf (g : Bits) : Nat := val g

/-- `bitsToText(s)`, for `|s|` a multiple of 8: the codes of the 8-bit groups, those equal to 0 dropped, mapped back
(R143, R144). -/
def bitsToText (T : Tables) (s : Bits) : Text :=
  (((chunks (s.length / 8) 8 s).map decimalOf).filter (fun c => c != 0)).map (symbolOf T)

/-- `xor(a, b)`: LengthMismatch unless the lengths are equal (R149). -/
def xorChecked (a b : Bits) : Except FaultCode Bits :=
  if a.length = b.length then .ok (xorBits a b) else .error .lengthMismatch

/-- `rotl11(x)`, for 32 bits: the leading 11 bits move to the tail (R155). -/
def rotl11 (x : Bits) : Bits := x.drop 11 ++ x.take 11

/-- T2B Bd, Ta (R142). -/
def execT2b (rd : BSel) (ra : TSel) (s : State) : Result :=
  match textToBits s.tables (s.readT ra) with
  | .ok v => complete (s.writeB rd v)
  | .error e => raise e s

/-- B2T Td, Ba (R148). -/
def execB2t (rd : TSel) (ra : BSel) (s : State) : Result :=
  if (s.readB ra).length % 8 = 0 then complete (s.writeT rd (bitsToText s.tables (s.readB ra)))
  else raise .operandError s

/-- XOR Bd, Ba, Bb (R151). -/
def execXor (rd ra rb : BSel) (s : State) : Result :=
  match xorChecked (s.readB ra) (s.readB rb) with
  | .ok v => complete (s.writeB rd v)
  | .error e => raise e s

/-- DEC8 Ba (R154). -/
def execDec8 (ra : BSel) (s : State) : Result :=
  if (s.readB ra).length = 8 then complete (s.writeRes (zext32 (decimalOf (s.readB ra))))
  else raise .operandError s

/-- ROTL11 Bd, Ba (R157). -/
def execRotl11 (rd ra : BSel) (s : State) : Result :=
  if (s.readB ra).length = 32 then complete (s.writeB rd (rotl11 (s.readB ra)))
  else raise .operandError s

end Sys2Proof.Machine
end

