-- ==== Sys2Proof/Machine/Segmenter.lean ====
section
/-! DEFINITION. The Segmenter unit (42_segmenter.md): splitFixed, join, and SPLIT, JOIN, GETQ. -/

namespace Sys2Proof.Machine

/-- `splitFixed(s, p)`, for p >= 1: ceil(|s|/p) chunks of p bits, the last zero-padded at its end (R170). -/
def splitFixed (s : Bits) (p : Nat) : BitSeq :=
  chunks (ceilDiv s.length p) p (s ++ zeros (ceilDiv s.length p * p - s.length))

/-- `join(seq)`: the concatenation; EmptyJoin for no element (R173, R174). -/
def join : BitSeq → Except FaultCode Bits
  | [] => .error .emptyJoin
  | c :: cs => .ok (c :: cs).flatten

/-- SPLIT Ba, imm (R172): the range of the chunk size, then the capacity of Q. -/
def execSplit (ra : BSel) (imm : Nat) (s : State) : Result :=
  if 1 ≤ imm ∧ imm ≤ 2048 then
    if ceilDiv (s.readB ra).length imm * imm ≤ 2048 then complete (s.writeQ imm (splitFixed (s.readB ra) imm))
    else raise .operandError s
  else raise .operandError s

/-- JOIN Bd (R175). -/
def execJoin (rd : BSel) (s : State) : Result :=
  match join s.readQ with
  | .ok v => complete (s.writeB rd v)
  | .error e => raise e s

/-- GETQ Bd, imm (R177). -/
def execGetq (rd : BSel) (imm : Nat) (s : State) : Result :=
  match s.readQ[imm]? with
  | some c => complete (s.writeB rd c)
  | none => raise .operandError s

end Sys2Proof.Machine
end

