-- ==== Sys2Proof/Machine/Round.lean ====
section
/-! DEFINITION. The Feistel engine, part 1 (43_feistel_round.md): substitution, the round function F, the key-index
schedule, and SUBST, FRND, KIDX. -/

namespace Sys2Proof.Machine

/-- SBOX[v] for a nibble value v < 16 (R34). -/
def sboxAt (T : Tables) (v : Nat) : Nat := (T.sbox[Fin.ofNat 16 v]).val

/-- `subst(x)`, for 32 bits: each of the eight nibbles, in place, through the one table (R190, R191). -/
def subst (T : Tables) (x : Bits) : Bits :=
  ((chunks 8 4 x).map (fun n => bin 4 (sboxAt T (val n)))).flatten

/-- The round function F(h, k), both 32 bits (R199). -/
def roundF (T : Tables) (h k : Bits) : Bits := rotl11 (subst T (xorBits h k))

/-- `keyIndex(i)`, for i in [0, 31] (R201). -/
def keyIndex (i : Nat) : Nat := if i < 25 then i % 8 else (32 - (i - 1)) % 8

/-- SUBST Bd, Ba (R192). -/
def execSubst (rd ra : BSel) (s : State) : Result :=
  if (s.readB ra).length = 32 then complete (s.writeB rd (subst s.tables (s.readB ra)))
  else raise .operandError s

/-- FRND Bd, Ba, Bb (R200): LengthMismatch is checked first. -/
def execFrnd (rd ra rb : BSel) (s : State) : Result :=
  if (s.readB ra).length = (s.readB rb).length then
    if (s.readB ra).length = 32 then complete (s.writeB rd (roundF s.tables (s.readB ra) (s.readB rb)))
    else raise .operandError s
  else raise .lengthMismatch s

/-- KIDX imm (R205). -/
def execKidx (imm : Nat) (s : State) : Result :=
  if imm ≤ 31 then complete (s.writeRes (zext32 (keyIndex imm))) else raise .scheduleRange s

end Sys2Proof.Machine
end

