-- ==== Sys2Proof/Machine/Block.lean ====
section
/-! DEFINITION. The Feistel engine, part 2 (44_feistel_block.md): one block, and ENCB, DECB. -/

namespace Sys2Proof.Machine

/-- One encrypt round: (L, R) becomes (xor(F(L, k), R), L) (R221). -/
def encRound (T : Tables) (k : Bits) (p : Bits × Bits) : Bits × Bits := (xorBits (roundF T p.1 k) p.2, p.1)

/-- One decrypt round: (L, R) becomes (R, xor(L, F(R, k))) (R225). -/
def decRound (T : Tables) (k : Bits) (p : Bits × Bits) : Bits × Bits := (p.2, xorBits p.1 (roundF T p.2 k))

/-- `n` applications of one round function (R229: the states r = 0, 1, ..., n). -/
def rounds (f : Bits × Bits → Bits × Bits) : Nat → Bits × Bits → Bits × Bits
  | 0, p => p
  | n + 1, p => rounds f n (f p)

/-- The halves of a 64-bit block: L the first 32 bits, R the last 32 (R220). -/
def halves (b : Bits) : Bits × Bits := (b.take 32, b.drop 32)

/-- The block of two halves, L ++ R (R220). -/
def unhalves (p : Bits × Bits) : Bits := p.1 ++ p.2

/-- `encryptBlock(block, keyPart)`: exactly 32 rounds, one key part, no swap after the last (R221). -/
def encryptBlock (T : Tables) (b k : Bits) : Bits := unhalves (rounds (encRound T k) 32 (halves b))

/-- `decryptBlock(block, keyPart)` (R225). -/
def decryptBlock (T : Tables) (b k : Bits) : Bits := unhalves (rounds (decRound T k) 32 (halves b))

/-- The length checks that ENCB and DECB share: the block's, then the key part's (R222, R226). -/
def checkBlock (b k : Bits) : Except FaultCode Unit :=
  if b.length = 64 then
    if k.length = 32 then .ok () else .error .lengthMismatch
  else .error .operandError

/-- The writes that ENCB and DECB share: Bd, LREG, RREG and RND (R222, R226). -/
def State.writeBlock (s : State) (rd : BSel) (c : Bits) : State := (s.writeB rd c).writeHalves c

/-- ENCB Bd, Ba, Bb (R222). -/
def execEncb (rd ra rb : BSel) (s : State) : Result :=
  match checkBlock (s.readB ra) (s.readB rb) with
  | .ok _ => complete (s.writeBlock rd (encryptBlock s.tables (s.readB ra) (s.readB rb)))
  | .error e => raise e s

/-- DECB Bd, Ba, Bb (R226). -/
def execDecb (rd ra rb : BSel) (s : State) : Result :=
  match checkBlock (s.readB ra) (s.readB rb) with
  | .ok _ => complete (s.writeBlock rd (decryptBlock s.tables (s.readB ra) (s.readB rb)))
  | .error e => raise e s

end Sys2Proof.Machine
end

