-- ==== Sys2Proof/Machine/Message.lean ====
section
/-! DEFINITION. The Feistel engine, part 3 (45_message.md): key parts, whole messages, and LDKEY, ENC, DEC. -/

namespace Sys2Proof.Machine

/-- `keyParts(key)`: the symbol lookup first, then the length test on the bits, then eight slices of 32 (R241). -/
def keyParts (T : Tables) (key : Text) : Except FaultCode BitSeq :=
  match textToBits T key with
  | .error e => .error e
  | .ok kb => if kb.length = 256 then .ok (splitFixed kb 32) else .error .keyLengthError

/-- Each block, from index `i` on, through the block transform `f` with the key part that keyIndex selects for its
index (R204, R245). -/
def mapBlocks (f : Bits → Bits → Bits) (kp : BitSeq) : Nat → BitSeq → BitSeq
  | _, [] => []
  | i, b :: bs => f b (kp.getD (keyIndex i) []) :: mapBlocks f kp (i + 1) bs

/-- What a message-level operation computes: the key parts, the processed blocks in index order, and their join. -/
structure Message where
  keys : BitSeq
  blocks : BitSeq
  bits : Bits
  deriving DecidableEq, Repr

/-- The part of `encrypt` and `decrypt` after the input is a bitstring, in the document's step order: blocks of 64
bits, key parts (their faults), the block transform, join (EmptyJoin) (R244, R248). -/
def processMessage (T : Tables) (f : Bits → Bits → Bits) (input : Bits) (key : Text) : Except FaultCode Message :=
  match keyParts T key with
  | .error e => .error e
  | .ok kp =>
    match join (mapBlocks f kp 0 (splitFixed input 64)) with
    | .error e => .error e
    | .ok v => .ok ⟨kp, mapBlocks f kp 0 (splitFixed input 64), v⟩

/-- The steps of `encrypt(text, key)`, the text's lookup first (R244). -/
def encryptMessage (T : Tables) (text key : Text) : Except FaultCode Message :=
  match textToBits T text with
  | .error e => .error e
  | .ok v => processMessage T (encryptBlock T) v key

/-- `encrypt(text, key)` (R244). -/
def encrypt (T : Tables) (text key : Text) : Except FaultCode Bits :=
  match encryptMessage T text key with
  | .error e => .error e
  | .ok m => .ok m.bits

/-- The steps of `decrypt(cipherBits, key)` up to the joined plain bits (R248). -/
def decryptMessage (T : Tables) (cipherBits : Bits) (key : Text) : Except FaultCode Message :=
  processMessage T (decryptBlock T) cipherBits key

/-- `decrypt(cipherBits, key)` (R248). -/
def decrypt (T : Tables) (cipherBits : Bits) (key : Text) : Except FaultCode Text :=
  match decryptMessage T cipherBits key with
  | .error e => .error e
  | .ok m => .ok (bitsToText T m.bits)

/-- The registers that ENC and DEC both write: Q with chunk size 64, K0..K7 and KVALID, NBLK, BIDX = `last`, and the
halves of block `last` with RND = 32 (R246, R250). -/
def State.writeMessage (s : State) (m : Message) (last : Nat) : State :=
  { (((s.writeQ 64 m.blocks).writeKeys m.keys).writeHalves (m.blocks.getD last [])) with
    nblk := m.blocks.length
    bidx := last }

/-- LDKEY Ta (R242). -/
def execLdkey (ra : TSel) (s : State) : Result :=
  match keyParts s.tables (s.readT ra) with
  | .ok kp => complete (s.writeKeys kp)
  | .error e => raise e s

/-- ENC Bd, Ta, Tb (R246): the last block processed is the last of the message. -/
def execEnc (rd : BSel) (ra rb : TSel) (s : State) : Result :=
  match encryptMessage s.tables (s.readT ra) (s.readT rb) with
  | .ok m => complete ((s.writeB rd m.bits).writeMessage m (m.blocks.length - 1))
  | .error e => raise e s

/-- DEC Td, Ba, Tb (R250): blocks go from last to first, so the last block processed is block 0 (R249; log 15). -/
def execDec (rd : TSel) (ra : BSel) (rb : TSel) (s : State) : Result :=
  match decryptMessage s.tables (s.readB ra) (s.readT rb) with
  | .ok m => complete ((s.writeT rd (bitsToText s.tables m.bits)).writeMessage m 0)
  | .error e => raise e s

end Sys2Proof.Machine
end

