-- ==== Sys2Proof/Machine/Dispatch.lean ====
section
/-! DEFINITION. One arm per command: the meaning it calls. -/

namespace Sys2Proof.Machine

def exec (i : Instr) (s : State) : Host.Outcome State Fault Refusal :=
  match i with
  | .codeof => Sys2Proof.Machine.execCodeof s
  | .symof => Sys2Proof.Machine.execSymof s
  | .t2b rd ra => Sys2Proof.Machine.execT2b rd ra s
  | .b2t rd ra => Sys2Proof.Machine.execB2t rd ra s
  | .xor rd ra rb => Sys2Proof.Machine.execXor rd ra rb s
  | .dec8 ra => Sys2Proof.Machine.execDec8 ra s
  | .rotl11 rd ra => Sys2Proof.Machine.execRotl11 rd ra s
  | .split ra imm => Sys2Proof.Machine.execSplit ra imm s
  | .join rd => Sys2Proof.Machine.execJoin rd s
  | .getq rd imm => Sys2Proof.Machine.execGetq rd imm s
  | .subst rd ra => Sys2Proof.Machine.execSubst rd ra s
  | .frnd rd ra rb => Sys2Proof.Machine.execFrnd rd ra rb s
  | .kidx imm => Sys2Proof.Machine.execKidx imm s
  | .ldkey ra => Sys2Proof.Machine.execLdkey ra s
  | .encb rd ra rb => Sys2Proof.Machine.execEncb rd ra rb s
  | .decb rd ra rb => Sys2Proof.Machine.execDecb rd ra rb s
  | .enc rd ra rb => Sys2Proof.Machine.execEnc rd ra rb s
  | .dec rd ra rb => Sys2Proof.Machine.execDec rd ra rb s

end Sys2Proof.Machine
end

