-- ==== Sys2Proof/Machine/HostPort.lean ====
section
/-! DEFINITION. The host port: a write to CMD, host writes, and the access that one step performs (20_memory.md). -/

namespace Sys2Proof.Machine

/-- A write of `v` to CMD while FAULT = 0: decode, then the command's own meaning; a word that does not decode raises
IllegalCommand before any operand is read (R67, R95, R280). -/
def writeCmd (v : Word) (s : State) : Result :=
  match decode v with
  | .ok i => exec i s
  | .error _ => raise .illegalCommand s

/-- `MemWrite(addr, 32, v)`: ignored while FAULT = 1, to every address (R68, R94); else CMD executes the word and any
other address is `mapWrite`'s (R66). -/
def memWrite (addr : Addr) (v : Word) (s : State) : Result :=
  if s.fault then .next s
  else match decodeAddr addr with
    | .cmd => writeCmd v s
    | r => .next (mapWrite r v s)

/-- One host access or reset event. -/
def hostAccess (a : HostAccess) (s : State) : Result :=
  match a with
  | .read addr => .next (memRead addr s)
  | .write addr v => memWrite addr v s
  | .reset => .next (resetEvent s)

/-- Take the oldest pending access and perform it (R74); only a read leaves a word in `reply`. With none pending the
engine waits for the host (R310; log 1). -/
def nextAccess (s : State) : Result :=
  match s.input with
  | [] => .next s
  | a :: rest => hostAccess a { s with input := rest, reply := none }

end Sys2Proof.Machine
end

