-- ==== Sys2Proof/Machine/Step.lean ====
section
/-! DEFINITION. One step of the machine: one host access, a command running whole inside its CMD write (R67, D10). -/

namespace Sys2Proof.Machine

/-- One step: the oldest pending host access or reset event, or waiting when there is none. -/
def step (s : State) : Host.Outcome State Fault Refusal := nextAccess s

/-- The state whose next step runs the command with the bits `w`: the host's next access is a write of that word to
CMD (R36: "the host supplies one command at a time by writing CMD"); the accesses already pending follow it (log 1). -/
def State.withFetchWord (s : State) (nbits w : Nat) : State :=
  { s with input := .write 0x000#12 (tableWord nbits w) :: s.input }

end Sys2Proof.Machine
end

