-- ==== Sys2Proof/Safety.lean ====
section
/-! DEFINITION. What claims call a sound state: the ranges and canonical forms that the spec gives the registers, which
every step keeps. -/

namespace Sys2Proof.Machine

/-- A bit register's length is in [0, 2048] (R21). -/
def BitReg.Inv (r : BitReg) : Prop := r.len ≤ 2048

/-- A text register's length is in [0, 256] (R25). -/
def TextReg.Inv (r : TextReg) : Prop := r.len ≤ 256

/-- Q: chunk size and count in [0, 2048], "`Q.ps * Q.cnt` <= 2048, and `Q.bit[i]` = 0 for i >= `Q.ps * Q.cnt`" (R28). -/
structure SeqReg.Inv (q : SeqReg) : Prop where
  ps_le : q.ps ≤ 2048
  cnt_le : q.cnt ≤ 2048
  fits : q.ps * q.cnt ≤ 2048
  tail_zero : ∀ i, q.ps * q.cnt ≤ i → q.store.getMsbD i = false

/-- The ranges of R20, R28, R32, R37 and R38; ERR is 0 exactly while FAULT = 0 (R37, R272); SENTINEL is 0x30 (R6). -/
structure State.Inv (s : State) : Prop where
  b_inv : ∀ n : BSel, (s.b[n]).Inv
  t_inv : ∀ n : TSel, (s.t[n]).Inv
  q_inv : s.q.Inv
  rnd_le : s.rnd ≤ 32
  bidx_le : s.bidx ≤ 31
  nblk_le : s.nblk ≤ 32
  err_le : s.err.toNat ≤ 8
  err_zero_iff : s.err = 0#4 ↔ s.fault = false
  sentinel_eq : s.tables.sentinel = 0x30#32

/-- The working registers at a command boundary (R31, R32, R229): no key, no message before the first of each, BIDX a
block index of the message, and either no block done or all 32 rounds of one. -/
structure State.WorkInv (s : State) : Prop where
  no_key : s.kvalid = false → (∀ k : Fin 8, s.k[k] = 0#32) ∧ s.nblk = 0
  no_message : s.nblk = 0 → s.bidx = 0
  index_lt : 0 < s.nblk → s.bidx < s.nblk
  rounds_done : s.rnd = 32 ∨ (s.rnd = 0 ∧ s.lreg = 0#32 ∧ s.rreg = 0#32 ∧ s.nblk = 0)

/-! ### What claims read from a state -/

/-- Stored bit i of Bn (R21). -/
def State.bit (s : State) (n : BSel) (i : Nat) : Bool := s.b[n].store.getMsbD i

/-- Stored bit i of Q (R28). -/
def State.qbit (s : State) (i : Nat) : Bool := s.q.store.getMsbD i

/-- Stored symbol i of Tn (R25); 0 past the store. -/
def State.sym (s : State) (n : TSel) (i : Nat) : Sym := s.t[n].store.toList.getD i 0#32

/-- Data word w of Bn, as the host reads it (R62). -/
def State.bword (s : State) (n : BSel) (w : Fin 64) : Word := dataWord s.b[n].store w

/-- Data word w of Q, as the host reads it (R62). -/
def State.qword (s : State) (w : Fin 64) : Word := dataWord s.q.store w

/-- Symbol x is the symbol of some pair of CP (R33). -/
def Mapped (T : Tables) (x : Sym) : Prop := ∃ c, (c, x) ∈ codepage T

/-- Every symbol of the text in Tn is in CP: "only symbols at positions below the register's length are looked at" (R273). -/
def State.TextMapped (s : State) (n : TSel) : Prop := ∀ i, i < s.t[n].len → Mapped s.tables (s.sym n i)

/-- The code CP gives a symbol; 0 for a symbol it does not hold. -/
def codeIn (T : Tables) (x : Sym) : Nat := (((codepage T).find? (fun p => p.2 == x)).map Prod.fst).getD 0

/-- The code of symbol i of the text in Tn, and 0 at and past its length. -/
def State.codeAt (s : State) (n : TSel) (i : Nat) : Nat := if i < s.t[n].len then codeIn s.tables (s.sym n i) else 0

/-- Four bytes as a word, the first byte most significant (R8, R70). -/
def wordOfBytes (b0 b1 b2 b3 : Nat) : Word := BitVec.ofNat 32 (((b0 * 256 + b1) * 256 + b2) * 256 + b3)

/-- Word w of the text in Tn encoded: the codes of symbols 4w, 4w+1, 4w+2, 4w+3 in that order (R140, R241). -/
def State.textWord (s : State) (n : TSel) (w : Nat) : Word :=
  wordOfBytes (s.codeAt n (4 * w)) (s.codeAt n (4 * w + 1)) (s.codeAt n (4 * w + 2)) (s.codeAt n (4 * w + 3))

/-- Word w of the bitstring in Bn, 0 bits at and past its length (R170: right-padded with zeros). -/
def State.bitsWord (s : State) (n : BSel) (w : Nat) : Word :=
  bitsToWord ((List.range 32).map (fun j => decide (32 * w + j < s.b[n].len) && s.bit n (32 * w + j)))

/-- The 8-bit group j of a data store as a number (R143, R152). -/
def byteAt (d : Store) (j : Nat) : Nat := val (storeSlice d (8 * j) 8)

/-- The text of the first m 8-bit groups of a store: groups of value 0 are dropped, the others mapped to symbols (R143). -/
def textOfBytes (T : Tables) (d : Store) (m : Nat) : Text :=
  (List.range m).filterMap (fun j => if byteAt d j = 0 then none else some (symbolOf T (byteAt d j)))

/-- "The complete table of keyIndex" (R202). -/
def scheduleTable : List Nat :=
  [0, 1, 2, 3, 4, 5, 6, 7, 0, 1, 2, 3, 4, 5, 6, 7, 0, 1, 2, 3, 4, 5, 6, 7, 0, 0, 7, 6, 5, 4, 3, 2]

/-- A specifier field is legal for its use: class B names 0..3, class T names 0..1, an unused field is 0 (R91). -/
def fieldLegal (u : FieldUse) (f : BitVec 4) : Prop :=
  match u with
  | .classB => f.toNat ≤ 3
  | .classT => f.toNat ≤ 1
  | .unused => f = 0#4

/-! ### Faults -/

/-- The state after a fault with code c: exactly ERR and FAULT change (R272). -/
def State.faulted (s : State) (c : FaultCode) : State := { s with err := c.code, fault := true }

/-- The conditions that a command checks, in the order of R281, each with the fault it raises. -/
def checks (i : Instr) (s : State) : List (FaultCode × Prop) :=
  match i with
  | .codeof => [(.unknownSymbol, ¬ Mapped s.tables s.res)]
  | .symof => [(.operandError, 255 < s.res.toNat)]
  | .t2b _ ra => [(.unknownSymbol, ¬ s.TextMapped ra)]
  | .b2t _ ra => [(.operandError, s.b[ra].len % 8 ≠ 0)]
  | .xor _ ra rb => [(.lengthMismatch, s.b[ra].len ≠ s.b[rb].len)]
  | .dec8 ra => [(.operandError, s.b[ra].len ≠ 8)]
  | .rotl11 _ ra => [(.operandError, s.b[ra].len ≠ 32)]
  | .split ra imm => [(.operandError, imm = 0 ∨ 2048 < imm), (.operandError, 2048 < ceilDiv s.b[ra].len imm * imm)]
  | .join _ => [(.emptyJoin, s.q.cnt = 0)]
  | .getq _ imm => [(.operandError, s.q.cnt ≤ imm)]
  | .subst _ ra => [(.operandError, s.b[ra].len ≠ 32)]
  | .frnd _ ra rb => [(.lengthMismatch, s.b[ra].len ≠ s.b[rb].len), (.operandError, s.b[ra].len ≠ 32)]
  | .kidx imm => [(.scheduleRange, 32 ≤ imm)]
  | .ldkey ra => [(.unknownSymbol, ¬ s.TextMapped ra), (.keyLengthError, s.t[ra].len ≠ 32)]
  | .encb _ ra rb => [(.operandError, s.b[ra].len ≠ 64), (.lengthMismatch, s.b[rb].len ≠ 32)]
  | .decb _ ra rb => [(.operandError, s.b[ra].len ≠ 64), (.lengthMismatch, s.b[rb].len ≠ 32)]
  | .enc _ ra rb => [(.unknownSymbol, ¬ s.TextMapped ra), (.unknownSymbol, ¬ s.TextMapped rb),
      (.keyLengthError, s.t[rb].len ≠ 32), (.emptyJoin, s.t[ra].len = 0)]
  | .dec _ ra rb => [(.unknownSymbol, ¬ s.TextMapped rb), (.keyLengthError, s.t[rb].len ≠ 32),
      (.emptyJoin, s.b[ra].len = 0)]

/-- `c` is the fault of the first condition of the list that holds. -/
def FirstFailed : List (FaultCode × Prop) → FaultCode → Prop
  | [], _ => False
  | (c', p) :: rest, c => (p ∧ c = c') ∨ (¬ p ∧ FirstFailed rest c)

/-- No condition of the list holds. -/
def NoneFailed : List (FaultCode × Prop) → Prop
  | [] => True
  | (_, p) :: rest => ¬ p ∧ NoneFailed rest

/-- The causes of UnknownSymbol, the table of R273. -/
def unknownSymbolCause (i : Instr) (s : State) : Prop :=
  match i with
  | .codeof => ¬ Mapped s.tables s.res
  | .t2b _ ra => ∃ i, i < s.t[ra].len ∧ ¬ Mapped s.tables (s.sym ra i)
  | .ldkey ra => ∃ i, i < s.t[ra].len ∧ ¬ Mapped s.tables (s.sym ra i)
  | .enc _ ra rb => (∃ i, i < s.t[ra].len ∧ ¬ Mapped s.tables (s.sym ra i))
      ∨ (s.TextMapped ra ∧ ∃ i, i < s.t[rb].len ∧ ¬ Mapped s.tables (s.sym rb i))
  | .dec _ _ rb => ∃ i, i < s.t[rb].len ∧ ¬ Mapped s.tables (s.sym rb i)
  | .symof | .b2t _ _ | .xor _ _ _ | .dec8 _ | .rotl11 _ _ | .split _ _ | .join _ | .getq _ _ | .subst _ _
  | .frnd _ _ _ | .kidx _ | .encb _ _ _ | .decb _ _ _ => False

/-- The causes of LengthMismatch, the table of R274. -/
def lengthMismatchCause (i : Instr) (s : State) : Prop :=
  match i with
  | .xor _ ra rb => s.b[ra].len ≠ s.b[rb].len
  | .frnd _ ra rb => s.b[ra].len ≠ s.b[rb].len
  | .encb _ ra rb => s.b[ra].len = 64 ∧ s.b[rb].len ≠ 32
  | .decb _ ra rb => s.b[ra].len = 64 ∧ s.b[rb].len ≠ 32
  | .codeof | .symof | .t2b _ _ | .b2t _ _ | .dec8 _ | .rotl11 _ _ | .split _ _ | .join _ | .getq _ _ | .subst _ _
  | .kidx _ | .ldkey _ | .enc _ _ _ | .dec _ _ _ => False

/-- The causes of KeyLengthError, the table of R275: a key of mapped symbols whose length is not 32 (for ENC, once the
message text has passed its own lookup). -/
def keyLengthErrorCause (i : Instr) (s : State) : Prop :=
  match i with
  | .ldkey ra => s.TextMapped ra ∧ s.t[ra].len ≠ 32
  | .enc _ ra rb => s.TextMapped ra ∧ s.TextMapped rb ∧ s.t[rb].len ≠ 32
  | .dec _ _ rb => s.TextMapped rb ∧ s.t[rb].len ≠ 32
  | .codeof | .symof | .t2b _ _ | .b2t _ _ | .xor _ _ _ | .dec8 _ | .rotl11 _ _ | .split _ _ | .join _ | .getq _ _
  | .subst _ _ | .frnd _ _ _ | .kidx _ | .encb _ _ _ | .decb _ _ _ => False

/-- The causes of EmptyJoin, the table of R276. -/
def emptyJoinCause (i : Instr) (s : State) : Prop :=
  match i with
  | .join _ => s.q.cnt = 0
  | .enc _ ra rb => s.t[ra].len = 0 ∧ s.TextMapped rb ∧ s.t[rb].len = 32
  | .dec _ ra rb => s.b[ra].len = 0 ∧ s.TextMapped rb ∧ s.t[rb].len = 32
  | .codeof | .symof | .t2b _ _ | .b2t _ _ | .xor _ _ _ | .dec8 _ | .rotl11 _ _ | .split _ _ | .getq _ _ | .subst _ _
  | .frnd _ _ _ | .kidx _ | .ldkey _ | .encb _ _ _ | .decb _ _ _ => False

/-- The only cause of ScheduleRange (R277). -/
def scheduleRangeCause (i : Instr) (_ : State) : Prop :=
  match i with
  | .kidx imm => 32 ≤ imm
  | .codeof | .symof | .t2b _ _ | .b2t _ _ | .xor _ _ _ | .dec8 _ | .rotl11 _ _ | .split _ _ | .join _ | .getq _ _
  | .subst _ _ | .frnd _ _ _ | .ldkey _ | .encb _ _ _ | .decb _ _ _ | .enc _ _ _ | .dec _ _ _ => False

/-- The causes of OperandError, the table of R278. -/
def operandErrorCause (i : Instr) (s : State) : Prop :=
  match i with
  | .symof => 255 < s.res.toNat
  | .b2t _ ra => s.b[ra].len % 8 ≠ 0
  | .dec8 ra => s.b[ra].len ≠ 8
  | .rotl11 _ ra => s.b[ra].len ≠ 32
  | .subst _ ra => s.b[ra].len ≠ 32
  | .frnd _ ra rb => s.b[ra].len = s.b[rb].len ∧ s.b[ra].len ≠ 32
  | .encb _ ra _ => s.b[ra].len ≠ 64
  | .decb _ ra _ => s.b[ra].len ≠ 64
  | .split ra imm => imm = 0 ∨ 2048 < imm ∨ 2048 < ceilDiv s.b[ra].len imm * imm
  | .getq _ imm => s.q.cnt ≤ imm
  | .codeof | .t2b _ _ | .xor _ _ _ | .join _ | .kidx _ | .ldkey _ | .enc _ _ _ | .dec _ _ _ => False

/-! ### Frames -/

/-- Of the bit registers only Bn may differ. -/
def OnlyB (n : BSel) (s t : State) : Prop := ∀ m : BSel, m ≠ n → t.b[m] = s.b[m]

/-- Of the text registers only Tn may differ. -/
def OnlyT (n : TSel) (s t : State) : Prop := ∀ m : TSel, m ≠ n → t.t[m] = s.t[m]

/-- From `s` to `t` the command wrote nothing but what the table of R41 lists for it. -/
def WritesOnly (i : Instr) (s t : State) : Prop :=
  match i with
  | .codeof | .symof | .dec8 _ | .kidx _ => t = { s with res := t.res }
  | .t2b rd _ | .xor rd _ _ | .rotl11 rd _ | .join rd | .getq rd _ | .subst rd _ | .frnd rd _ _ =>
    OnlyB rd s t ∧ t = { s with b := t.b }
  | .b2t rd _ => OnlyT rd s t ∧ t = { s with t := t.t }
  | .split _ _ => t = { s with q := t.q }
  | .ldkey _ => t = { s with k := t.k, kvalid := t.kvalid }
  | .encb rd _ _ | .decb rd _ _ =>
    OnlyB rd s t ∧ t = { s with b := t.b, lreg := t.lreg, rreg := t.rreg, rnd := t.rnd }
  | .enc rd _ _ =>
    OnlyB rd s t ∧ t = { s with b := t.b, q := t.q, k := t.k, kvalid := t.kvalid, lreg := t.lreg, rreg := t.rreg,
                                 rnd := t.rnd, bidx := t.bidx, nblk := t.nblk }
  | .dec rd _ _ =>
    OnlyT rd s t ∧ t = { s with t := t.t, q := t.q, k := t.k, kvalid := t.kvalid, lreg := t.lreg, rreg := t.rreg,
                                 rnd := t.rnd, bidx := t.bidx, nblk := t.nblk }

/-- Two states agree on what the registers hold as bitstrings, texts and sequence, whatever their stores hold at and
past the lengths (R22, R25, R29), and on RES, ERR, FAULT and the tables. Nothing is said of the registers that "no command
reads" (R31, R32): K0..K7, KVALID, LREG, RREG, RND, BIDX, NBLK. -/
def AgreeOnContents (s s' : State) : Prop :=
  (∀ n : BSel, s.readB n = s'.readB n) ∧ (∀ n : TSel, s.readT n = s'.readT n) ∧ s.readQ = s'.readQ ∧ s.res = s'.res
    ∧ s.err = s'.err ∧ s.fault = s'.fault ∧ s.tables = s'.tables

/-- Two states agree on the working registers that the row of R41 lists for the command (R31, R32). -/
def AgreeOnWorkWrites (i : Instr) (t t' : State) : Prop :=
  match i with
  | .ldkey _ => t.k = t'.k ∧ t.kvalid = t'.kvalid
  | .encb _ _ _ | .decb _ _ _ => t.lreg = t'.lreg ∧ t.rreg = t'.rreg ∧ t.rnd = t'.rnd
  | .enc _ _ _ | .dec _ _ _ => t.k = t'.k ∧ t.kvalid = t'.kvalid ∧ t.lreg = t'.lreg ∧ t.rreg = t'.rreg
      ∧ t.rnd = t'.rnd ∧ t.bidx = t'.bidx ∧ t.nblk = t'.nblk
  | .codeof | .symof | .t2b _ _ | .b2t _ _ | .xor _ _ _ | .dec8 _ | .rotl11 _ _ | .split _ _ | .join _ | .getq _ _
  | .subst _ _ | .frnd _ _ _ | .kidx _ => True

/-! ### Sequences of host accesses -/

/-- Load a text into Tn: the symbols one by one, then the length (R78). -/
def loadText (n : TSel) (t : Text) : List HostAccess :=
  (List.range t.length).map (fun i => .write (BitVec.ofNat 12 (0x400 + 0x100 * n.val + i)) (t.getD i 0#32))
    ++ [.write (BitVec.ofNat 12 (0x024 + n.val)) (BitVec.ofNat 32 t.length)]

/-- Load a bitstring into Bn: data word w has bit 31 - j equal to s[32w + j], 0 past the string; then the length (R78). -/
def loadBits (n : BSel) (v : Bits) : List HostAccess :=
  (List.range (ceilDiv v.length 32)).map (fun w => .write (BitVec.ofNat 12 (0x100 + 0x40 * n.val + w))
      (bitsToWord ((List.range 32).map (fun j => v.getD (32 * w + j) false))))
    ++ [.write (BitVec.ofNat 12 (0x020 + n.val)) (BitVec.ofNat 32 v.length)]

/-- The host macro ENCRYPT(text, key): load T0 and T1, write `ENC B0, T0, T1` (0x46001000) to CMD, read STATUS (R102). -/
def encryptMacro (text key : Text) : List HostAccess :=
  loadText 0 text ++ loadText 1 key ++ [.write 0x000#12 0x46001000#32, .read 0x001#12]

/-- The host macro DECRYPT(cipherBits, key): load B0 and T1, write `DEC T0, B0, T1` (0x47001000) to CMD, read STATUS
(R102). -/
def decryptMacro (cipherBits : Bits) (key : Text) : List HostAccess :=
  loadBits 0 cipherBits ++ loadText 1 key ++ [.write 0x000#12 0x47001000#32, .read 0x001#12]

/-- The machine's run of exactly these host accesses from `s`, in order (R74). -/
def runAccesses (as : List HostAccess) (s : State) : Host.Outcome State Fault Refusal :=
  Host.Core.run Sys2Proof.core as.length { s with input := as }

/-! ### The register map, as R61 lists it -/

/-- "Unmapped: 0x007, 0x00C..0x00F, 0x018..0x01F, 0x026..0x0FF, 0x240..0x3FF, 0x600..0xFFF" (R61). -/
def Unmapped (a : Addr) : Prop :=
  a.toNat = 0x007 ∨ (0x00C ≤ a.toNat ∧ a.toNat ≤ 0x00F) ∨ (0x018 ≤ a.toNat ∧ a.toNat ≤ 0x01F)
    ∨ (0x026 ≤ a.toNat ∧ a.toNat ≤ 0x0FF) ∨ (0x240 ≤ a.toNat ∧ a.toNat ≤ 0x3FF) ∨ 0x600 ≤ a.toNat

/-- The mapped addresses with access R: STATUS, ERR, RND, BIDX, NBLK, LREG, RREG, QPS, QCNT, Kk, QDATA (R61, R66). -/
def ReadOnly (a : Addr) : Prop :=
  a.toNat = 0x001 ∨ a.toNat = 0x002 ∨ (0x004 ≤ a.toNat ∧ a.toNat ≤ 0x006) ∨ (0x008 ≤ a.toNat ∧ a.toNat ≤ 0x00B)
    ∨ (0x010 ≤ a.toNat ∧ a.toNat ≤ 0x017) ∨ (0x200 ≤ a.toNat ∧ a.toNat ≤ 0x23F)

/-- The accesses that raise HostAccess, the list of R69. -/
def hostAccessCause (a : HostAccess) : Prop :=
  match a with
  | .read addr => Unmapped addr ∨ addr = 0x000#12
  | .write addr v => Unmapped addr ∨ ReadOnly addr
      ∨ ((0x020 ≤ addr.toNat ∧ addr.toNat ≤ 0x023) ∧ 2048 < v.toNat)
      ∨ ((0x024 ≤ addr.toNat ∧ addr.toNat ≤ 0x025) ∧ 256 < v.toNat)
  | .reset => False

/-! ### The engine on words

R8, R191, R199, R221 and R225 give the operations on words as well as on bitstrings; claims say that the machine, whose
meanings are written on bitstrings, computes these. -/

/-- The eight nibbles of a word, nibble 0 being bits 31:28 and nibble 7 bits 3:0 (R190). -/
def wordNibbles (w : Word) : List Nat := (List.range 8).map (fun j => w.toNat / 16 ^ (7 - j) % 16)

/-- `substw`: "nibble j of the result word (bits 31-4j down to 28-4j) is SBOX[nibble j of val(x)]" (R191). -/
def substWord (T : Tables) (w : Word) : Word :=
  BitVec.ofNat 32 ((wordNibbles w).foldl (fun a v => 16 * a + sboxAt T v) 0)

/-- `rotl32(w, n)`, for 0 < n < 32: ((w << n) | (w >> (32-n))) & 0xFFFFFFFF (00_scope.md section 6.3). -/
def rotl32 (w : Word) (n : Nat) : Word := (w <<< n) ||| (w >>> (32 - n))

/-- "val(F(h,k)) = rotl32(substw(val(h) XOR val(k)), 11)" (R199). -/
def wordF (T : Tables) (h k : Word) : Word := rotl32 (substWord T (h ^^^ k)) 11

/-- One encrypt round on words: (L, R) becomes (F(L, k) XOR R, L) (R221). -/
def wordEncRound (T : Tables) (k : Word) (p : Word × Word) : Word × Word := (wordF T p.1 k ^^^ p.2, p.1)

/-- One decrypt round on words: (L, R) becomes (R, L XOR F(R, k)) (R225). -/
def wordDecRound (T : Tables) (k : Word) (p : Word × Word) : Word × Word := (p.2, p.1 ^^^ wordF T p.2 k)

/-- 32 encrypt rounds (R221, R229). -/
def wordEncrypt (T : Tables) (k : Word) (p : Word × Word) : Word × Word := (wordEncRound T k)^[32] p

/-- 32 decrypt rounds (R225, R229). -/
def wordDecrypt (T : Tables) (k : Word) (p : Word × Word) : Word × Word := (wordDecRound T k)^[32] p

end Sys2Proof.Machine
end

