-- ==== Sys2Proof/Certificates/Slice0/Obligations.lean ====
section
/-! DEFINITION. The statements for the provers. Each names the numbered rules of spec/ that it formalises; a register's
contents are read through `State.bit`, `State.sym`, `State.bword` and their like (Safety), and a command's frame is
`WritesOnly`, the table of R41: every register, flag and table that it does not name is unchanged. The model has no memory
beside the registers (log 3), so there is no byte of memory to frame. -/

open Sys2Proof Sys2Proof.Machine

/-! ### Encoding -/

/-- One word per command, written out in the spec (R100 and the examples of the commands' rules), decodes to it. -/
def Obligations.SpecExampleWordsDecode : Prop :=
  decode 0x10000000#32 = .ok .codeof ∧ decode 0x11000000#32 = .ok .symof
    ∧ decode 0x20000000#32 = .ok (.t2b 0 0) ∧ decode 0x21010000#32 = .ok (.b2t 0 1)
    ∧ decode 0x22201000#32 = .ok (.xor 2 0 1) ∧ decode 0x23000000#32 = .ok (.dec8 0)
    ∧ decode 0x24100000#32 = .ok (.rotl11 1 0) ∧ decode 0x30010040#32 = .ok (.split 1 64)
    ∧ decode 0x31100000#32 = .ok (.join 1) ∧ decode 0x32300002#32 = .ok (.getq 3 2)
    ∧ decode 0x40100000#32 = .ok (.subst 1 0) ∧ decode 0x41201000#32 = .ok (.frnd 2 0 1)
    ∧ decode 0x4200001F#32 = .ok (.kidx 31) ∧ decode 0x43010000#32 = .ok (.ldkey 1)
    ∧ decode 0x44201000#32 = .ok (.encb 2 0 1) ∧ decode 0x45321000#32 = .ok (.decb 3 2 1)
    ∧ decode 0x46001000#32 = .ok (.enc 0 0 1) ∧ decode 0x47001000#32 = .ok (.dec 0 0 1)

/-- Decoding the word of any well-formed command gives the command back, every operand at every value (R90 to R93, R100). -/
def Obligations.DecodeEncodeAgree : Prop :=
  ∀ i : Instr, i.WellFormed = true → decode (encode i) = .ok i

/-- A word that decodes is the one word of a well-formed command (R96, R97, R99: no second encoding, no ignored bit). -/
def Obligations.EncodeDecodeAgree : Prop :=
  ∀ (w : Word) (i : Instr), decode w = .ok i → i.WellFormed = true ∧ encode i = w

/-- R96: match and mask, what the mask covers, at most one row, and what a word that no row matches does. -/
def Obligations.DecodeIsMaskAndMatch : Prop :=
  (∀ (w : Word) (i : Instr), decode w = .ok i ↔ ∃ o : Op, w &&& o.maskWord = o.matchWord ∧ o.build w = i)
    ∧ (∀ (w : Word) (o o' : Op), w &&& o.maskWord = o.matchWord → w &&& o'.maskWord = o'.matchWord → o = o')
    ∧ (∀ o : Op, o.maskWord = packFields 0xFF#8 o.uses.1.mask o.uses.2.1.mask o.uses.2.2.1.mask
        (if o.uses.2.2.2 then 0#12 else 0xFFF#12))
    ∧ (∀ o : Op, o.matchWord = packFields o.opcode 0 0 0 0)
    ∧ (∀ (w : Word) (s : State), s.fault = false → (∀ o : Op, w &&& o.maskWord ≠ o.matchWord) →
        hostAccess (.write 0x000#12 w) s = .next (s.faulted .illegalCommand))

/-- A CMD write raises IllegalCommand exactly for the words of R97's list (R97, R280). -/
def Obligations.IllegalCommandExactly : Prop :=
  ∀ (w : Word) (s : State), s.fault = false →
    (hostAccess (.write 0x000#12 w) s = .next (s.faulted .illegalCommand) ↔
      (fieldOp w ∉ [0x10#8, 0x11#8, 0x20#8, 0x21#8, 0x22#8, 0x23#8, 0x24#8, 0x30#8, 0x31#8, 0x32#8, 0x40#8, 0x41#8,
          0x42#8, 0x43#8, 0x44#8, 0x45#8, 0x46#8, 0x47#8]
        ∨ ∃ o : Op, fieldOp w = o.opcode ∧ ¬ (fieldLegal o.uses.1 (fieldRd w) ∧ fieldLegal o.uses.2.1 (fieldRa w)
            ∧ fieldLegal o.uses.2.2.1 (fieldRb w) ∧ (o.uses.2.2.2 = false → fieldImm w = 0#12))))

/-! ### Reset -/

/-- R40: every piece of state after reset. The two fields of the model's own (log 1, log 2) are not spoken of. -/
def Obligations.ResetValues : Prop :=
  (∀ n : BSel, State.reset.b[n].len = 0 ∧ ∀ i, State.reset.bit n i = false)
    ∧ (∀ n : TSel, State.reset.t[n].len = 0 ∧ ∀ i, State.reset.sym n i = 0#32)
    ∧ State.reset.q.ps = 0 ∧ State.reset.q.cnt = 0 ∧ (∀ i, State.reset.qbit i = false)
    ∧ (∀ k : Fin 8, State.reset.k[k] = 0#32) ∧ State.reset.kvalid = false
    ∧ State.reset.lreg = 0#32 ∧ State.reset.rreg = 0#32
    ∧ State.reset.rnd = 0 ∧ State.reset.bidx = 0 ∧ State.reset.nblk = 0
    ∧ State.reset.res = 0#32 ∧ State.reset.err = 0#4 ∧ State.reset.fault = false
    ∧ State.reset.tables = Config.tables

/-- The state after reset meets the invariant of O8. -/
def Obligations.ResetMeetsInv : Prop := State.reset.Inv

/-- Every step keeps every range and canonical form that the spec gives the registers (R20, R21, R25, R28, R32, R37). -/
def Obligations.StepKeepsInv : Prop :=
  ∀ s t : State, s.Inv → step s = .next t → t.Inv

/-- The working registers are consistent after reset and after every step (R31, R32, R229, R240). -/
def Obligations.WorkingRegistersConsistent : Prop :=
  State.reset.WorkInv ∧ ∀ s t : State, s.Inv → s.WorkInv → step s = .next t → t.WorkInv

/-- No step changes SBOX, CP or SENTINEL (R20, R33, R34, R310, R321). -/
def Obligations.StepKeepsTables : Prop :=
  ∀ s t : State, step s = .next t → t.tables = s.tables

/-- The reset event gives every register its value of R40, whatever the state was (R310). That the accesses still to come
stay pending is the model's choice (log 10). -/
def Obligations.ResetEventRestoresReset : Prop :=
  ∀ (s : State) (rest : List HostAccess), s.input = .reset :: rest →
    ∃ t, step s = .next t ∧ t = { State.reset with tables := s.tables, input := rest }

/-- "A command run on reset-state operands has the defined result its rule gives for empty operands" (R311, its list). -/
def Obligations.CommandsOnResetState : Prop :=
  ∀ s : State, s = { State.reset with tables := s.tables } →
    (∀ (rd : BSel) (ra : TSel), exec (.t2b rd ra) s = .next s)
      ∧ (∀ rd ra rb : BSel, exec (.xor rd ra rb) s = .next s)
      ∧ (∀ (ra : BSel) (imm : Nat), 1 ≤ imm → imm ≤ 2048 →
          exec (.split ra imm) s = .next { s with q := ⟨imm, 0, 0#2048⟩ })
      ∧ (∀ rd : BSel, exec (.join rd) s = .next (s.faulted .emptyJoin))
      ∧ (∀ (rd : BSel) (ra rb : TSel), exec (.enc rd ra rb) s = .next (s.faulted .keyLengthError))
      ∧ (∀ (rd : TSel) (ra : BSel) (rb : TSel), exec (.dec rd ra rb) s = .next (s.faulted .keyLengthError))
      ∧ (∀ rd ra rb : BSel, exec (.encb rd ra rb) s = .next (s.faulted .operandError)
          ∧ exec (.decb rd ra rb) s = .next (s.faulted .operandError)
          ∧ exec (.frnd rd ra rb) s = .next (s.faulted .operandError)
          ∧ exec (.subst rd ra) s = .next (s.faulted .operandError)
          ∧ exec (.rotl11 rd ra) s = .next (s.faulted .operandError)
          ∧ exec (.dec8 ra) s = .next (s.faulted .operandError))
      ∧ (∀ (rd : BSel) (imm : Nat), exec (.getq rd imm) s = .next (s.faulted .operandError))
      ∧ exec .codeof s = .next s ∧ exec .symof s = .next s ∧ exec (.kidx 0) s = .next s

/-! ### Steps -/

/-- A step performs the oldest pending access, and only it; with none pending the engine waits (R74, R310). The queue of
accesses is the model's own view of the host (log 1). -/
def Obligations.StepTakesOldestAccess : Prop :=
  (∀ s : State, s.input = [] → step s = .next s)
    ∧ ∀ (s : State) (a : HostAccess) (rest : List HostAccess), s.input = a :: rest →
        step s = hostAccess a { s with input := rest, reply := none }

/-- When the next access writes the word of a command to CMD and FAULT = 0, the step is `exec` of that command on the
state whose pending accesses are the rest (R67, R95); `withFetchWord` makes exactly that the next access; with FAULT = 1
the write changes nothing (R94). -/
def Obligations.StepRunsDecodedCommand : Prop :=
  (∀ (s : State) (w : Word) (i : Instr) (rest : List HostAccess), s.fault = false →
      s.input = .write 0x000#12 w :: rest → decode w = .ok i →
      step s = exec i { s with input := rest, reply := none })
    ∧ (∀ (s : State) (w : Word) (rest : List HostAccess), s.fault = true → s.input = .write 0x000#12 w :: rest →
        step s = .next { s with input := rest, reply := none })
    ∧ (∀ (s : State) (i : Instr), s.fault = false → i.WellFormed = true →
        step (s.withFetchWord 32 (encode i).toNat) = exec i { s with reply := none })

/-- While FAULT = 1 no host write, to any address, changes anything; reads answer as ever and change nothing; no
sequence of accesses without a reset clears FAULT or changes a register; a reset does (R68, R65, R284). The word read is
left in the model's own field (log 2), and a sequence of accesses is the model's queue (log 1). -/
def Obligations.FaultStickyUntilReset : Prop :=
  ∀ s : State, s.fault = true →
    (∀ (addr : Addr) (v : Word), hostAccess (.write addr v) s = .next s)
      ∧ (∀ addr : Addr, hostAccess (.read addr) s
          = .next { s with reply := some ((s.mapWord (decodeAddr addr)).getD 0#32) })
      ∧ (∀ as : List HostAccess, HostAccess.reset ∉ as →
          ∃ t, runAccesses as s = .next t ∧ t = { s with input := [], reply := t.reply })
      ∧ (∃ t, hostAccess .reset s = .next t ∧ t.fault = false ∧ t.err = 0#4)

/-- There is no hang and no refusal: every step answers a next state (R9, R284). -/
def Obligations.StepAlwaysAnswers : Prop :=
  ∀ s : State, ∃ t, step s = .next t

/-- R41: a command that faults writes nothing but ERR and FAULT; one that completes writes nothing but the registers that
the table lists for it, and leaves ERR and FAULT. -/
def Obligations.CommandFaultsOrWritesOnly : Prop :=
  ∀ (i : Instr) (s : State), s.fault = false →
    ∃ t, exec i s = .next t
      ∧ ((∃ c, t = s.faulted c) ∨ (t.fault = false ∧ t.err = s.err ∧ WritesOnly i s t))

/-! ### Faults -/

/-- R281: a word that does not decode raises IllegalCommand before anything else; otherwise the first check that fails, in
the order of the table, decides the fault, and a command with no failing check completes. -/
def Obligations.FirstFailedCheckIsRaised : Prop :=
  ∀ s : State, s.fault = false →
    (∀ (w : Word) (e : Illegal), decode w = .error e →
        hostAccess (.write 0x000#12 w) s = .next (s.faulted .illegalCommand))
      ∧ (∀ (w : Word) (i : Instr), decode w = .ok i →
          (∀ c, FirstFailed (checks i s) c → hostAccess (.write 0x000#12 w) s = .next (s.faulted c))
          ∧ (NoneFailed (checks i s) →
              ∃ t, hostAccess (.write 0x000#12 w) s = .next t ∧ t.fault = false ∧ t.err = s.err))

/-- R273: UnknownSymbol, all of its causes. -/
def Obligations.UnknownSymbolExactly : Prop :=
  ∀ (i : Instr) (s : State), s.fault = false →
    (exec i s = .next (s.faulted .unknownSymbol) ↔ unknownSymbolCause i s)

/-- R274: LengthMismatch, all of its causes. -/
def Obligations.LengthMismatchExactly : Prop :=
  ∀ (i : Instr) (s : State), s.fault = false →
    (exec i s = .next (s.faulted .lengthMismatch) ↔ lengthMismatchCause i s)

/-- R275: KeyLengthError, all of its causes. -/
def Obligations.KeyLengthErrorExactly : Prop :=
  ∀ (i : Instr) (s : State), s.fault = false →
    (exec i s = .next (s.faulted .keyLengthError) ↔ keyLengthErrorCause i s)

/-- R276: EmptyJoin, all of its causes. -/
def Obligations.EmptyJoinExactly : Prop :=
  ∀ (i : Instr) (s : State), s.fault = false →
    (exec i s = .next (s.faulted .emptyJoin) ↔ emptyJoinCause i s)

/-- R277: ScheduleRange and its only cause. -/
def Obligations.ScheduleRangeExactly : Prop :=
  ∀ (i : Instr) (s : State), s.fault = false →
    (exec i s = .next (s.faulted .scheduleRange) ↔ scheduleRangeCause i s)

/-- R278: OperandError, all of its causes. -/
def Obligations.OperandErrorExactly : Prop :=
  ∀ (i : Instr) (s : State), s.fault = false →
    (exec i s = .next (s.faulted .operandError) ↔ operandErrorCause i s)

/-! ### Codepage -/

/-- CODEOF of a symbol of CP: RES becomes its code, and nothing else changes (R120, R122). -/
def Obligations.CodeofGivesCode : Prop :=
  ∀ (s : State) (c : Nat), (c, s.res) ∈ codepage s.tables →
    exec .codeof s = .next { s with res := BitVec.ofNat 32 c }

/-- SYMOF of a code: RES becomes its symbol, or SENTINEL when CP has no pair for it; nothing else changes (R121, R124,
R286). -/
def Obligations.SymofGivesSymbol : Prop :=
  ∀ s : State, s.res.toNat ≤ 255 →
    (∀ x : Sym, (s.res.toNat, x) ∈ codepage s.tables → exec .symof s = .next { s with res := x })
      ∧ ((∀ x : Sym, (s.res.toNat, x) ∉ codepage s.tables) →
          exec .symof s = .next { s with res := s.tables.sentinel })

/-- R125, laws (a) to (d). -/
def Obligations.CodepageLaws : Prop :=
  ∀ T : Tables, T.sentinel = 0x30#32 →
    (∀ (x : Sym) (c : Nat), codeOf T x = .ok c → symbolOf T c = x)
      ∧ (∀ c : Nat, (∃ x, (c, x) ∈ codepage T) → codeOf T (symbolOf T c) = .ok c)
      ∧ (∀ c : Nat, (¬ ∃ x, (c, x) ∈ codepage T) →
          codeOf T (symbolOf T c) = codeOf T 0x30#32 ∧ codeOf T 0x30#32 = .ok 48 ∧ c ≠ 48)
      ∧ (∃ l : List Sym, l.Nodup ∧ l.length = 191 ∧ ∀ x, (∃ c, codeOf T x = .ok c) ↔ x ∈ l)

/-! ### Bit Codec -/

/-- T2B: the codes of the symbols, 8 bits each, in text order, 0 past them; all 64 data words of Bd (R140, R142, R23). -/
def Obligations.T2bEncodesText : Prop :=
  ∀ (s : State) (rd : BSel) (ra : TSel), s.Inv → s.TextMapped ra →
    ∃ t, exec (.t2b rd ra) s = .next t ∧ t.b[rd].len = 8 * s.t[ra].len
      ∧ (∀ w : Fin 64, t.bword rd w = s.textWord ra w.val) ∧ WritesOnly (.t2b rd ra) s t

/-- B2T: the symbols of the non-zero 8-bit groups, in order, 0 past them (R143, R144, R148, R26). -/
def Obligations.B2tDecodesGroups : Prop :=
  ∀ (s : State) (rd : TSel) (ra : BSel), s.Inv → s.b[ra].len % 8 = 0 →
    ∃ t, exec (.b2t rd ra) s = .next t ∧ t.readT rd = textOfBytes s.tables s.b[ra].store (s.b[ra].len / 8)
      ∧ (∀ i, t.t[rd].len ≤ i → t.sym rd i = 0#32) ∧ WritesOnly (.b2t rd ra) s t

/-- T2B then B2T gives the text back with every NUL removed (R144, R146). -/
def Obligations.T2bThenB2tDropsNuls : Prop :=
  ∀ (s : State) (rd : BSel) (ra rt : TSel), s.Inv → s.TextMapped ra →
    ∃ t u, exec (.t2b rd ra) s = .next t ∧ exec (.b2t rt rd) t = .next u
      ∧ u.readT rt = (s.readT ra).filter (fun x => x != 0#32)

/-- XOR: bit by bit, 0 past the length, on operands of one length, length 0 included, whichever registers are the same
(R149, R151, R95). -/
def Obligations.XorIsBitwise : Prop :=
  ∀ (s : State) (rd ra rb : BSel), s.Inv → s.b[ra].len = s.b[rb].len →
    ∃ t, exec (.xor rd ra rb) s = .next t ∧ t.b[rd].len = s.b[ra].len
      ∧ (∀ i, t.bit rd i = (decide (i < s.b[ra].len) && (s.bit ra i ^^ s.bit rb i)))
      ∧ WritesOnly (.xor rd ra rb) s t

/-- "xor(xor(a,b), b) = a" on the machine (R150). -/
def Obligations.XorTwiceRestores : Prop :=
  ∀ (s : State) (rd ra rb : BSel), s.Inv → s.b[ra].len = s.b[rb].len → rd ≠ rb →
    ∃ t u, exec (.xor rd ra rb) s = .next t ∧ exec (.xor rd rd rb) t = .next u ∧ u.readB rd = s.readB ra

/-- DEC8: the 8 bits as an unsigned number, first bit most significant: the top byte of data word 0 (R152, R154). -/
def Obligations.Dec8IsTopByte : Prop :=
  ∀ (s : State) (ra : BSel), s.b[ra].len = 8 →
    exec (.dec8 ra) s = .next { s with res := s.bword ra 0 >>> 24 }

/-- ROTL11: position i of the result holds bit (i + 11) mod 32; on the word, rotl32 by 11 (R155, R157). -/
def Obligations.Rotl11Rotates : Prop :=
  ∀ (s : State) (rd ra : BSel), s.b[ra].len = 32 →
    ∃ t, exec (.rotl11 rd ra) s = .next t ∧ t.b[rd].len = 32
      ∧ (∀ i, i < 32 → t.bit rd i = s.bit ra ((i + 11) % 32))
      ∧ (∀ w : Fin 64, t.bword rd w = if w.val = 0 then rotl32 (s.bword ra 0) 11 else 0#32)
      ∧ WritesOnly (.rotl11 rd ra) s t

/-! ### Segmenter -/

/-- SPLIT: chunk size, chunk count, and the bits followed by zeros, in Q (R170, R172, R30). -/
def Obligations.SplitCutsIntoQ : Prop :=
  ∀ (s : State) (ra : BSel) (imm : Nat), 1 ≤ imm → imm ≤ 2048 → ceilDiv s.b[ra].len imm * imm ≤ 2048 →
    ∃ t, exec (.split ra imm) s = .next t ∧ t.q.ps = imm ∧ t.q.cnt = ceilDiv s.b[ra].len imm
      ∧ (∀ i, t.qbit i = (decide (i < s.b[ra].len) && s.bit ra i)) ∧ WritesOnly (.split ra imm) s t

/-- JOIN: all chunks of Q in order, padding kept, 0 past them (R173, R175). -/
def Obligations.JoinConcatenatesQ : Prop :=
  ∀ (s : State) (rd : BSel), s.Inv → 1 ≤ s.q.cnt →
    ∃ t, exec (.join rd) s = .next t ∧ t.b[rd].len = s.q.cnt * s.q.ps
      ∧ (∀ i, t.bit rd i = (decide (i < s.q.cnt * s.q.ps) && s.qbit i)) ∧ WritesOnly (.join rd) s t

/-- SPLIT then JOIN: "bits zero-padded up to the next multiple of n", with less than one chunk of padding; SPLIT then
GETQ j: the j-th window of the padded bits (R170, R171, R177). -/
def Obligations.SplitThenJoinPads : Prop :=
  ∀ (s : State) (rd ra : BSel) (imm : Nat), s.Inv → 1 ≤ imm → imm ≤ 2048 → 0 < s.b[ra].len →
    ceilDiv s.b[ra].len imm * imm ≤ 2048 →
    ∃ t, exec (.split ra imm) s = .next t
      ∧ (∃ u, exec (.join rd) t = .next u
          ∧ u.readB rd = s.readB ra ++ zeros (ceilDiv s.b[ra].len imm * imm - s.b[ra].len)
          ∧ ceilDiv s.b[ra].len imm * imm - s.b[ra].len < imm)
      ∧ (∀ j, j < ceilDiv s.b[ra].len imm → ∃ u, exec (.getq rd j) t = .next u ∧ u.b[rd].len = imm
          ∧ ∀ i, i < imm → u.bit rd i = (decide (j * imm + i < s.b[ra].len) && s.bit ra (j * imm + i)))

/-- GETQ: chunk imm of Q, 0 past it (R29, R176, R177). -/
def Obligations.GetqCopiesChunk : Prop :=
  ∀ (s : State) (rd : BSel) (imm : Nat), s.Inv → imm < s.q.cnt →
    ∃ t, exec (.getq rd imm) s = .next t ∧ t.b[rd].len = s.q.ps
      ∧ (∀ i, t.bit rd i = (decide (i < s.q.ps) && s.qbit (imm * s.q.ps + i))) ∧ WritesOnly (.getq rd imm) s t

/-! ### Feistel engine: the pieces of a round -/

/-- SUBST: every nibble of the word through the one table, in place (R190, R191, R192). -/
def Obligations.SubstReplacesNibbles : Prop :=
  ∀ (s : State) (rd ra : BSel), s.b[ra].len = 32 →
    ∃ t, exec (.subst rd ra) s = .next t ∧ t.b[rd].len = 32
      ∧ (∀ w : Fin 64, t.bword rd w = if w.val = 0 then substWord s.tables (s.bword ra 0) else 0#32)
      ∧ WritesOnly (.subst rd ra) s t

/-- FRND: "val(F(h,k)) = rotl32(substw(val(h) XOR val(k)), 11)" (R199, R200). -/
def Obligations.FrndIsRoundFunction : Prop :=
  ∀ (s : State) (rd ra rb : BSel), s.b[ra].len = 32 → s.b[rb].len = 32 →
    ∃ t, exec (.frnd rd ra rb) s = .next t ∧ t.b[rd].len = 32
      ∧ (∀ w : Fin 64, t.bword rd w = if w.val = 0 then wordF s.tables (s.bword ra 0) (s.bword rb 0) else 0#32)
      ∧ WritesOnly (.frnd rd ra rb) s t

/-- FRND leaves exactly the state that its three steps, run as the commands XOR, SUBST and ROTL11, leave (R199). -/
def Obligations.FrndEqualsItsSteps : Prop :=
  ∀ (s : State) (rd ra rb : BSel), s.b[ra].len = 32 → s.b[rb].len = 32 →
    ∃ t1 t2 t, exec (.xor rd ra rb) s = .next t1 ∧ exec (.subst rd rd) t1 = .next t2
      ∧ exec (.rotl11 rd rd) t2 = .next t ∧ exec (.frnd rd ra rb) s = .next t

/-- KIDX: the table of R202, which is the formula of R201; RES alone changes (R205). -/
def Obligations.KidxFollowsSchedule : Prop :=
  ∀ (s : State) (i : Nat), i ≤ 31 →
    exec (.kidx i) s = .next { s with res := BitVec.ofNat 32 (scheduleTable.getD i 0) }
      ∧ scheduleTable.getD i 0 = (if i < 25 then i % 8 else (32 - (i - 1)) % 8)

/-! ### Feistel engine: one block -/

/-- ENCB: 32 encrypt rounds on the halves, with the one key part; Bd, LREG, RREG, RND (R220, R221, R222, R229). -/
def Obligations.EncbRunsRounds : Prop :=
  ∀ (s : State) (rd ra rb : BSel), s.b[ra].len = 64 → s.b[rb].len = 32 →
    ∃ t, exec (.encb rd ra rb) s = .next t
      ∧ (t.lreg, t.rreg) = wordEncrypt s.tables (s.bword rb 0) (s.bword ra 0, s.bword ra 1) ∧ t.rnd = 32
      ∧ t.b[rd].len = 64
      ∧ (∀ w : Fin 64, t.bword rd w = if w.val = 0 then t.lreg else if w.val = 1 then t.rreg else 0#32)
      ∧ WritesOnly (.encb rd ra rb) s t

/-- DECB: 32 decrypt rounds on the halves, with the one key part; Bd, LREG, RREG, RND (R220, R225, R226, R229). -/
def Obligations.DecbRunsRounds : Prop :=
  ∀ (s : State) (rd ra rb : BSel), s.b[ra].len = 64 → s.b[rb].len = 32 →
    ∃ t, exec (.decb rd ra rb) s = .next t
      ∧ (t.lreg, t.rreg) = wordDecrypt s.tables (s.bword rb 0) (s.bword ra 0, s.bword ra 1) ∧ t.rnd = 32
      ∧ t.b[rd].len = 64
      ∧ (∀ w : Fin 64, t.bword rd w = if w.val = 0 then t.lreg else if w.val = 1 then t.rreg else 0#32)
      ∧ WritesOnly (.decb rd ra rb) s t

/-- R227: for all 64-bit blocks and 32-bit key parts, decrypting undoes encrypting and encrypting undoes decrypting; and
so do the commands. SBOX is any table (R228). -/
def Obligations.BlockTransformsInvert : Prop :=
  (∀ (T : Tables) (b p : Bits), b.length = 64 → p.length = 32 →
      decryptBlock T (encryptBlock T b p) p = b ∧ encryptBlock T (decryptBlock T b p) p = b)
    ∧ ∀ (s : State) (rd ra rb : BSel), s.b[ra].len = 64 → s.b[rb].len = 32 → rd ≠ rb →
        (∃ t u, exec (.encb rd ra rb) s = .next t ∧ exec (.decb rd rd rb) t = .next u ∧ u.readB rd = s.readB ra)
        ∧ (∃ t u, exec (.decb rd ra rb) s = .next t ∧ exec (.encb rd rd rb) t = .next u ∧ u.readB rd = s.readB ra)

/-! ### Feistel engine: keys and whole messages -/

/-- LDKEY: K[k] is the codes of key symbols 4k to 4k+3, and KVALID is set (R241, R242, R31). -/
def Obligations.LdkeyLoadsKeyParts : Prop :=
  ∀ (s : State) (ra : TSel), s.TextMapped ra → s.t[ra].len = 32 →
    ∃ t, exec (.ldkey ra) s = .next t ∧ (∀ k : Fin 8, t.k[k] = s.textWord ra k.val) ∧ t.kvalid = true
      ∧ WritesOnly (.ldkey ra) s t

/-- ENC: block i of the zero-padded text bits through 32 encrypt rounds under key part keyIndex(i); all 64 data words of
Bd, Q, and every working register (R240, R241, R244, R245, R246, R32). -/
def Obligations.EncEncryptsMessage : Prop :=
  ∀ (s : State) (rd : BSel) (ra rb : TSel), s.Inv → s.TextMapped ra → s.TextMapped rb → s.t[rb].len = 32 →
    0 < s.t[ra].len →
    ∃ t, exec (.enc rd ra rb) s = .next t ∧
      let n := (s.t[ra].len + 7) / 8
      let c := fun i => wordEncrypt s.tables (s.textWord rb (scheduleTable.getD i 0))
        (s.textWord ra (2 * i), s.textWord ra (2 * i + 1))
      t.b[rd].len = 64 * n
        ∧ (∀ w : Fin 64, t.bword rd w = if w.val < 2 * n then
            (if w.val % 2 = 0 then (c (w.val / 2)).1 else (c (w.val / 2)).2) else 0#32)
        ∧ t.q.ps = 64 ∧ t.q.cnt = n ∧ (∀ w : Fin 64, t.qword w = t.bword rd w)
        ∧ (∀ k : Fin 8, t.k[k] = s.textWord rb k.val) ∧ t.kvalid = true
        ∧ t.nblk = n ∧ t.bidx = n - 1 ∧ (t.lreg, t.rreg) = c (n - 1) ∧ t.rnd = 32
        ∧ WritesOnly (.enc rd ra rb) s t

/-- DEC: block i of the zero-padded cipher bits through 32 decrypt rounds under key part keyIndex(i); the plain blocks in
Q, the text of their non-zero groups in Td, and every working register (R248, R249, R250, R32). -/
def Obligations.DecDecryptsMessage : Prop :=
  ∀ (s : State) (rd : TSel) (ra : BSel) (rb : TSel), s.Inv → s.TextMapped rb → s.t[rb].len = 32 →
    0 < s.b[ra].len →
    ∃ t, exec (.dec rd ra rb) s = .next t ∧
      let n := (s.b[ra].len + 63) / 64
      let p := fun i => wordDecrypt s.tables (s.textWord rb (scheduleTable.getD i 0))
        (s.bitsWord ra (2 * i), s.bitsWord ra (2 * i + 1))
      t.q.ps = 64 ∧ t.q.cnt = n
        ∧ (∀ w : Fin 64, t.qword w = if w.val < 2 * n then
            (if w.val % 2 = 0 then (p (w.val / 2)).1 else (p (w.val / 2)).2) else 0#32)
        ∧ t.readT rd = textOfBytes s.tables t.q.store (8 * n) ∧ (∀ i, t.t[rd].len ≤ i → t.sym rd i = 0#32)
        ∧ (∀ k : Fin 8, t.k[k] = s.textWord rb k.val) ∧ t.kvalid = true
        ∧ t.nblk = n ∧ t.bidx = 0 ∧ (t.lreg, t.rreg) = p 0 ∧ t.rnd = 32
        ∧ WritesOnly (.dec rd ra rb) s t

/-- ENC then DEC under the same key gives the text back with every NUL removed, whichever registers are used (R312, R318,
R251). -/
def Obligations.EncThenDecDropsNuls : Prop :=
  ∀ (s : State) (rd : BSel) (ra rb rt : TSel), s.Inv → s.TextMapped ra → s.TextMapped rb → s.t[rb].len = 32 →
    0 < s.t[ra].len →
    ∃ t u, exec (.enc rd ra rb) s = .next t ∧ exec (.dec rt rd rb) t = .next u
      ∧ u.readT rt = (s.readT ra).filter (fun x => x != 0#32)

/-- R251: the round trip, with each of its hypotheses, and why each is needed: an empty text faults, and symbols of code 0
are dropped on the way back. A text above 256 symbols fits no register (R240). -/
def Obligations.RoundTripRestoresText : Prop :=
  ∀ (T : Tables) (k : Text), k.length = 32 → (∀ x ∈ k, Mapped T x) →
    (∀ t : Text, 1 ≤ t.length → t.length ≤ 256 → (∀ x ∈ t, ∃ c, codeOf T x = .ok c ∧ c ≠ 0) →
      ∃ c, encrypt T t k = .ok c ∧ decrypt T c k = .ok t)
    ∧ encrypt T [] k = .error .emptyJoin
    ∧ (∀ t : Text, 1 ≤ t.length → t.length ≤ 256 → (∀ x ∈ t, Mapped T x) →
      ∃ c, encrypt T t k = .ok c ∧ decrypt T c k = .ok (t.filter (fun x => codeIn T x != 0)))

/-! ### The host port -/

/-- What a host read of each mapped address answers, and that it changes nothing (R61, R65, R38); what a read of an unmapped
address or of CMD does (R65, R279); and that a write to RES stores the word and nothing else (R66). -/
def Obligations.RegisterMapReads : Prop :=
  ∀ s : State,
    let reads := fun (a : Nat) (w : Word) =>
      hostAccess (.read (BitVec.ofNat 12 a)) s = .next { s with reply := some w }
    reads 0x001 (BitVec.ofNat 32 (s.fault.toNat + 2 * s.kvalid.toNat)) ∧ reads 0x002 (s.err.setWidth 32)
      ∧ reads 0x003 s.res ∧ reads 0x004 (BitVec.ofNat 32 s.rnd) ∧ reads 0x005 (BitVec.ofNat 32 s.bidx)
      ∧ reads 0x006 (BitVec.ofNat 32 s.nblk) ∧ reads 0x008 s.lreg ∧ reads 0x009 s.rreg
      ∧ reads 0x00A (BitVec.ofNat 32 s.q.ps) ∧ reads 0x00B (BitVec.ofNat 32 s.q.cnt)
      ∧ (∀ k : Fin 8, reads (0x010 + k.val) s.k[k])
      ∧ (∀ n : BSel, reads (0x020 + n.val) (BitVec.ofNat 32 s.b[n].len))
      ∧ (∀ n : TSel, reads (0x024 + n.val) (BitVec.ofNat 32 s.t[n].len))
      ∧ (∀ (n : BSel) (w : Fin 64), reads (0x100 + 0x40 * n.val + w.val) (s.bword n w))
      ∧ (∀ w : Fin 64, reads (0x200 + w.val) (s.qword w))
      ∧ (∀ (n : TSel) (i : Fin 256), reads (0x400 + 0x100 * n.val + i.val) (s.sym n i.val))
      ∧ (∀ a : Addr, Unmapped a ∨ a = 0x000#12 → hostAccess (.read a) s
          = .next { (if s.fault then s else s.faulted .hostAccess) with reply := some 0#32 })
      ∧ (∀ v : Word, s.fault = false → hostAccess (.write 0x003#12 v) s = .next { s with res := v })

/-- Packing (R62): bit 31 - j of data word w is stored bit 32w + j, in Bn and in Q; a 32-bit bitstring reads back as its
value; a host write to BnDATA[w] replaces exactly those 32 bits, whatever the length is, and not the length. -/
def Obligations.DataWordPacking : Prop :=
  ∀ s : State,
    (∀ (w : Fin 64) (j : Nat), j < 32 → (∀ n : BSel, (s.bword n w).getLsbD (31 - j) = s.bit n (32 * w.val + j))
        ∧ (s.qword w).getLsbD (31 - j) = s.qbit (32 * w.val + j))
      ∧ (∀ n : BSel, s.b[n].len = 32 → (s.bword n 0).toNat = val (s.readB n))
      ∧ (∀ (n : BSel) (w : Fin 64) (v : Word), s.fault = false →
          ∃ t, hostAccess (.write (BitVec.ofNat 12 (0x100 + 0x40 * n.val + w.val)) v) s = .next t
            ∧ (∀ j, j < 32 → t.bit n (32 * w.val + j) = v.getLsbD (31 - j))
            ∧ (∀ i, i / 32 ≠ w.val → t.bit n i = s.bit n i) ∧ t.b[n].len = s.b[n].len
            ∧ OnlyB n s t ∧ t = { s with b := t.b })

/-- Data word i of Tn is symbol i of its store; a host write replaces that symbol alone, whatever the length is, and
not the length; symbol 0 is the first of the text (R63). The word read is left in the model's own field (log 2). -/
def Obligations.SymbolWords : Prop :=
  ∀ (s : State) (n : TSel) (i : Fin 256),
    hostAccess (.read (BitVec.ofNat 12 (0x400 + 0x100 * n.val + i.val))) s = .next { s with reply := some (s.sym n i.val) }
      ∧ (∀ v : Word, s.fault = false →
          ∃ t, hostAccess (.write (BitVec.ofNat 12 (0x400 + 0x100 * n.val + i.val)) v) s = .next t
            ∧ t.sym n i.val = v ∧ (∀ j, j ≠ i.val → t.sym n j = s.sym n j) ∧ t.t[n].len = s.t[n].len
            ∧ OnlyT n s t ∧ t = { s with t := t.t })
      ∧ (0 < s.t[n].len → (s.readT n).head? = some (s.sym n 0))

/-- R64: a length write stores the length and no data, or faults when the whole 32-bit word is above the capacity. -/
def Obligations.LengthWrites : Prop :=
  ∀ (s : State) (v : Word), s.fault = false →
    (∀ n : BSel,
      (v.toNat ≤ 2048 → ∃ t, hostAccess (.write (BitVec.ofNat 12 (0x020 + n.val)) v) s = .next t
          ∧ t.b[n].len = v.toNat ∧ (∀ i, t.bit n i = s.bit n i) ∧ OnlyB n s t ∧ t = { s with b := t.b })
      ∧ (2048 < v.toNat → hostAccess (.write (BitVec.ofNat 12 (0x020 + n.val)) v) s = .next (s.faulted .hostAccess)))
    ∧ (∀ n : TSel,
      (v.toNat ≤ 256 → ∃ t, hostAccess (.write (BitVec.ofNat 12 (0x024 + n.val)) v) s = .next t
          ∧ t.t[n].len = v.toNat ∧ (∀ i, t.sym n i = s.sym n i) ∧ OnlyT n s t ∧ t = { s with t := t.t })
      ∧ (256 < v.toNat → hostAccess (.write (BitVec.ofNat 12 (0x024 + n.val)) v) s = .next (s.faulted .hostAccess)))

/-- HostAccess is raised by exactly the accesses of R69's list, never by a command; and a write to an unmapped or a
read-only address "writes nothing else" (R66): exactly ERR and FAULT change (R272). -/
def Obligations.HostAccessFaultExactly : Prop :=
  (∀ (s : State) (a : HostAccess), s.fault = false → s.err = 0#4 →
      ∃ t, hostAccess a s = .next t ∧ ((t.fault = true ∧ t.err = 8#4) ↔ hostAccessCause a))
    ∧ ∀ (s : State) (a : Addr) (v : Word), s.fault = false → Unmapped a ∨ ReadOnly a →
        hostAccess (.write a v) s = .next (s.faulted .hostAccess)

/-- The recipes of R78: after them Bn holds the bitstring, Tn the text, and no other register has changed. The recipe's
accesses stand in the model's queue (log 1), empty at the end; the field of the last read word is then none (log 2). -/
def Obligations.LoadRecipes : Prop :=
  ∀ s : State, s.fault = false →
    (∀ (n : BSel) (v : Bits), v.length ≤ 2048 → ∃ t, runAccesses (loadBits n v) s = .next t ∧ t.readB n = v
        ∧ OnlyB n s t ∧ t = { s with b := t.b, input := [], reply := none })
      ∧ (∀ (n : TSel) (v : Text), v.length ≤ 256 → ∃ t, runAccesses (loadText n v) s = .next t ∧ t.readT n = v
        ∧ OnlyT n s t ∧ t = { s with t := t.t, input := [], reply := none })

/-- The host macros of R102, from any state that is not faulted: ENCRYPT leaves the ciphertext in B0 and DECRYPT the text
in T0, with FAULT = 0 in the STATUS word read; or ERR names the failure, with FAULT = 1 in it. The accesses stand in the
model's queue (log 1), and the word read is in the model's own field (log 2). -/
def Obligations.HostMacrosCompute : Prop :=
  ∀ (s : State) (key : Text), s.fault = false → key.length ≤ 256 →
    (∀ text : Text, text.length ≤ 256 → ∃ t, runAccesses (encryptMacro text key) s = .next t ∧
        match encrypt s.tables text key with
        | .ok c => t.fault = false ∧ t.readB 0 = c ∧ t.reply = some 2#32
        | .error e => t.fault = true ∧ t.err = e.code ∧ t.reply = some (BitVec.ofNat 32 (1 + 2 * s.kvalid.toNat)))
      ∧ (∀ cipherBits : Bits, cipherBits.length ≤ 2048 → ∃ t, runAccesses (decryptMacro cipherBits key) s = .next t ∧
        match decrypt s.tables cipherBits key with
        | .ok x => t.fault = false ∧ t.readT 0 = x ∧ t.reply = some 2#32
        | .error e => t.fault = true ∧ t.err = e.code ∧ t.reply = some (BitVec.ofNat 32 (1 + 2 * s.kvalid.toNat)))

/-! ### The whole machine -/

/-- A command leaves every bit or text register that it changes in canonical form, zeros past the length (R23, R26). -/
def Obligations.CommandWritesAreCanonical : Prop :=
  ∀ (i : Instr) (s : State), s.Inv →
    ∃ t, exec i s = .next t
      ∧ (∀ n : BSel, t.b[n] ≠ s.b[n] → ∀ j, t.b[n].len ≤ j → t.bit n j = false)
      ∧ (∀ n : TSel, t.t[n] ≠ s.t[n] → ∀ j, t.t[n].len ≤ j → t.sym n j = 0#32)

/-- What a command does to contents, RES and status depends on contents, RES and status alone: no command reads a stored
bit or symbol past a length, nor K0..K7, KVALID, LREG, RREG, RND, BIDX or NBLK (R22, R25, R31, R32). When no check fails,
so that both runs complete (R281), the working registers that the command's row of R41 lists end equal too. -/
def Obligations.CommandsReadOnlyContents : Prop :=
  ∀ (i : Instr) (s s' : State), AgreeOnContents s s' →
    ∃ t t', exec i s = .next t ∧ exec i s' = .next t' ∧ AgreeOnContents t t'
      ∧ (NoneFailed (checks i s) → NoneFailed (checks i s') ∧ AgreeOnWorkWrites i t t')
end

