-- ==== Sys2Proof/Laws/Bits.lean ====
section
/-! SUPPORT. Laws of the bitstring notation (R8): values, fixed-width strings, chunks, exclusive-or, and the packing of
bitstrings into data stores (R23, R62). -/

namespace Sys2Proof.Machine

/-! ### val and bin -/

theorem val_foldl (s : Bits) (a : Nat) :
    s.foldl (fun a b => 2 * a + b.toNat) a = a * 2 ^ s.length + val s := by
  unfold val
  induction s generalizing a with
  | nil => simp
  | cons b s ih =>
    simp only [List.foldl_cons, List.length_cons]
    rw [ih, ih (2 * 0 + b.toNat), pow_succ]
    ring

@[simp] theorem val_nil : val [] = 0 := rfl

/-- The sum form of R8, unrolled at the first bit: s[0] has weight 2^(n-1). -/
theorem val_cons (b : Bool) (s : Bits) : val (b :: s) = b.toNat * 2 ^ s.length + val s := by
  have := val_foldl s b.toNat
  simpa [val] using this

theorem val_append (s t : Bits) : val (s ++ t) = val s * 2 ^ t.length + val t := by
  rw [val, List.foldl_append, val_foldl]; rfl

theorem val_lt (s : Bits) : val s < 2 ^ s.length := by
  induction s with
  | nil => simp
  | cons b s ih =>
    rw [val_cons, List.length_cons, pow_succ]
    cases b <;> simp <;> omega

theorem val_zeros (n : Nat) : val (zeros n) = 0 := by
  induction n with
  | zero => rfl
  | succ n ih => rw [zeros, List.replicate_succ, val_cons]; simpa [zeros] using ih

/-- Bit i of a bitstring is bit n-1-i of its value (R8). -/
theorem testBit_val (s : Bits) (i : Nat) :
    (val s).testBit i = (decide (i < s.length) && s.getD (s.length - 1 - i) false) := by
  induction s with
  | nil => simp
  | cons b s ih =>
    rw [val_cons, Nat.mul_comm, Nat.testBit_two_pow_mul_add _ (val_lt s), List.length_cons]
    by_cases h : i < s.length
    · have e : s.length + 1 - 1 - i = (s.length - 1 - i) + 1 := by omega
      rw [e, List.getD_cons_succ, ih]
      simp only [h, Nat.lt_succ_of_lt h, if_true, decide_true]
    · by_cases h2 : i = s.length
      · subst h2; cases b <;> simp
      · have h3 : ¬ i < s.length + 1 := by omega
        have h4 : b.toNat < 2 ^ (i - s.length) :=
          lt_of_lt_of_le (show b.toNat < 2 ^ 1 by cases b <;> decide) (Nat.pow_le_pow_right (by omega) (by omega))
        simp only [h, h3, if_false, decide_false, Bool.false_and, Nat.testBit_lt_two_pow h4]

@[simp] theorem length_bin (n v : Nat) : (bin n v).length = n := by simp [bin]

@[simp] theorem length_zeros (n : Nat) : (zeros n).length = n := by simp [zeros]

theorem getD_bin (n v i : Nat) (h : i < n) : (bin n v).getD i false = v.testBit (n - 1 - i) := by
  simp [bin, List.getD_eq_getElem?_getD, h]

/-- val(bin_n(v)) = v for v < 2^n (R8, R261). -/
theorem val_bin (n v : Nat) (h : v < 2 ^ n) : val (bin n v) = v := by
  apply Nat.eq_of_testBit_eq
  intro i
  rw [testBit_val, length_bin]
  by_cases hi : i < n
  · rw [getD_bin n v _ (by omega)]
    have : n - 1 - (n - 1 - i) = i := by omega
    simp [hi, this]
  · have : v.testBit i = false :=
      Nat.testBit_lt_two_pow (lt_of_lt_of_le h (Nat.pow_le_pow_right (by omega) (by omega)))
    simp [hi, this]

/-- bin_n(val(s)) = s for |s| = n (R8, R261). -/
theorem bin_val (s : Bits) : bin s.length (val s) = s := by
  apply List.ext_getElem (by simp)
  intro i h1 h2
  have := getD_bin s.length (val s) i h2
  rw [testBit_val, List.getD_eq_getElem?_getD, List.getElem?_eq_getElem h1] at this
  have e : s.length - 1 - (s.length - 1 - i) = i := by omega
  have l : s.length - 1 - i < s.length := by omega
  simpa [e, l, List.getD_eq_getElem?_getD, List.getElem?_eq_getElem h2] using this

theorem val_injective {s t : Bits} (hl : s.length = t.length) (h : val s = val t) : s = t := by
  rw [← bin_val s, ← bin_val t, hl, h]

theorem toNat_bitsToWord {s : Bits} (h : s.length ≤ 32) : (bitsToWord s).toNat = val s := by
  have := val_lt s
  have h2 : 2 ^ s.length ≤ 2 ^ 32 := Nat.pow_le_pow_right (by omega) h
  simp only [bitsToWord, BitVec.toNat_ofNat]
  exact Nat.mod_eq_of_lt (by omega)

/-! ### chunks -/

@[simp] theorem length_chunks (n p : Nat) (s : Bits) : (chunks n p s).length = n := by
  induction n generalizing s with
  | zero => rfl
  | succ n ih => simp [chunks, ih]

/-- Chunk j is s[j*p .. (j+1)*p). -/
theorem getElem?_chunks (n p : Nat) (s : Bits) (j : Nat) (h : j < n) :
    (chunks n p s)[j]? = some ((s.drop (j * p)).take p) := by
  induction n generalizing s j with
  | zero => omega
  | succ n ih =>
    cases j with
    | zero => simp [chunks]
    | succ j =>
      simp only [chunks, List.getElem?_cons_succ]
      rw [ih _ _ (by omega), List.drop_drop]
      congr 3
      ring

theorem getD_chunks (n p : Nat) (s : Bits) (j : Nat) (h : j < n) (d : Bits) :
    (chunks n p s).getD j d = (s.drop (j * p)).take p := by
  rw [List.getD_eq_getElem?_getD, getElem?_chunks n p s j h]; rfl

theorem length_of_mem_chunks {n p : Nat} {s c : Bits} (h : n * p ≤ s.length) (hc : c ∈ chunks n p s) : c.length = p := by
  induction n generalizing s with
  | zero => simp [chunks] at hc
  | succ n ih =>
    rw [Nat.succ_mul] at h
    simp only [chunks, List.mem_cons] at hc
    rcases hc with rfl | hc
    · simp; omega
    · exact ih (by simp; omega) hc

theorem flatten_chunks (n p : Nat) (s : Bits) : (chunks n p s).flatten = s.take (n * p) := by
  induction n generalizing s with
  | zero => simp [chunks]
  | succ n ih =>
    simp only [chunks, List.flatten_cons, ih]
    rw [Nat.succ_mul, Nat.add_comm, List.take_add]

/-- Cutting a concatenation of chunks of p bits gives the chunks back. -/
theorem chunks_flatten (q : BitSeq) (p : Nat) (h : ∀ c ∈ q, c.length = p) (r : Bits) :
    chunks q.length p (q.flatten ++ r) = q := by
  induction q with
  | nil => rfl
  | cons c q ih =>
    have hc : c.length = p := h c (by simp)
    simp only [List.length_cons, chunks, List.flatten_cons, List.append_assoc]
    rw [List.take_append_of_le_length (by omega), List.drop_append_of_le_length (by omega), ← hc, List.take_length,
      List.drop_length, List.nil_append, hc, ih (fun c hc => h c (by simp [hc]))]

theorem length_flatten_of_forall {q : BitSeq} {p : Nat} (h : ∀ c ∈ q, c.length = p) :
    q.flatten.length = q.length * p := by
  induction q with
  | nil => simp
  | cons c q ih =>
    rw [List.flatten_cons, List.length_append, ih (fun c hc => h c (by simp [hc])), h c (by simp), List.length_cons,
      Nat.succ_mul, Nat.add_comm]

/-! ### ceil -/

theorem ceilDiv_mul_ge (a b : Nat) (h : 1 ≤ b) : a ≤ ceilDiv a b * b := by
  unfold ceilDiv
  have h1 := Nat.div_add_mod (a + b - 1) b
  have h2 := Nat.mod_lt (a + b - 1) (show 0 < b by omega)
  rw [Nat.mul_comm] at h1
  omega

theorem ceilDiv_mul_lt (a b : Nat) (h : 1 ≤ b) : ceilDiv a b * b < a + b := by
  unfold ceilDiv
  have := Nat.div_mul_le_self (a + b - 1) b
  omega

theorem ceilDiv_of_dvd (n p : Nat) (h : 1 ≤ p) : ceilDiv (n * p) p = n := by
  unfold ceilDiv
  rw [show n * p + p - 1 = (p - 1) + p * n by rw [Nat.mul_comm]; omega, Nat.add_mul_div_left _ _ (by omega),
    Nat.div_eq_of_lt (by omega), Nat.zero_add]

/-! ### exclusive-or (R149, R150) -/

@[simp] theorem length_xorBits (a b : Bits) : (xorBits a b).length = min a.length b.length := by simp [xorBits]

/-- "XOR involution" (R150). -/
theorem xorBits_involution (a b : Bits) (h : a.length = b.length) : xorBits (xorBits a b) b = a := by
  induction a generalizing b with
  | nil => simp [xorBits]
  | cons x a ih =>
    cases b with
    | nil => simp at h
    | cons y b =>
      simp only [xorBits, List.zipWith_cons_cons] at ih ⊢
      rw [ih b (by simpa using h)]
      simp

theorem xorBits_comm (a b : Bits) : xorBits a b = xorBits b a := by
  simp only [xorBits]
  rw [List.zipWith_comm]
  simp [Bool.xor_comm]

theorem getD_xorBits (a b : Bits) (h : a.length = b.length) (i : Nat) :
    (xorBits a b).getD i false = (a.getD i false ^^ b.getD i false) := by
  by_cases hi : i < a.length
  · have : i < b.length := by omega
    simp [xorBits, List.getD_eq_getElem?_getD, hi, this]
  · have : ¬ i < b.length := by omega
    have hx : ¬ i < (xorBits a b).length := by rw [length_xorBits]; omega
    simp only [List.getD_eq_getElem?_getD, List.getElem?_eq_none_iff.mpr (Nat.le_of_not_lt hi),
      List.getElem?_eq_none_iff.mpr (Nat.le_of_not_lt this), List.getElem?_eq_none_iff.mpr (Nat.le_of_not_lt hx)]
    rfl

/-- For strings of one length, val(xor(a, b)) is the exclusive-or of the values (R150). -/
theorem val_xorBits (a b : Bits) (h : a.length = b.length) : val (xorBits a b) = val a ^^^ val b := by
  apply Nat.eq_of_testBit_eq
  intro i
  rw [Nat.testBit_xor, testBit_val, testBit_val, testBit_val, length_xorBits, getD_xorBits a b h, ← h, Nat.min_self]
  cases decide (i < a.length) <;> simp

/-! ### data stores -/

@[simp] theorem length_storeSlice (d : Store) (i n : Nat) : (storeSlice d i n).length = n := by simp [storeSlice]

theorem getD_storeSlice (d : Store) (i n j : Nat) (h : j < n) : (storeSlice d i n).getD j false = d.getMsbD (i + j) := by
  simp [storeSlice, List.getD_eq_getElem?_getD, h]

theorem getElem_storeSlice (d : Store) (i n j : Nat) (h : j < (storeSlice d i n).length) :
    (storeSlice d i n)[j] = d.getMsbD (i + j) := by simp [storeSlice]

theorem drop_take_storeSlice (d : Store) (i n a m : Nat) (h : a + m ≤ n) :
    ((storeSlice d i n).drop a).take m = storeSlice d (i + a) m := by
  apply List.ext_getElem
  · simp; omega
  · intro j h1 h2
    simp [storeSlice, Nat.add_assoc]

theorem storeSlice_append (d : Store) (i n m : Nat) :
    storeSlice d i n ++ storeSlice d (i + n) m = storeSlice d i (n + m) := by
  apply List.ext_getElem
  · simp
  · intro j h1 h2
    by_cases hj : j < n
    · rw [List.getElem_append_left (by simpa using hj)]; simp [storeSlice]
    · rw [List.getElem_append_right (by simpa using hj)]
      simp only [getElem_storeSlice, length_storeSlice]
      congr 1; omega

/-- Position i of the store that holds s is s[i], and 0 past the string (R23). -/
theorem getMsbD_packBits (s : Bits) (h : s.length ≤ 2048) (i : Nat) :
    (packBits s).getMsbD i = s.getD i false := by
  unfold packBits
  rw [BitVec.getMsbD]
  by_cases hi : i < 2048
  · rw [BitVec.getLsbD_ofNat, Nat.mul_comm, Nat.testBit_two_pow_mul, testBit_val]
    by_cases h2 : i < s.length
    · have a1 : 2048 - s.length ≤ 2048 - 1 - i := by omega
      have a2 : 2048 - 1 - i - (2048 - s.length) < s.length := by omega
      have a3 : s.length - 1 - (2048 - 1 - i - (2048 - s.length)) = i := by omega
      have a4 : 2048 - 1 - i < 2048 := by omega
      simp only [hi, decide_true, Bool.true_and, a1, a2, a3, a4]
    · have a1 : ¬ 2048 - s.length ≤ 2048 - 1 - i := by omega
      have a4 : s.getD i false = false := by
        rw [List.getD_eq_getElem?_getD, List.getElem?_eq_none_iff.mpr (by omega)]; rfl
      simp only [a1, a4, decide_false, Bool.false_and, Bool.and_false]
  · have a4 : s.getD i false = false := by
      rw [List.getD_eq_getElem?_getD, List.getElem?_eq_none_iff.mpr (by omega)]; rfl
    simp only [hi, a4, decide_false, Bool.false_and]

/-- Reading back what was packed (R22, R23). -/
theorem storeSlice_packBits (s : Bits) (h : s.length ≤ 2048) : storeSlice (packBits s) 0 s.length = s := by
  apply List.ext_getElem (by simp)
  intro i h1 h2
  rw [getElem_storeSlice, Nat.zero_add, getMsbD_packBits s h, List.getD_eq_getElem?_getD,
    List.getElem?_eq_getElem h2]; rfl

end Sys2Proof.Machine
end

