-- ==== Sys2Proof/Laws/State.lean ====
section
/-! SUPPORT. One lemma per field of State per update, each true by rfl, so that no later proof unfolds a record update. -/

namespace Sys2Proof.Machine

/-! ### writeB -/

@[simp] theorem State.writeB_b (s : State) (n : BSel) (v : Bits) : (s.writeB n v).b = s.b.set n.val ⟨v.length, packBits v⟩ n.isLt := rfl
@[simp] theorem State.writeB_t (s : State) (n : BSel) (v : Bits) : (s.writeB n v).t = s.t := rfl
@[simp] theorem State.writeB_q (s : State) (n : BSel) (v : Bits) : (s.writeB n v).q = s.q := rfl
@[simp] theorem State.writeB_k (s : State) (n : BSel) (v : Bits) : (s.writeB n v).k = s.k := rfl
@[simp] theorem State.writeB_kvalid (s : State) (n : BSel) (v : Bits) : (s.writeB n v).kvalid = s.kvalid := rfl
@[simp] theorem State.writeB_lreg (s : State) (n : BSel) (v : Bits) : (s.writeB n v).lreg = s.lreg := rfl
@[simp] theorem State.writeB_rreg (s : State) (n : BSel) (v : Bits) : (s.writeB n v).rreg = s.rreg := rfl
@[simp] theorem State.writeB_rnd (s : State) (n : BSel) (v : Bits) : (s.writeB n v).rnd = s.rnd := rfl
@[simp] theorem State.writeB_bidx (s : State) (n : BSel) (v : Bits) : (s.writeB n v).bidx = s.bidx := rfl
@[simp] theorem State.writeB_nblk (s : State) (n : BSel) (v : Bits) : (s.writeB n v).nblk = s.nblk := rfl
@[simp] theorem State.writeB_res (s : State) (n : BSel) (v : Bits) : (s.writeB n v).res = s.res := rfl
@[simp] theorem State.writeB_err (s : State) (n : BSel) (v : Bits) : (s.writeB n v).err = s.err := rfl
@[simp] theorem State.writeB_fault (s : State) (n : BSel) (v : Bits) : (s.writeB n v).fault = s.fault := rfl
@[simp] theorem State.writeB_tables (s : State) (n : BSel) (v : Bits) : (s.writeB n v).tables = s.tables := rfl
@[simp] theorem State.writeB_input (s : State) (n : BSel) (v : Bits) : (s.writeB n v).input = s.input := rfl
@[simp] theorem State.writeB_reply (s : State) (n : BSel) (v : Bits) : (s.writeB n v).reply = s.reply := rfl

/-! ### writeT -/

@[simp] theorem State.writeT_b (s : State) (n : TSel) (v : Text) : (s.writeT n v).b = s.b := rfl
@[simp] theorem State.writeT_t (s : State) (n : TSel) (v : Text) : (s.writeT n v).t = s.t.set n.val ⟨v.length, packText v⟩ n.isLt := rfl
@[simp] theorem State.writeT_q (s : State) (n : TSel) (v : Text) : (s.writeT n v).q = s.q := rfl
@[simp] theorem State.writeT_k (s : State) (n : TSel) (v : Text) : (s.writeT n v).k = s.k := rfl
@[simp] theorem State.writeT_kvalid (s : State) (n : TSel) (v : Text) : (s.writeT n v).kvalid = s.kvalid := rfl
@[simp] theorem State.writeT_lreg (s : State) (n : TSel) (v : Text) : (s.writeT n v).lreg = s.lreg := rfl
@[simp] theorem State.writeT_rreg (s : State) (n : TSel) (v : Text) : (s.writeT n v).rreg = s.rreg := rfl
@[simp] theorem State.writeT_rnd (s : State) (n : TSel) (v : Text) : (s.writeT n v).rnd = s.rnd := rfl
@[simp] theorem State.writeT_bidx (s : State) (n : TSel) (v : Text) : (s.writeT n v).bidx = s.bidx := rfl
@[simp] theorem State.writeT_nblk (s : State) (n : TSel) (v : Text) : (s.writeT n v).nblk = s.nblk := rfl
@[simp] theorem State.writeT_res (s : State) (n : TSel) (v : Text) : (s.writeT n v).res = s.res := rfl
@[simp] theorem State.writeT_err (s : State) (n : TSel) (v : Text) : (s.writeT n v).err = s.err := rfl
@[simp] theorem State.writeT_fault (s : State) (n : TSel) (v : Text) : (s.writeT n v).fault = s.fault := rfl
@[simp] theorem State.writeT_tables (s : State) (n : TSel) (v : Text) : (s.writeT n v).tables = s.tables := rfl
@[simp] theorem State.writeT_input (s : State) (n : TSel) (v : Text) : (s.writeT n v).input = s.input := rfl
@[simp] theorem State.writeT_reply (s : State) (n : TSel) (v : Text) : (s.writeT n v).reply = s.reply := rfl

/-! ### writeQ -/

@[simp] theorem State.writeQ_b (s : State) (p : Nat) (v : BitSeq) : (s.writeQ p v).b = s.b := rfl
@[simp] theorem State.writeQ_t (s : State) (p : Nat) (v : BitSeq) : (s.writeQ p v).t = s.t := rfl
@[simp] theorem State.writeQ_q (s : State) (p : Nat) (v : BitSeq) : (s.writeQ p v).q = ⟨p, v.length, packBits v.flatten⟩ := rfl
@[simp] theorem State.writeQ_k (s : State) (p : Nat) (v : BitSeq) : (s.writeQ p v).k = s.k := rfl
@[simp] theorem State.writeQ_kvalid (s : State) (p : Nat) (v : BitSeq) : (s.writeQ p v).kvalid = s.kvalid := rfl
@[simp] theorem State.writeQ_lreg (s : State) (p : Nat) (v : BitSeq) : (s.writeQ p v).lreg = s.lreg := rfl
@[simp] theorem State.writeQ_rreg (s : State) (p : Nat) (v : BitSeq) : (s.writeQ p v).rreg = s.rreg := rfl
@[simp] theorem State.writeQ_rnd (s : State) (p : Nat) (v : BitSeq) : (s.writeQ p v).rnd = s.rnd := rfl
@[simp] theorem State.writeQ_bidx (s : State) (p : Nat) (v : BitSeq) : (s.writeQ p v).bidx = s.bidx := rfl
@[simp] theorem State.writeQ_nblk (s : State) (p : Nat) (v : BitSeq) : (s.writeQ p v).nblk = s.nblk := rfl
@[simp] theorem State.writeQ_res (s : State) (p : Nat) (v : BitSeq) : (s.writeQ p v).res = s.res := rfl
@[simp] theorem State.writeQ_err (s : State) (p : Nat) (v : BitSeq) : (s.writeQ p v).err = s.err := rfl
@[simp] theorem State.writeQ_fault (s : State) (p : Nat) (v : BitSeq) : (s.writeQ p v).fault = s.fault := rfl
@[simp] theorem State.writeQ_tables (s : State) (p : Nat) (v : BitSeq) : (s.writeQ p v).tables = s.tables := rfl
@[simp] theorem State.writeQ_input (s : State) (p : Nat) (v : BitSeq) : (s.writeQ p v).input = s.input := rfl
@[simp] theorem State.writeQ_reply (s : State) (p : Nat) (v : BitSeq) : (s.writeQ p v).reply = s.reply := rfl

/-! ### writeRes -/

@[simp] theorem State.writeRes_b (s : State) (v : Word) : (s.writeRes v).b = s.b := rfl
@[simp] theorem State.writeRes_t (s : State) (v : Word) : (s.writeRes v).t = s.t := rfl
@[simp] theorem State.writeRes_q (s : State) (v : Word) : (s.writeRes v).q = s.q := rfl
@[simp] theorem State.writeRes_k (s : State) (v : Word) : (s.writeRes v).k = s.k := rfl
@[simp] theorem State.writeRes_kvalid (s : State) (v : Word) : (s.writeRes v).kvalid = s.kvalid := rfl
@[simp] theorem State.writeRes_lreg (s : State) (v : Word) : (s.writeRes v).lreg = s.lreg := rfl
@[simp] theorem State.writeRes_rreg (s : State) (v : Word) : (s.writeRes v).rreg = s.rreg := rfl
@[simp] theorem State.writeRes_rnd (s : State) (v : Word) : (s.writeRes v).rnd = s.rnd := rfl
@[simp] theorem State.writeRes_bidx (s : State) (v : Word) : (s.writeRes v).bidx = s.bidx := rfl
@[simp] theorem State.writeRes_nblk (s : State) (v : Word) : (s.writeRes v).nblk = s.nblk := rfl
@[simp] theorem State.writeRes_res (s : State) (v : Word) : (s.writeRes v).res = v := rfl
@[simp] theorem State.writeRes_err (s : State) (v : Word) : (s.writeRes v).err = s.err := rfl
@[simp] theorem State.writeRes_fault (s : State) (v : Word) : (s.writeRes v).fault = s.fault := rfl
@[simp] theorem State.writeRes_tables (s : State) (v : Word) : (s.writeRes v).tables = s.tables := rfl
@[simp] theorem State.writeRes_input (s : State) (v : Word) : (s.writeRes v).input = s.input := rfl
@[simp] theorem State.writeRes_reply (s : State) (v : Word) : (s.writeRes v).reply = s.reply := rfl

/-! ### writeKeys -/

@[simp] theorem State.writeKeys_b (s : State) (v : BitSeq) : (s.writeKeys v).b = s.b := rfl
@[simp] theorem State.writeKeys_t (s : State) (v : BitSeq) : (s.writeKeys v).t = s.t := rfl
@[simp] theorem State.writeKeys_q (s : State) (v : BitSeq) : (s.writeKeys v).q = s.q := rfl
@[simp] theorem State.writeKeys_kvalid (s : State) (v : BitSeq) : (s.writeKeys v).kvalid = true := rfl
@[simp] theorem State.writeKeys_lreg (s : State) (v : BitSeq) : (s.writeKeys v).lreg = s.lreg := rfl
@[simp] theorem State.writeKeys_rreg (s : State) (v : BitSeq) : (s.writeKeys v).rreg = s.rreg := rfl
@[simp] theorem State.writeKeys_rnd (s : State) (v : BitSeq) : (s.writeKeys v).rnd = s.rnd := rfl
@[simp] theorem State.writeKeys_bidx (s : State) (v : BitSeq) : (s.writeKeys v).bidx = s.bidx := rfl
@[simp] theorem State.writeKeys_nblk (s : State) (v : BitSeq) : (s.writeKeys v).nblk = s.nblk := rfl
@[simp] theorem State.writeKeys_res (s : State) (v : BitSeq) : (s.writeKeys v).res = s.res := rfl
@[simp] theorem State.writeKeys_err (s : State) (v : BitSeq) : (s.writeKeys v).err = s.err := rfl
@[simp] theorem State.writeKeys_fault (s : State) (v : BitSeq) : (s.writeKeys v).fault = s.fault := rfl
@[simp] theorem State.writeKeys_tables (s : State) (v : BitSeq) : (s.writeKeys v).tables = s.tables := rfl
@[simp] theorem State.writeKeys_input (s : State) (v : BitSeq) : (s.writeKeys v).input = s.input := rfl
@[simp] theorem State.writeKeys_reply (s : State) (v : BitSeq) : (s.writeKeys v).reply = s.reply := rfl

/-! ### writeHalves -/

@[simp] theorem State.writeHalves_b (s : State) (v : Bits) : (s.writeHalves v).b = s.b := rfl
@[simp] theorem State.writeHalves_t (s : State) (v : Bits) : (s.writeHalves v).t = s.t := rfl
@[simp] theorem State.writeHalves_q (s : State) (v : Bits) : (s.writeHalves v).q = s.q := rfl
@[simp] theorem State.writeHalves_k (s : State) (v : Bits) : (s.writeHalves v).k = s.k := rfl
@[simp] theorem State.writeHalves_kvalid (s : State) (v : Bits) : (s.writeHalves v).kvalid = s.kvalid := rfl
@[simp] theorem State.writeHalves_lreg (s : State) (v : Bits) : (s.writeHalves v).lreg = bitsToWord (v.take 32) := rfl
@[simp] theorem State.writeHalves_rreg (s : State) (v : Bits) : (s.writeHalves v).rreg = bitsToWord (v.drop 32) := rfl
@[simp] theorem State.writeHalves_rnd (s : State) (v : Bits) : (s.writeHalves v).rnd = 32 := rfl
@[simp] theorem State.writeHalves_bidx (s : State) (v : Bits) : (s.writeHalves v).bidx = s.bidx := rfl
@[simp] theorem State.writeHalves_nblk (s : State) (v : Bits) : (s.writeHalves v).nblk = s.nblk := rfl
@[simp] theorem State.writeHalves_res (s : State) (v : Bits) : (s.writeHalves v).res = s.res := rfl
@[simp] theorem State.writeHalves_err (s : State) (v : Bits) : (s.writeHalves v).err = s.err := rfl
@[simp] theorem State.writeHalves_fault (s : State) (v : Bits) : (s.writeHalves v).fault = s.fault := rfl
@[simp] theorem State.writeHalves_tables (s : State) (v : Bits) : (s.writeHalves v).tables = s.tables := rfl
@[simp] theorem State.writeHalves_input (s : State) (v : Bits) : (s.writeHalves v).input = s.input := rfl
@[simp] theorem State.writeHalves_reply (s : State) (v : Bits) : (s.writeHalves v).reply = s.reply := rfl

/-! ### writeBlock -/

@[simp] theorem State.writeBlock_b (s : State) (n : BSel) (v : Bits) : (s.writeBlock n v).b = s.b.set n.val ⟨v.length, packBits v⟩ n.isLt := rfl
@[simp] theorem State.writeBlock_t (s : State) (n : BSel) (v : Bits) : (s.writeBlock n v).t = s.t := rfl
@[simp] theorem State.writeBlock_q (s : State) (n : BSel) (v : Bits) : (s.writeBlock n v).q = s.q := rfl
@[simp] theorem State.writeBlock_k (s : State) (n : BSel) (v : Bits) : (s.writeBlock n v).k = s.k := rfl
@[simp] theorem State.writeBlock_kvalid (s : State) (n : BSel) (v : Bits) : (s.writeBlock n v).kvalid = s.kvalid := rfl
@[simp] theorem State.writeBlock_lreg (s : State) (n : BSel) (v : Bits) : (s.writeBlock n v).lreg = bitsToWord (v.take 32) := rfl
@[simp] theorem State.writeBlock_rreg (s : State) (n : BSel) (v : Bits) : (s.writeBlock n v).rreg = bitsToWord (v.drop 32) := rfl
@[simp] theorem State.writeBlock_rnd (s : State) (n : BSel) (v : Bits) : (s.writeBlock n v).rnd = 32 := rfl
@[simp] theorem State.writeBlock_bidx (s : State) (n : BSel) (v : Bits) : (s.writeBlock n v).bidx = s.bidx := rfl
@[simp] theorem State.writeBlock_nblk (s : State) (n : BSel) (v : Bits) : (s.writeBlock n v).nblk = s.nblk := rfl
@[simp] theorem State.writeBlock_res (s : State) (n : BSel) (v : Bits) : (s.writeBlock n v).res = s.res := rfl
@[simp] theorem State.writeBlock_err (s : State) (n : BSel) (v : Bits) : (s.writeBlock n v).err = s.err := rfl
@[simp] theorem State.writeBlock_fault (s : State) (n : BSel) (v : Bits) : (s.writeBlock n v).fault = s.fault := rfl
@[simp] theorem State.writeBlock_tables (s : State) (n : BSel) (v : Bits) : (s.writeBlock n v).tables = s.tables := rfl
@[simp] theorem State.writeBlock_input (s : State) (n : BSel) (v : Bits) : (s.writeBlock n v).input = s.input := rfl
@[simp] theorem State.writeBlock_reply (s : State) (n : BSel) (v : Bits) : (s.writeBlock n v).reply = s.reply := rfl

/-! ### writeMessage -/

@[simp] theorem State.writeMessage_b (s : State) (m : Message) (j : Nat) : (s.writeMessage m j).b = s.b := rfl
@[simp] theorem State.writeMessage_t (s : State) (m : Message) (j : Nat) : (s.writeMessage m j).t = s.t := rfl
@[simp] theorem State.writeMessage_q (s : State) (m : Message) (j : Nat) : (s.writeMessage m j).q = ⟨64, m.blocks.length, packBits m.blocks.flatten⟩ := rfl
@[simp] theorem State.writeMessage_k (s : State) (m : Message) (j : Nat) : (s.writeMessage m j).k = (s.writeKeys m.keys).k := rfl
@[simp] theorem State.writeMessage_kvalid (s : State) (m : Message) (j : Nat) : (s.writeMessage m j).kvalid = true := rfl
@[simp] theorem State.writeMessage_lreg (s : State) (m : Message) (j : Nat) : (s.writeMessage m j).lreg = bitsToWord ((m.blocks.getD j []).take 32) := rfl
@[simp] theorem State.writeMessage_rreg (s : State) (m : Message) (j : Nat) : (s.writeMessage m j).rreg = bitsToWord ((m.blocks.getD j []).drop 32) := rfl
@[simp] theorem State.writeMessage_rnd (s : State) (m : Message) (j : Nat) : (s.writeMessage m j).rnd = 32 := rfl
@[simp] theorem State.writeMessage_bidx (s : State) (m : Message) (j : Nat) : (s.writeMessage m j).bidx = j := rfl
@[simp] theorem State.writeMessage_nblk (s : State) (m : Message) (j : Nat) : (s.writeMessage m j).nblk = m.blocks.length := rfl
@[simp] theorem State.writeMessage_res (s : State) (m : Message) (j : Nat) : (s.writeMessage m j).res = s.res := rfl
@[simp] theorem State.writeMessage_err (s : State) (m : Message) (j : Nat) : (s.writeMessage m j).err = s.err := rfl
@[simp] theorem State.writeMessage_fault (s : State) (m : Message) (j : Nat) : (s.writeMessage m j).fault = s.fault := rfl
@[simp] theorem State.writeMessage_tables (s : State) (m : Message) (j : Nat) : (s.writeMessage m j).tables = s.tables := rfl
@[simp] theorem State.writeMessage_input (s : State) (m : Message) (j : Nat) : (s.writeMessage m j).input = s.input := rfl
@[simp] theorem State.writeMessage_reply (s : State) (m : Message) (j : Nat) : (s.writeMessage m j).reply = s.reply := rfl

/-! ### takeFault -/

@[simp] theorem takeFault_b (c : FaultCode) (s : State) : (takeFault c s).b = s.b := by
  unfold takeFault; split <;> rfl
@[simp] theorem takeFault_t (c : FaultCode) (s : State) : (takeFault c s).t = s.t := by
  unfold takeFault; split <;> rfl
@[simp] theorem takeFault_q (c : FaultCode) (s : State) : (takeFault c s).q = s.q := by
  unfold takeFault; split <;> rfl
@[simp] theorem takeFault_k (c : FaultCode) (s : State) : (takeFault c s).k = s.k := by
  unfold takeFault; split <;> rfl
@[simp] theorem takeFault_kvalid (c : FaultCode) (s : State) : (takeFault c s).kvalid = s.kvalid := by
  unfold takeFault; split <;> rfl
@[simp] theorem takeFault_lreg (c : FaultCode) (s : State) : (takeFault c s).lreg = s.lreg := by
  unfold takeFault; split <;> rfl
@[simp] theorem takeFault_rreg (c : FaultCode) (s : State) : (takeFault c s).rreg = s.rreg := by
  unfold takeFault; split <;> rfl
@[simp] theorem takeFault_rnd (c : FaultCode) (s : State) : (takeFault c s).rnd = s.rnd := by
  unfold takeFault; split <;> rfl
@[simp] theorem takeFault_bidx (c : FaultCode) (s : State) : (takeFault c s).bidx = s.bidx := by
  unfold takeFault; split <;> rfl
@[simp] theorem takeFault_nblk (c : FaultCode) (s : State) : (takeFault c s).nblk = s.nblk := by
  unfold takeFault; split <;> rfl
@[simp] theorem takeFault_res (c : FaultCode) (s : State) : (takeFault c s).res = s.res := by
  unfold takeFault; split <;> rfl
@[simp] theorem takeFault_tables (c : FaultCode) (s : State) : (takeFault c s).tables = s.tables := by
  unfold takeFault; split <;> rfl
@[simp] theorem takeFault_input (c : FaultCode) (s : State) : (takeFault c s).input = s.input := by
  unfold takeFault; split <;> rfl
@[simp] theorem takeFault_reply (c : FaultCode) (s : State) : (takeFault c s).reply = s.reply := by
  unfold takeFault; split <;> rfl

/-- FAULT is 1 after fault entry (R272). -/
@[simp] theorem takeFault_fault (c : FaultCode) (s : State) : (takeFault c s).fault = true := by
  unfold takeFault; split <;> simp_all

/-- Fault entry while FAULT = 0: exactly ERR and FAULT change (R272). -/
theorem takeFault_of_not_fault (c : FaultCode) (s : State) (h : s.fault = false) :
    takeFault c s = { s with err := c.code, fault := true } := by simp [takeFault, h]

/-- No fault is taken while FAULT = 1 (R272). -/
theorem takeFault_of_fault (c : FaultCode) (s : State) (h : s.fault = true) : takeFault c s = s := by
  simp [takeFault, h]

/-! ### resetEvent -/

@[simp] theorem resetEvent_b (s : State) : (resetEvent s).b = State.reset.b := rfl
@[simp] theorem resetEvent_t (s : State) : (resetEvent s).t = State.reset.t := rfl
@[simp] theorem resetEvent_q (s : State) : (resetEvent s).q = State.reset.q := rfl
@[simp] theorem resetEvent_k (s : State) : (resetEvent s).k = State.reset.k := rfl
@[simp] theorem resetEvent_kvalid (s : State) : (resetEvent s).kvalid = State.reset.kvalid := rfl
@[simp] theorem resetEvent_lreg (s : State) : (resetEvent s).lreg = State.reset.lreg := rfl
@[simp] theorem resetEvent_rreg (s : State) : (resetEvent s).rreg = State.reset.rreg := rfl
@[simp] theorem resetEvent_rnd (s : State) : (resetEvent s).rnd = State.reset.rnd := rfl
@[simp] theorem resetEvent_bidx (s : State) : (resetEvent s).bidx = State.reset.bidx := rfl
@[simp] theorem resetEvent_nblk (s : State) : (resetEvent s).nblk = State.reset.nblk := rfl
@[simp] theorem resetEvent_res (s : State) : (resetEvent s).res = State.reset.res := rfl
@[simp] theorem resetEvent_err (s : State) : (resetEvent s).err = State.reset.err := rfl
@[simp] theorem resetEvent_fault (s : State) : (resetEvent s).fault = State.reset.fault := rfl
@[simp] theorem resetEvent_tables (s : State) : (resetEvent s).tables = s.tables := rfl
@[simp] theorem resetEvent_input (s : State) : (resetEvent s).input = s.input := rfl
@[simp] theorem resetEvent_reply (s : State) : (resetEvent s).reply = State.reset.reply := rfl

/-! ### host data writes -/

@[simp] theorem writeBData_t (n : BSel) (w : Fin 64) (v : Word) (s : State) : (writeBData n w v s).t = s.t := rfl
@[simp] theorem writeBData_q (n : BSel) (w : Fin 64) (v : Word) (s : State) : (writeBData n w v s).q = s.q := rfl
@[simp] theorem writeBData_k (n : BSel) (w : Fin 64) (v : Word) (s : State) : (writeBData n w v s).k = s.k := rfl
@[simp] theorem writeBData_kvalid (n : BSel) (w : Fin 64) (v : Word) (s : State) : (writeBData n w v s).kvalid = s.kvalid := rfl
@[simp] theorem writeBData_lreg (n : BSel) (w : Fin 64) (v : Word) (s : State) : (writeBData n w v s).lreg = s.lreg := rfl
@[simp] theorem writeBData_rreg (n : BSel) (w : Fin 64) (v : Word) (s : State) : (writeBData n w v s).rreg = s.rreg := rfl
@[simp] theorem writeBData_rnd (n : BSel) (w : Fin 64) (v : Word) (s : State) : (writeBData n w v s).rnd = s.rnd := rfl
@[simp] theorem writeBData_bidx (n : BSel) (w : Fin 64) (v : Word) (s : State) : (writeBData n w v s).bidx = s.bidx := rfl
@[simp] theorem writeBData_nblk (n : BSel) (w : Fin 64) (v : Word) (s : State) : (writeBData n w v s).nblk = s.nblk := rfl
@[simp] theorem writeBData_res (n : BSel) (w : Fin 64) (v : Word) (s : State) : (writeBData n w v s).res = s.res := rfl
@[simp] theorem writeBData_err (n : BSel) (w : Fin 64) (v : Word) (s : State) : (writeBData n w v s).err = s.err := rfl
@[simp] theorem writeBData_fault (n : BSel) (w : Fin 64) (v : Word) (s : State) : (writeBData n w v s).fault = s.fault := rfl
@[simp] theorem writeBData_tables (n : BSel) (w : Fin 64) (v : Word) (s : State) : (writeBData n w v s).tables = s.tables := rfl
@[simp] theorem writeBData_input (n : BSel) (w : Fin 64) (v : Word) (s : State) : (writeBData n w v s).input = s.input := rfl
@[simp] theorem writeBData_reply (n : BSel) (w : Fin 64) (v : Word) (s : State) : (writeBData n w v s).reply = s.reply := rfl
@[simp] theorem writeTData_b (n : TSel) (i : Fin 256) (v : Word) (s : State) : (writeTData n i v s).b = s.b := rfl
@[simp] theorem writeTData_q (n : TSel) (i : Fin 256) (v : Word) (s : State) : (writeTData n i v s).q = s.q := rfl
@[simp] theorem writeTData_k (n : TSel) (i : Fin 256) (v : Word) (s : State) : (writeTData n i v s).k = s.k := rfl
@[simp] theorem writeTData_kvalid (n : TSel) (i : Fin 256) (v : Word) (s : State) : (writeTData n i v s).kvalid = s.kvalid := rfl
@[simp] theorem writeTData_lreg (n : TSel) (i : Fin 256) (v : Word) (s : State) : (writeTData n i v s).lreg = s.lreg := rfl
@[simp] theorem writeTData_rreg (n : TSel) (i : Fin 256) (v : Word) (s : State) : (writeTData n i v s).rreg = s.rreg := rfl
@[simp] theorem writeTData_rnd (n : TSel) (i : Fin 256) (v : Word) (s : State) : (writeTData n i v s).rnd = s.rnd := rfl
@[simp] theorem writeTData_bidx (n : TSel) (i : Fin 256) (v : Word) (s : State) : (writeTData n i v s).bidx = s.bidx := rfl
@[simp] theorem writeTData_nblk (n : TSel) (i : Fin 256) (v : Word) (s : State) : (writeTData n i v s).nblk = s.nblk := rfl
@[simp] theorem writeTData_res (n : TSel) (i : Fin 256) (v : Word) (s : State) : (writeTData n i v s).res = s.res := rfl
@[simp] theorem writeTData_err (n : TSel) (i : Fin 256) (v : Word) (s : State) : (writeTData n i v s).err = s.err := rfl
@[simp] theorem writeTData_fault (n : TSel) (i : Fin 256) (v : Word) (s : State) : (writeTData n i v s).fault = s.fault := rfl
@[simp] theorem writeTData_tables (n : TSel) (i : Fin 256) (v : Word) (s : State) : (writeTData n i v s).tables = s.tables := rfl
@[simp] theorem writeTData_input (n : TSel) (i : Fin 256) (v : Word) (s : State) : (writeTData n i v s).input = s.input := rfl
@[simp] theorem writeTData_reply (n : TSel) (i : Fin 256) (v : Word) (s : State) : (writeTData n i v s).reply = s.reply := rfl

end Sys2Proof.Machine
end

