-- ==== Sys2Proof/Laws/Words.lean ====
section
/-! SUPPORT. Laws of the host words: a data word is 32 stored bits, first bit most significant (R62), and a 32-bit
bitstring is held as the word of its value (R8). -/

namespace Sys2Proof.Machine

/-- Word bit 31 - j of data word w is the stored bit at position 32w + j (R62). -/
theorem getMsbD_dataWord (d : Store) (w : Fin 64) (j : Nat) (h : j < 32) :
    (dataWord d w).getMsbD j = d.getMsbD (32 * w.val + j) := by
  have hw := w.isLt
  unfold dataWord
  simp only [BitVec.getMsbD, BitVec.getLsbD_extractLsb']
  have e : 2016 - 32 * w.val + (32 - 1 - j) = 2048 - 1 - (32 * w.val + j) := by omega
  have a : 32 - 1 - j < 32 := by omega
  have b : 32 * w.val + j < 2048 := by omega
  simp only [h, a, b, e, decide_true, Bool.true_and]

theorem getLsbD_lowMask (k : Nat) : (0xFFFFFFFF#32).getLsbD k = decide (k < 32) := by
  by_cases h : k < 32
  · simp only [h, decide_true]
    revert k; decide
  · simp only [h, decide_false]
    exact BitVec.getLsbD_of_ge _ _ (by omega)

/-- A host write to data word w replaces exactly the bits at positions 32w to 32w+31 (R62). -/
theorem getMsbD_setDataWord (d : Store) (w : Fin 64) (v : Word) (i : Nat) (h : i < 2048) :
    (setDataWord d w v).getMsbD i = if i / 32 = w.val then v.getMsbD (i % 32) else d.getMsbD i := by
  have hw := w.isLt
  unfold setDataWord
  simp only [BitVec.getMsbD, BitVec.getLsbD_or, BitVec.getLsbD_and, BitVec.getLsbD_not, BitVec.getLsbD_shiftLeft,
    BitVec.getLsbD_setWidth, getLsbD_lowMask, h, decide_true, Bool.true_and]
  have hm := Nat.div_add_mod i 32
  have hlt := Nat.mod_lt i (show 0 < 32 by omega)
  have a1 : 2048 - 1 - i < 2048 := by omega
  have a2 : 2048 - 1 - i - (2016 - 32 * w.val) < 2048 := by omega
  by_cases hi : i / 32 = w.val
  · have b1 : ¬ 2048 - 1 - i < 2016 - 32 * w.val := by omega
    have b2 : 2048 - 1 - i - (2016 - 32 * w.val) < 32 := by omega
    have b3 : 2048 - 1 - i - (2016 - 32 * w.val) = 32 - 1 - i % 32 := by omega
    simp only [hi, b1, a1, decide_true, decide_false, Bool.true_and, Bool.not_false, if_true, b3, hlt]
    have b4 : 32 - 1 - i % 32 < 2048 := by omega
    have b5 : 32 - 1 - i % 32 < 32 := by omega
    simp only [b4, b5, decide_true, Bool.true_and, Bool.not_true, Bool.and_false, Bool.false_or]
  · by_cases b1 : 2048 - 1 - i < 2016 - 32 * w.val
    · simp only [hi, b1, a1, decide_true, Bool.not_true, Bool.false_and, Bool.and_false, Bool.not_false,
        Bool.and_true, if_false, Bool.or_false]
    · have b2 : ¬ 2048 - 1 - i - (2016 - 32 * w.val) < 32 := by omega
      have b3 : v.getLsbD (2048 - 1 - i - (2016 - 32 * w.val)) = false := BitVec.getLsbD_of_ge _ _ (by omega)
      simp only [hi, b1, a1, a2, b2, b3, decide_true, decide_false, Bool.and_false, Bool.not_false,
        Bool.and_true, if_false, Bool.or_false]

theorem getMsbD_bitsToWord (s : Bits) (h : s.length = 32) (j : Nat) (hj : j < 32) :
    (bitsToWord s).getMsbD j = s.getD j false := by
  have a : 32 - 1 - j < 32 := by omega
  have e : 32 - 1 - (32 - 1 - j) = j := by omega
  simp only [bitsToWord, BitVec.getMsbD, BitVec.getLsbD_ofNat, testBit_val, h, hj, a, e, decide_true, Bool.true_and]

theorem word_ext {a b : Word} (h : ∀ j, j < 32 → a.getMsbD j = b.getMsbD j) : a = b := by
  apply BitVec.eq_of_getMsbD_eq
  intro i hi
  exact h i hi

/-- A data word as the value of its 32 stored bits (R62: it "reads back as the word val(s)"). -/
theorem dataWord_eq (d : Store) (w : Fin 64) : dataWord d w = bitsToWord (storeSlice d (32 * w.val) 32) := by
  apply word_ext
  intro j hj
  rw [getMsbD_dataWord d w j hj, getMsbD_bitsToWord _ (by simp) j hj, getD_storeSlice _ _ _ _ hj]

theorem dataWord_setDataWord_same (d : Store) (w : Fin 64) (v : Word) : dataWord (setDataWord d w v) w = v := by
  apply word_ext
  intro j hj
  have hw := w.isLt
  rw [getMsbD_dataWord _ w j hj, getMsbD_setDataWord _ _ _ _ (by omega), if_pos (by omega)]
  congr 1; omega

theorem dataWord_setDataWord_ne (d : Store) (w w' : Fin 64) (v : Word) (h : w' ≠ w) :
    dataWord (setDataWord d w v) w' = dataWord d w' := by
  apply word_ext
  intro j hj
  have hw := w'.isLt
  have : w'.val ≠ w.val := fun e => h (Fin.ext e)
  rw [getMsbD_dataWord _ w' j hj, getMsbD_setDataWord _ _ _ _ (by omega), if_neg (by omega),
    getMsbD_dataWord _ w' j hj]

theorem bitsToWord_injective {s t : Bits} (hs : s.length = 32) (ht : t.length = 32)
    (h : bitsToWord s = bitsToWord t) : s = t := by
  apply val_injective (by omega)
  rw [← toNat_bitsToWord (s := s) (by omega), ← toNat_bitsToWord (s := t) (by omega), h]

/-- Exclusive-or of 32-bit strings is exclusive-or of words (R150). -/
theorem bitsToWord_xorBits (a b : Bits) (ha : a.length = 32) (hb : b.length = 32) :
    bitsToWord (xorBits a b) = bitsToWord a ^^^ bitsToWord b := by
  apply BitVec.eq_of_toNat_eq
  rw [BitVec.toNat_xor, toNat_bitsToWord (by rw [length_xorBits]; omega), toNat_bitsToWord (by omega),
    toNat_bitsToWord (by omega), val_xorBits a b (by omega)]

end Sys2Proof.Machine
end

