-- ==== Sys2Proof/Laws/Operands.lean ====
section
/-! SUPPORT. Laws of the operand forms: what reading a register gives after writing it (R22, R23, R25, R26, R29, R30). -/

namespace Sys2Proof.Machine

/-! ### Bit registers -/

@[simp] theorem length_readB (s : State) (n : BSel) : (s.readB n).length = s.b[n].len := by simp [State.readB]

theorem getD_readB (s : State) (n : BSel) (i : Nat) (h : i < s.b[n].len) :
    (s.readB n).getD i false = s.b[n].store.getMsbD i := by
  rw [State.readB, getD_storeSlice _ _ _ _ h, Nat.zero_add]

@[simp] theorem getElem_set_same {α : Type} {m : Nat} (v : Vector α m) (n : Fin m) (x : α) :
    (v.set n.val x n.isLt)[n] = x := by simp

theorem getElem_set_ne {α : Type} {m : Nat} (v : Vector α m) (n k : Fin m) (x : α) (h : k ≠ n) :
    (v.set n.val x n.isLt)[k] = v[k] := by
  simp only [Fin.getElem_fin]
  exact Vector.getElem_set_ne _ _ (fun e => h (Fin.ext e.symm))

theorem b_writeB_same (s : State) (n : BSel) (v : Bits) : (s.writeB n v).b[n] = ⟨v.length, packBits v⟩ := by simp

theorem b_writeB_ne (s : State) (n k : BSel) (v : Bits) (h : k ≠ n) : (s.writeB n v).b[k] = s.b[k] := by
  simp only [State.writeB_b]; exact getElem_set_ne _ _ _ _ h

theorem readB_writeB_same (s : State) (n : BSel) (v : Bits) (h : v.length ≤ 2048) : (s.writeB n v).readB n = v := by
  rw [State.readB, b_writeB_same]; exact storeSlice_packBits v h

theorem readB_writeB_ne (s : State) (n k : BSel) (v : Bits) (h : k ≠ n) : (s.writeB n v).readB k = s.readB k := by
  rw [State.readB, b_writeB_ne s n k v h]; rfl

/-- A register's bits read as one bitstring are its first 32 stored bits when the length is 32 (R62). -/
theorem bitsToWord_readB (s : State) (n : BSel) (h : s.b[n].len = 32) :
    bitsToWord (s.readB n) = dataWord s.b[n].store 0 := by
  rw [dataWord_eq, State.readB, h]; rfl

theorem dataWord_packBits_zero (v : Bits) (h : v.length = 32) : dataWord (packBits v) 0 = bitsToWord v := by
  rw [dataWord_eq]
  have := storeSlice_packBits v (by omega)
  rw [h] at this
  simpa using congrArg bitsToWord this

/-- Data word w of the store that holds v is the value of bits 32w .. 32w+32 of v (R62). -/
theorem dataWord_packBits (v : Bits) (w : Fin 64) (h : 32 * w.val + 32 ≤ v.length) (hv : v.length ≤ 2048) :
    dataWord (packBits v) w = bitsToWord ((v.drop (32 * w.val)).take 32) := by
  rw [dataWord_eq]
  congr 1
  apply List.ext_getElem
  · simp; omega
  · intro j h1 h2
    simp only [length_storeSlice] at h1
    rw [getElem_storeSlice, getMsbD_packBits v hv, List.getD_eq_getElem?_getD,
      List.getElem?_eq_getElem (by omega)]
    simp

/-! ### Text registers -/

@[simp] theorem length_textSlice (d : Vector Sym 256) (n : Nat) : (textSlice d n).length = n := by simp [textSlice]

@[simp] theorem length_readT (s : State) (n : TSel) : (s.readT n).length = s.t[n].len := by simp [State.readT]

theorem getElem_textSlice (d : Vector Sym 256) (n i : Nat) (h : i < (textSlice d n).length) :
    (textSlice d n)[i] = d.toList.getD i 0#32 := by simp only [textSlice, List.getElem_map, List.getElem_range]

theorem toList_packText (v : Text) (h : v.length ≤ 256) (i : Nat) : (packText v).toList.getD i 0#32 = v.getD i 0#32 := by
  have e : (packText v).toList = (v ++ List.replicate 256 0#32).take 256 := rfl
  rw [e, List.getD_eq_getElem?_getD, List.getD_eq_getElem?_getD, List.getElem?_take]
  by_cases hi : i < v.length
  · rw [if_pos (by omega), List.getElem?_append_left hi]
  · rw [List.getElem?_eq_none_iff.mpr (show v.length ≤ i by omega)]
    split
    · rw [List.getElem?_append_right (by omega), List.getElem?_replicate]
      split <;> rfl
    · rfl

theorem textSlice_packText (v : Text) (h : v.length ≤ 256) : textSlice (packText v) v.length = v := by
  apply List.ext_getElem (by simp)
  intro i h1 h2
  rw [getElem_textSlice, toList_packText v h, List.getD_eq_getElem?_getD, List.getElem?_eq_getElem h2]; rfl

theorem t_writeT_same (s : State) (n : TSel) (v : Text) : (s.writeT n v).t[n] = ⟨v.length, packText v⟩ := by simp

theorem t_writeT_ne (s : State) (n k : TSel) (v : Text) (h : k ≠ n) : (s.writeT n v).t[k] = s.t[k] := by
  simp only [State.writeT_t]; exact getElem_set_ne _ _ _ _ h

theorem readT_writeT_same (s : State) (n : TSel) (v : Text) (h : v.length ≤ 256) : (s.writeT n v).readT n = v := by
  rw [State.readT, t_writeT_same]; exact textSlice_packText v h

theorem readT_writeT_ne (s : State) (n k : TSel) (v : Text) (h : k ≠ n) : (s.writeT n v).readT k = s.readT k := by
  rw [State.readT, t_writeT_ne s n k v h]; rfl

/-! ### The sequence register -/

@[simp] theorem length_readQ (s : State) : s.readQ.length = s.q.cnt := by simp [State.readQ]

/-- Chunk j is `Q.bit[j*Q.ps .. (j+1)*Q.ps)` (R29). -/
theorem getElem?_readQ (s : State) (j : Nat) (h : j < s.q.cnt) :
    s.readQ[j]? = some (storeSlice s.q.store (j * s.q.ps) s.q.ps) := by
  rw [State.readQ, getElem?_chunks _ _ _ _ h, drop_take_storeSlice, Nat.zero_add]
  calc j * s.q.ps + s.q.ps = (j + 1) * s.q.ps := by ring
    _ ≤ s.q.cnt * s.q.ps := Nat.mul_le_mul_right _ h

theorem length_of_mem_readQ {s : State} {c : Bits} (h : c ∈ s.readQ) : c.length = s.q.ps :=
  length_of_mem_chunks (by simp) h

/-- The chunks of Q in order are its first cnt * ps stored bits (R29). -/
theorem flatten_readQ (s : State) : s.readQ.flatten = storeSlice s.q.store 0 (s.q.cnt * s.q.ps) := by
  rw [State.readQ, flatten_chunks]
  exact List.take_of_length_le (by simp)

/-- Reading back the sequence written to Q (R29, R30). -/
theorem readQ_writeQ (s : State) (p : Nat) (q : BitSeq) (h : ∀ c ∈ q, c.length = p) (hq : q.length * p ≤ 2048) :
    (s.writeQ p q).readQ = q := by
  have hl := length_flatten_of_forall h
  have e : storeSlice (packBits q.flatten) 0 (q.length * p) = q.flatten := by
    rw [← hl]; exact storeSlice_packBits _ (by omega)
  simp only [State.readQ, State.writeQ_q, e]
  have := chunks_flatten q p h []
  simpa using this

end Sys2Proof.Machine
end

