-- ==== Sys2Proof/Laws/Codepage.lean ====
section
/-! SUPPORT. Laws of the Codepage (R33, R120, R121, R125): the two lookups are searches of the table of 191 pairs, and
they undo each other on it. -/

namespace Sys2Proof.Machine

/-! ### What R6 says of CP_EXT -/

theorem cpExt_length (X : CpExt) : X.pairs.length = 64 := by
  have := X.ok; simp only [CpExt.admissible, Bool.and_eq_true, beq_iff_eq] at this; exact this.1.1.1.1

theorem cpExt_code_range (X : CpExt) {p : Nat × Sym} (h : p ∈ X.pairs) : 128 ≤ p.1 ∧ p.1 ≤ 241 := by
  have := X.ok
  simp only [CpExt.admissible, Bool.and_eq_true, List.all_eq_true, decide_eq_true_eq] at this
  exact this.1.1.1.2 p h

theorem cpExt_codes_nodup (X : CpExt) : (X.pairs.map Prod.fst).Nodup := by
  have := X.ok
  simp only [CpExt.admissible, Bool.and_eq_true, decide_eq_true_eq] at this; exact this.1.1.2

theorem cpExt_syms_nodup (X : CpExt) : (X.pairs.map Prod.snd).Nodup := by
  have := X.ok
  simp only [CpExt.admissible, Bool.and_eq_true, decide_eq_true_eq] at this; exact this.1.2

theorem cpExt_sym_range (X : CpExt) {p : Nat × Sym} (h : p ∈ X.pairs) : 126 < p.2.toNat := by
  have := X.ok
  simp only [CpExt.admissible, Bool.and_eq_true, List.all_eq_true, decide_eq_true_eq] at this
  exact this.2 p h

/-- A search by a key that no two entries share finds the entry. -/
theorem find_of_nodup {α β : Type} [DecidableEq β] (f : α → β) (l : List α) (h : (l.map f).Nodup) {a : α} (ha : a ∈ l) :
    l.find? (fun x => f x == f a) = some a := by
  induction l with
  | nil => simp at ha
  | cons b l ih =>
    simp only [List.map_cons, List.nodup_cons] at h
    rcases List.mem_cons.mp ha with rfl | ha
    · simp
    · have hne : f b ≠ f a := fun e => h.1 (e ▸ List.mem_map_of_mem ha)
      rw [List.find?_cons_of_neg (by simpa using hne)]
      exact ih h.2 ha

/-! ### Membership in CP -/

theorem mem_codepage (T : Tables) (c : Nat) (sym : Sym) :
    (c, sym) ∈ codepage T ↔ (c ≤ 126 ∧ sym = BitVec.ofNat 32 c) ∨ (c, sym) ∈ T.cpExt.pairs := by
  simp only [codepage, List.mem_append, List.mem_map, List.mem_range, Prod.mk.injEq]
  constructor
  · rintro (⟨a, ha, rfl, rfl⟩ | h)
    · exact .inl ⟨by omega, rfl⟩
    · exact .inr h
  · rintro (⟨h, rfl⟩ | h)
    · exact .inl ⟨c, by omega, rfl, rfl⟩
    · exact .inr h

/-- CP has exactly 191 pairs (R33). -/
theorem length_codepage (T : Tables) : (codepage T).length = 191 := by
  simp [codepage, cpExt_length]

theorem codepage_code_le {T : Tables} {c : Nat} {sym : Sym} (h : (c, sym) ∈ codepage T) : c ≤ 241 := by
  rcases (mem_codepage T c sym).mp h with ⟨h, -⟩ | h
  · omega
  · exact (cpExt_code_range _ h).2

/-- A code of CP that is 0 is NUL's (R33, C2). -/
theorem codepage_ascii {T : Tables} {c : Nat} {sym : Sym} (h : (c, sym) ∈ codepage T) (hc : c ≤ 126) :
    sym = BitVec.ofNat 32 c := by
  rcases (mem_codepage T c sym).mp h with ⟨-, h⟩ | h
  · exact h
  · have := (cpExt_code_range _ h).1
    simp at this; omega

/-! ### codeOf (R120) -/

/-- The lookup finds exactly the pairs of CP (R120). -/
theorem codeOf_eq_ok_iff (T : Tables) (sym : Sym) (c : Nat) : codeOf T sym = .ok c ↔ (c, sym) ∈ codepage T := by
  rw [mem_codepage]
  unfold codeOf
  by_cases h : sym.toNat ≤ 126
  · rw [if_pos h]
    constructor
    · intro e
      injection e with e
      exact .inl ⟨by omega, by rw [← e]; simp⟩
    · rintro (⟨h1, rfl⟩ | h1)
      · congr 1
        rw [BitVec.toNat_ofNat]; omega
      · have := cpExt_sym_range _ h1
        simp at this; omega
  · rw [if_neg h]
    constructor
    · intro e
      cases hf : T.cpExt.pairs.find? (fun p => p.2 == sym) with
      | none => rw [hf] at e; simp at e
      | some p =>
        rw [hf] at e
        injection e with e
        have h1 := List.find?_some hf
        have h2 := List.mem_of_find?_eq_some hf
        simp only [beq_iff_eq] at h1
        right
        rw [← e, ← h1]; exact h2
    · rintro (⟨h1, rfl⟩ | h1)
      · exfalso; apply h; rw [BitVec.toNat_ofNat]; omega
      · have := find_of_nodup Prod.snd _ (cpExt_syms_nodup T.cpExt) h1
        rw [this]

/-- The lookup's only failure is UnknownSymbol (R120). -/
theorem codeOf_error {T : Tables} {sym : Sym} {e : FaultCode} (h : codeOf T sym = .error e) : e = .unknownSymbol := by
  unfold codeOf at h
  split at h
  · simp at h
  · split at h
    · simp at h
    · injection h with h; exact h.symm

theorem codeOf_eq_error_iff (T : Tables) (sym : Sym) :
    codeOf T sym = .error .unknownSymbol ↔ ∀ c, (c, sym) ∉ codepage T := by
  constructor
  · intro h c hc
    rw [(codeOf_eq_ok_iff T sym c).mpr hc] at h; simp at h
  · intro h
    cases hc : codeOf T sym with
    | ok c => exact absurd ((codeOf_eq_ok_iff T sym c).mp hc) (h c)
    | error e => rw [codeOf_error hc]

theorem codeOf_lt {T : Tables} {sym : Sym} {c : Nat} (h : codeOf T sym = .ok c) : c < 2 ^ 8 := by
  have := codepage_code_le ((codeOf_eq_ok_iff T sym c).mp h); omega

/-! ### symbolOf (R121) -/

theorem symbolOf_of_mem {T : Tables} {c : Nat} {sym : Sym} (h : (c, sym) ∈ codepage T) : symbolOf T c = sym := by
  unfold symbolOf
  rcases (mem_codepage T c sym).mp h with ⟨h1, rfl⟩ | h1
  · rw [if_pos h1]
  · have hr := cpExt_code_range _ h1
    simp only at hr
    rw [if_neg (by omega), find_of_nodup Prod.fst _ (cpExt_codes_nodup T.cpExt) h1]

theorem symbolOf_of_not_mem {T : Tables} {c : Nat} (h : ∀ sym, (c, sym) ∉ codepage T) : symbolOf T c = T.sentinel := by
  unfold symbolOf
  by_cases h1 : c ≤ 126
  · exact absurd ((mem_codepage T c _).mpr (.inl ⟨h1, rfl⟩)) (h _)
  · rw [if_neg h1]
    cases hf : T.cpExt.pairs.find? (fun p => p.1 == c) with
    | none => rfl
    | some p =>
      have h2 := List.find?_some hf
      simp only [beq_iff_eq] at h2
      exact absurd ((mem_codepage T c p.2).mpr (.inr (h2 ▸ List.mem_of_find?_eq_some hf))) (h _)

/-- `symbolOf(codeOf(sym)) = sym` (R125 (a)). -/
theorem symbolOf_codeOf {T : Tables} {sym : Sym} {c : Nat} (h : codeOf T sym = .ok c) : symbolOf T c = sym :=
  symbolOf_of_mem ((codeOf_eq_ok_iff T sym c).mp h)

/-- `codeOf(symbolOf(c)) = c` for a code c of CP (R125 (b)). -/
theorem codeOf_symbolOf {T : Tables} {c : Nat} {sym : Sym} (h : (c, sym) ∈ codepage T) :
    codeOf T (symbolOf T c) = .ok c := by
  rw [symbolOf_of_mem h]; exact (codeOf_eq_ok_iff T sym c).mpr h

/-- A code c with no pair in CP comes back as 48, the code of SENTINEL, "which differs from c" (R125 (c)). -/
theorem codeOf_symbolOf_unmapped {T : Tables} (hT : T.sentinel = 0x30#32) {c : Nat} (h : ∀ sym, (c, sym) ∉ codepage T) :
    codeOf T (symbolOf T c) = .ok 48 ∧ c ≠ 48 := by
  have h48 : (48, 0x30#32) ∈ codepage T := (mem_codepage T 48 _).mpr (.inl ⟨by omega, rfl⟩)
  rw [symbolOf_of_not_mem h, hT]
  exact ⟨(codeOf_eq_ok_iff T _ _).mpr h48, fun e => h _ (e ▸ h48)⟩

/-- The symbols on which `codeOf` succeeds are those of CP's 191 pairs (R125 (d); `length_codepage`,
`codepage_syms_nodup`). -/
theorem codeOf_ok_iff_mem (T : Tables) (sym : Sym) : (∃ c, codeOf T sym = .ok c) ↔ sym ∈ (codepage T).map Prod.snd := by
  simp only [codeOf_eq_ok_iff, List.mem_map, Prod.exists, exists_eq_right]

/-! ### CP is a bidirectional mapping (R33) -/

theorem codepage_codes_nodup (T : Tables) : ((codepage T).map Prod.fst).Nodup := by
  simp only [codepage, List.map_append, List.map_map]
  rw [List.nodup_append]
  refine ⟨?_, cpExt_codes_nodup _, ?_⟩
  · have : (Prod.fst ∘ fun c => (c, BitVec.ofNat 32 c)) = id := rfl
    rw [this, List.map_id]; exact List.nodup_range
  · intro a ha b hb e
    subst e
    simp only [List.mem_map, List.mem_range, Function.comp] at ha hb
    obtain ⟨x, hx, rfl⟩ := ha
    obtain ⟨p, hp, e⟩ := hb
    have := (cpExt_code_range _ hp).1
    omega

theorem codepage_syms_nodup (T : Tables) : ((codepage T).map Prod.snd).Nodup := by
  simp only [codepage, List.map_append, List.map_map]
  rw [List.nodup_append]
  refine ⟨?_, cpExt_syms_nodup _, ?_⟩
  · apply List.Nodup.map_on _ List.nodup_range
    intro x hx y hy e
    simp only [List.mem_range, Function.comp] at hx hy e
    have := congrArg BitVec.toNat e
    simp only [BitVec.toNat_ofNat] at this
    omega
  · intro a ha b hb e
    subst e
    simp only [List.mem_map, List.mem_range, Function.comp] at ha hb
    obtain ⟨x, hx, rfl⟩ := ha
    obtain ⟨p, hp, e⟩ := hb
    have := cpExt_sym_range _ hp
    rw [e, BitVec.toNat_ofNat] at this
    omega

end Sys2Proof.Machine
end

