-- ==== Sys2Proof/Laws/Codec.lean ====
section
/-! SUPPORT. Laws of the Bit Codec (R140, R141, R143, R146, R155): what textToBits, bitsToText and rotl11 can do. -/

namespace Sys2Proof.Machine

/-! ### textToBits -/

theorem textToBits_cons_eq_ok {T : Tables} {x : Sym} {xs : Text} {v : Bits} :
    textToBits T (x :: xs) = .ok v ↔ ∃ c w, codeOf T x = .ok c ∧ textToBits T xs = .ok w ∧ v = bin 8 c ++ w := by
  simp only [textToBits]
  cases hc : codeOf T x with
  | error e => simp
  | ok c =>
    cases hw : textToBits T xs with
    | error e => simp
    | ok w =>
      simp only [Except.ok.injEq]
      constructor
      · rintro rfl; exact ⟨c, w, rfl, rfl, rfl⟩
      · rintro ⟨_, _, rfl, rfl, rfl⟩; rfl

/-- |textToBits(t)| = 8 * |t| (R141 (a)). -/
theorem length_textToBits {T : Tables} {t : Text} {v : Bits} (h : textToBits T t = .ok v) : v.length = 8 * t.length := by
  induction t generalizing v with
  | nil => simp only [textToBits, Except.ok.injEq] at h; subst h; rfl
  | cons x xs ih =>
    obtain ⟨c, w, -, hw, rfl⟩ := textToBits_cons_eq_ok.mp h
    rw [List.length_append, length_bin, ih hw, List.length_cons]; ring

/-- textToBits succeeds exactly on texts of mapped symbols (R140). -/
theorem textToBits_ok_iff (T : Tables) (t : Text) :
    (∃ v, textToBits T t = .ok v) ↔ ∀ x ∈ t, ∃ c, codeOf T x = .ok c := by
  induction t with
  | nil => simp [textToBits]
  | cons x xs ih =>
    constructor
    · rintro ⟨v, hv⟩ y hy
      obtain ⟨c, w, hc, hw, -⟩ := textToBits_cons_eq_ok.mp hv
      rcases List.mem_cons.mp hy with rfl | hy
      · exact ⟨c, hc⟩
      · exact ih.mp ⟨w, hw⟩ y hy
    · intro h
      obtain ⟨c, hc⟩ := h x (by simp)
      obtain ⟨w, hw⟩ := ih.mpr (fun y hy => h y (by simp [hy]))
      exact ⟨_, textToBits_cons_eq_ok.mpr ⟨c, w, hc, hw, rfl⟩⟩

/-- Its only failure is UnknownSymbol (R140). -/
theorem textToBits_error {T : Tables} {t : Text} {e : FaultCode} (h : textToBits T t = .error e) :
    e = .unknownSymbol := by
  induction t with
  | nil => simp [textToBits] at h
  | cons x xs ih =>
    simp only [textToBits] at h
    cases hc : codeOf T x with
    | error e' => rw [hc] at h; injection h with h; rw [← h]; exact codeOf_error hc
    | ok c =>
      rw [hc] at h
      cases hw : textToBits T xs with
      | error e' => rw [hw] at h; simp only [Except.error.injEq] at h; subst h; exact ih hw
      | ok w => rw [hw] at h; simp at h

theorem textToBits_cases (T : Tables) (t : Text) :
    (∃ v, textToBits T t = .ok v) ∨ textToBits T t = .error .unknownSymbol := by
  cases h : textToBits T t with
  | ok v => exact .inl ⟨v, rfl⟩
  | error e => rw [textToBits_error h]; exact .inr rfl

/-- It fails exactly on texts with an unmapped symbol (R140, R273). -/
theorem textToBits_error_iff (T : Tables) (t : Text) :
    textToBits T t = .error .unknownSymbol ↔ ∃ x ∈ t, ∀ c, (c, x) ∉ codepage T := by
  have h := textToBits_ok_iff T t
  rcases textToBits_cases T t with ⟨v, hv⟩ | he
  · rw [hv]
    simp only [reduceCtorEq, false_iff, not_exists, not_and]
    intro x hx hc
    obtain ⟨c, hc'⟩ := h.mp ⟨v, hv⟩ x hx
    exact hc c ((codeOf_eq_ok_iff T x c).mp hc')
  · rw [he]
    simp only [true_iff]
    by_contra hne
    push Not at hne
    obtain ⟨v, hv⟩ := h.mpr (fun x hx => by
      obtain ⟨c, hc⟩ := hne x hx
      exact ⟨c, (codeOf_eq_ok_iff T x c).mpr hc⟩)
    rw [he] at hv; simp at hv

/-- The 8-bit groups of textToBits(t) are the codes of the symbols, in order (R140). -/
theorem chunks_textToBits {T : Tables} {t : Text} {v : Bits} (h : textToBits T t = .ok v) (r : Bits) :
    chunks t.length 8 (v ++ r) = t.map (fun x => match codeOf T x with | .ok c => bin 8 c | .error _ => []) := by
  induction t generalizing v with
  | nil => rfl
  | cons x xs ih =>
    obtain ⟨c, w, hc, hw, rfl⟩ := textToBits_cons_eq_ok.mp h
    simp only [List.length_cons, chunks, List.append_assoc, List.map_cons, hc]
    rw [List.take_append_of_le_length (by simp), List.drop_append_of_le_length (by simp)]
    rw [List.take_of_length_le (by simp), List.drop_of_length_le (by simp), List.nil_append, ih hw]

/-- Group i of textToBits(t) is the code of symbol i (R140). -/
theorem group_textToBits {T : Tables} {t : Text} {v : Bits} (h : textToBits T t = .ok v) (i : Nat) (hi : i < t.length)
    (c : Nat) (hc : codeOf T t[i] = .ok c) : (v.drop (i * 8)).take 8 = bin 8 c := by
  have h1 := congrArg (fun l => l[i]?) (chunks_textToBits h [])
  simp only [List.append_nil, List.getElem?_map, List.getElem?_eq_getElem hi, Option.map_some, hc] at h1
  rw [getElem?_chunks _ _ _ _ hi] at h1
  injection h1

/-! ### bitsToText -/

theorem chunks_add (n m p : Nat) (s : Bits) : chunks (n + m) p s = chunks n p s ++ chunks m p (s.drop (n * p)) := by
  induction n generalizing s with
  | zero => simp [chunks]
  | succ n ih =>
    rw [Nat.succ_add]
    simp only [chunks, List.cons_append, ih, List.drop_drop]
    congr 4
    ring

theorem chunks_zeros (n p : Nat) (s : Bits) (h : ∀ b ∈ s, b = false) : ∀ c ∈ chunks n p s, val c = 0 := by
  induction n generalizing s with
  | zero => simp [chunks]
  | succ n ih =>
    intro c hc
    simp only [chunks, List.mem_cons] at hc
    rcases hc with rfl | hc
    · have : s.take p = zeros (s.take p).length :=
        List.eq_replicate_of_mem (fun b hb => h b (List.mem_of_mem_take hb))
      rw [this, val_zeros]
    · exact ih _ (fun b hb => h b (List.mem_of_mem_drop hb)) c hc

/-- The one symbol of code 0 is NUL (R33, C2). -/
theorem codeOf_eq_zero_iff (T : Tables) (x : Sym) : codeOf T x = .ok 0 ↔ x = 0#32 := by
  constructor
  · intro h
    exact codepage_ascii ((codeOf_eq_ok_iff T x 0).mp h) (by omega)
  · rintro rfl
    exact (codeOf_eq_ok_iff T _ 0).mpr ((mem_codepage T 0 _).mpr (.inl ⟨by omega, rfl⟩))

/-- Decoding an encoded and zero-padded text drops its NULs and the padding, and nothing else (R144, R146, R312). -/
theorem bitsToText_textToBits {T : Tables} {t : Text} {v : Bits} (h : textToBits T t = .ok v) (m : Nat) :
    bitsToText T (v ++ zeros (8 * m)) = t.filter (fun x => x != 0#32) := by
  have hl := length_textToBits h
  have e : (v ++ zeros (8 * m)).length / 8 = t.length + m := by
    rw [List.length_append, length_zeros, hl, ← Nat.mul_add]; omega
  unfold bitsToText
  rw [e, chunks_add, chunks_textToBits h]
  rw [show t.length * 8 = v.length by rw [hl]; ring, List.drop_left, List.map_append, List.filter_append,
    List.map_append, List.map_map]
  have hz : ((chunks m 8 (zeros (8 * m))).map decimalOf).filter (fun c => c != 0) = [] := by
    rw [List.filter_eq_nil_iff]
    intro c hc
    obtain ⟨g, hg, rfl⟩ := List.mem_map.mp hc
    have := chunks_zeros m 8 (zeros (8 * m)) (fun b hb => List.eq_of_mem_replicate hb) g hg
    simp [decimalOf, this]
  rw [hz, List.map_nil, List.append_nil]
  have hok := (textToBits_ok_iff T t).mp ⟨v, h⟩
  clear h hl e hz
  induction t with
  | nil => rfl
  | cons x xs ih =>
    obtain ⟨c, hc⟩ := hok x (by simp)
    have hv : decimalOf (bin 8 c) = c := val_bin 8 c (codeOf_lt hc)
    have hih := ih (fun y hy => hok y (by simp [hy]))
    simp only [List.map_cons, Function.comp, hc, hv]
    by_cases h0 : c = 0
    · have hx : x = 0#32 := (codeOf_eq_zero_iff T x).mp (h0 ▸ hc)
      rw [List.filter_cons_of_neg (by simp [h0]), List.filter_cons_of_neg (by simp [hx])]
      exact hih
    · have hx : x ≠ 0#32 := fun e => h0 (by
        have := (codeOf_eq_zero_iff T x).mpr e
        rw [hc] at this; injection this)
      rw [List.filter_cons_of_pos (by simpa using h0), List.map_cons, symbolOf_codeOf hc,
        List.filter_cons_of_pos (by simpa using hx)]
      congr 1

/-- The result has at most |s| / 8 symbols (R146). -/
theorem length_bitsToText_le (T : Tables) (s : Bits) : (bitsToText T s).length ≤ s.length / 8 := by
  unfold bitsToText
  rw [List.length_map]
  refine (List.length_filter_le _ _).trans ?_
  simp

/-! ### rotl11 (R155, R156) -/

@[simp] theorem length_rotl11 (x : Bits) : (rotl11 x).length = x.length := by
  simp [rotl11]; omega

/-- "Position i of the result holds x[(i + 11) mod 32]" (R155). -/
theorem getD_rotl11 (x : Bits) (h : x.length = 32) (i : Nat) (hi : i < 32) :
    (rotl11 x).getD i false = x.getD ((i + 11) % 32) false := by
  unfold rotl11
  simp only [List.getD_eq_getElem?_getD]
  by_cases h1 : i < 21
  · rw [List.getElem?_append_left (by simp; omega), List.getElem?_drop]
    congr 2; omega
  · rw [List.getElem?_append_right (by simp; omega), List.length_drop, h, List.getElem?_take, if_pos (by omega)]
    congr 2; omega

/-- On the word: rotl32(val(x), 11) (R155). -/
theorem bitsToWord_rotl11 (x : Bits) (h : x.length = 32) : bitsToWord (rotl11 x) = (bitsToWord x).rotateLeft 11 := by
  apply word_ext
  intro j hj
  rw [getMsbD_bitsToWord _ (by simpa using h) j hj, getD_rotl11 x h j hj,
    ← getMsbD_bitsToWord x h _ (by omega)]
  simp [BitVec.getMsbD_rotateLeft, hj, Nat.add_comm 11 j]

end Sys2Proof.Machine
end

