-- ==== Sys2Proof/Laws/Segment.lean ====
section
/-! SUPPORT. Laws of the Segmenter (R170, R171, R173): the chunks of splitFixed, and join after it. -/

namespace Sys2Proof.Machine

/-- "|splitFixed(bits, p)| = ceil(|bits| / p)" (R170, R261). -/
@[simp] theorem length_splitFixed (s : Bits) (p : Nat) : (splitFixed s p).length = ceilDiv s.length p := by
  simp [splitFixed]

/-- "every returned chunk has length exactly partSize" (R170). -/
theorem length_of_mem_splitFixed {s : Bits} {p : Nat} (hp : 1 ≤ p) {c : Bits} (h : c ∈ splitFixed s p) : c.length = p := by
  refine length_of_mem_chunks ?_ h
  have := ceilDiv_mul_ge s.length p hp
  rw [List.length_append, length_zeros]; omega

/-- "concat(splitFixed(bits, p)) = bits ++ zeros(k) with k = cnt*p - |bits|" (R171 (b)). -/
theorem flatten_splitFixed (s : Bits) (p : Nat) (hp : 1 ≤ p) :
    (splitFixed s p).flatten = s ++ zeros (ceilDiv s.length p * p - s.length) := by
  unfold splitFixed
  rw [flatten_chunks, List.take_of_length_le]
  have := ceilDiv_mul_ge s.length p hp
  rw [List.length_append, length_zeros]; omega

/-- Splitting a concatenation of chunks of p bits gives the chunks back, with no padding (R170, R171). -/
theorem splitFixed_flatten (q : BitSeq) (p : Nat) (hp : 1 ≤ p) (h : ∀ c ∈ q, c.length = p) :
    splitFixed q.flatten p = q := by
  unfold splitFixed
  rw [length_flatten_of_forall h, ceilDiv_of_dvd _ _ hp]
  exact chunks_flatten q p h _

/-- Chunk j of splitFixed is the padded string's slice (R170). -/
theorem getD_splitFixed (s : Bits) (p j : Nat) (h : j < ceilDiv s.length p) (d : Bits) :
    (splitFixed s p).getD j d = ((s ++ zeros (ceilDiv s.length p * p - s.length)).drop (j * p)).take p :=
  getD_chunks _ _ _ _ h _

/-- join succeeds exactly on a non-empty sequence, with the concatenation (R173, R174). -/
theorem join_eq_ok_iff (q : BitSeq) (v : Bits) : join q = .ok v ↔ q ≠ [] ∧ v = q.flatten := by
  cases q with
  | nil => simp [join]
  | cons c q => simp only [join, Except.ok.injEq, ne_eq, reduceCtorEq, not_false_eq_true, true_and]; exact eq_comm

theorem join_of_ne_nil {q : BitSeq} (h : q ≠ []) : join q = .ok q.flatten := (join_eq_ok_iff _ _).mpr ⟨h, rfl⟩

theorem join_cases (q : BitSeq) : (q = [] ∧ join q = .error .emptyJoin) ∨ (q ≠ [] ∧ join q = .ok q.flatten) := by
  cases q with
  | nil => exact .inl ⟨rfl, rfl⟩
  | cons c q => exact .inr ⟨by simp, rfl⟩

end Sys2Proof.Machine
end

