-- ==== Sys2Proof/Laws/Feistel.lean ====
section
/-! SUPPORT. Laws of the Feistel engine (R191, R199, R221, R225, R227): lengths, the block transforms undo each other,
and the bitstring operations are the word operations of `Safety`. -/

namespace Sys2Proof.Machine

/-! ### Lengths -/

theorem length_flatten_bin4 (f : Bits → Nat) (q : BitSeq) :
    ((q.map (fun n => bin 4 (f n))).flatten).length = 4 * q.length := by
  induction q with
  | nil => rfl
  | cons c q ih => rw [List.map_cons, List.flatten_cons, List.length_append, ih, length_bin, List.length_cons]; ring

@[simp] theorem length_subst (T : Tables) (x : Bits) : (subst T x).length = 32 := by
  rw [subst, length_flatten_bin4, length_chunks]

@[simp] theorem length_roundF (T : Tables) (h k : Bits) : (roundF T h k).length = 32 := by simp [roundF]

/-- Both halves have 32 bits. -/
def HalvesOk (p : Bits × Bits) : Prop := p.1.length = 32 ∧ p.2.length = 32

theorem halvesOk_encRound (T : Tables) (k : Bits) {p : Bits × Bits} (h : HalvesOk p) : HalvesOk (encRound T k p) := by
  obtain ⟨h1, h2⟩ := h
  exact ⟨by simp [encRound, h2], h1⟩

theorem halvesOk_decRound (T : Tables) (k : Bits) {p : Bits × Bits} (h : HalvesOk p) : HalvesOk (decRound T k p) := by
  obtain ⟨h1, h2⟩ := h
  exact ⟨h2, by simp [decRound, h1]⟩

theorem halvesOk_rounds {f : Bits × Bits → Bits × Bits} (hf : ∀ p, HalvesOk p → HalvesOk (f p)) (n : Nat)
    {p : Bits × Bits} (h : HalvesOk p) : HalvesOk (rounds f n p) := by
  induction n generalizing p with
  | zero => exact h
  | succ n ih => exact ih (hf p h)

theorem halvesOk_halves {b : Bits} (h : b.length = 64) : HalvesOk (halves b) := by
  constructor <;> simp [halves, h]

theorem halves_unhalves {p : Bits × Bits} (h : HalvesOk p) : halves (unhalves p) = p := by
  obtain ⟨h1, h2⟩ := h
  apply Prod.ext
  · simp only [halves, unhalves, ← h1, List.take_left]
  · simp only [halves, unhalves, ← h1, List.drop_left]

theorem unhalves_halves (b : Bits) : unhalves (halves b) = b := List.take_append_drop 32 b

@[simp] theorem length_encryptBlock (T : Tables) (b k : Bits) (h : b.length = 64) : (encryptBlock T b k).length = 64 := by
  have := halvesOk_rounds (fun p => halvesOk_encRound T k (p := p)) 32 (halvesOk_halves h)
  simp [encryptBlock, unhalves, this.1, this.2]

@[simp] theorem length_decryptBlock (T : Tables) (b k : Bits) (h : b.length = 64) : (decryptBlock T b k).length = 64 := by
  have := halvesOk_rounds (fun p => halvesOk_decRound T k (p := p)) 32 (halvesOk_halves h)
  simp [decryptBlock, unhalves, this.1, this.2]

/-! ### Each transform undoes the other (R227) -/

/-- D(E(L,R)) = (L,R) (R227). -/
theorem decRound_encRound (T : Tables) (k : Bits) {p : Bits × Bits} (h : HalvesOk p) :
    decRound T k (encRound T k p) = p := by
  obtain ⟨h1, h2⟩ := h
  apply Prod.ext
  · rfl
  · simp only [decRound, encRound]
    rw [xorBits_comm (roundF T p.1 k), xorBits_involution _ _ (by simp [h2])]

/-- E(D(L,R)) = (L,R) (R227). -/
theorem encRound_decRound (T : Tables) (k : Bits) {p : Bits × Bits} (h : HalvesOk p) :
    encRound T k (decRound T k p) = p := by
  obtain ⟨h1, h2⟩ := h
  apply Prod.ext
  · simp only [decRound, encRound]
    rw [xorBits_comm (roundF T p.2 k), xorBits_involution _ _ (by simp [h1])]
  · rfl

theorem rounds_succ_apply (f : Bits × Bits → Bits × Bits) (n : Nat) (p : Bits × Bits) :
    rounds f (n + 1) p = f (rounds f n p) := by
  induction n generalizing p with
  | zero => rfl
  | succ n ih => exact ih (f p)

/-- n rounds undo n rounds. -/
theorem rounds_cancel {f g : Bits × Bits → Bits × Bits} (hf : ∀ p, HalvesOk p → HalvesOk (f p))
    (hgf : ∀ p, HalvesOk p → g (f p) = p) (n : Nat) {p : Bits × Bits} (h : HalvesOk p) :
    rounds g n (rounds f n p) = p := by
  induction n generalizing p with
  | zero => rfl
  | succ n ih =>
    rw [rounds_succ_apply f]
    show rounds g n (g (f (rounds f n p))) = p
    rw [hgf _ (halvesOk_rounds hf n h), ih h]

/-- "for all 64-bit blocks b and 32-bit key parts p, decryptBlock(encryptBlock(b, p), p) == b" (R227). -/
theorem decryptBlock_encryptBlock (T : Tables) (b k : Bits) (h : b.length = 64) :
    decryptBlock T (encryptBlock T b k) k = b := by
  unfold decryptBlock encryptBlock
  rw [halves_unhalves (halvesOk_rounds (fun p => halvesOk_encRound T k (p := p)) 32 (halvesOk_halves h)),
    rounds_cancel (fun p => halvesOk_encRound T k (p := p)) (fun p => decRound_encRound T k (p := p)) 32
      (halvesOk_halves h), unhalves_halves]

/-- The converse (R227). -/
theorem encryptBlock_decryptBlock (T : Tables) (b k : Bits) (h : b.length = 64) :
    encryptBlock T (decryptBlock T b k) k = b := by
  unfold decryptBlock encryptBlock
  rw [halves_unhalves (halvesOk_rounds (fun p => halvesOk_decRound T k (p := p)) 32 (halvesOk_halves h)),
    rounds_cancel (fun p => halvesOk_decRound T k (p := p)) (fun p => encRound_decRound T k (p := p)) 32
      (halvesOk_halves h), unhalves_halves]

/-! ### The bitstring engine is the word engine -/

theorem val_flatten_bin4 (l : List Nat) (h : ∀ v ∈ l, v < 16) (a : Nat) :
    l.foldl (fun a v => 16 * a + v) a = a * 16 ^ l.length + val ((l.map (bin 4)).flatten) := by
  induction l generalizing a with
  | nil => simp
  | cons v l ih =>
    have hv : val (bin 4 v) = v := val_bin 4 v (h v (by simp))
    have hl : ((l.map (bin 4)).flatten).length = 4 * l.length := length_flatten_of_forall (p := 4) (by simp) |>.trans (by
      simp [Nat.mul_comm])
    rw [List.foldl_cons, ih (fun v hv => h v (by simp [hv])), List.map_cons, List.flatten_cons, val_append, hv, hl,
      List.length_cons, pow_succ, pow_mul]
    norm_num
    ring

theorem val_nibble (x : Bits) (h : x.length = 32) (j : Nat) (hj : j < 8) :
    val ((x.drop (j * 4)).take 4) = val x / 16 ^ (7 - j) % 16 := by
  have e : x = x.take (j * 4) ++ ((x.drop (j * 4)).take 4 ++ x.drop (j * 4 + 4)) := by
    rw [← List.drop_drop, List.take_append_drop, List.take_append_drop]
  have hl1 : (x.drop (j * 4 + 4)).length = 4 * (7 - j) := by simp; omega
  have hl2 : ((x.drop (j * 4)).take 4).length = 4 := by simp; omega
  have hr := val_lt (x.drop (j * 4 + 4))
  have hn := val_lt ((x.drop (j * 4)).take 4)
  rw [hl1, pow_mul] at hr
  rw [hl2] at hn
  norm_num at hr hn
  conv_rhs => rw [e, val_append, val_append, List.length_append, hl1, hl2, pow_add, pow_mul]
  norm_num
  rw [← Nat.add_assoc, Nat.add_div_of_dvd_right (Dvd.dvd.add (Dvd.intro_left (val (x.take (j * 4)) * 16) (by ring))
    (Dvd.intro_left _ rfl)), Nat.div_eq_of_lt hr, Nat.add_zero]
  rw [show val (x.take (j * 4)) * (16 * 16 ^ (7 - j)) + val ((x.drop (j * 4)).take 4) * 16 ^ (7 - j) =
    (val (x.take (j * 4)) * 16 + val ((x.drop (j * 4)).take 4)) * 16 ^ (7 - j) by ring,
    Nat.mul_div_cancel _ (by positivity)]
  omega

theorem sboxAt_lt (T : Tables) (v : Nat) : sboxAt T v < 16 := (T.sbox[Fin.ofNat 16 v]).isLt

theorem chunks_eq_map_range (n p : Nat) (s : Bits) :
    chunks n p s = (List.range n).map (fun j => (s.drop (j * p)).take p) := by
  apply List.ext_getElem?
  intro i
  by_cases h : i < n
  · rw [getElem?_chunks _ _ _ _ h]; simp [h]
  · rw [List.getElem?_eq_none_iff.mpr (by simp; omega), List.getElem?_eq_none_iff.mpr (by simp; omega)]

/-- `subst` on the word is `substw` (R191). -/
theorem bitsToWord_subst (T : Tables) (x : Bits) (h : x.length = 32) :
    bitsToWord (subst T x) = substWord T (bitsToWord x) := by
  unfold substWord bitsToWord
  congr 1
  have hx : (BitVec.ofNat 32 (val x)).toNat = val x := toNat_bitsToWord (s := x) (by omega)
  have hn : wordNibbles (BitVec.ofNat 32 (val x)) = (chunks 8 4 x).map val := by
    unfold wordNibbles
    rw [chunks_eq_map_range, List.map_map, hx]
    apply List.map_congr_left
    intro j hj
    exact (val_nibble x h j (List.mem_range.mp hj)).symm
  rw [hn, List.foldl_map]
  have hs : subst T x = ((((chunks 8 4 x).map (fun n => sboxAt T (val n)))).map (bin 4)).flatten := by
    rw [subst, List.map_map]; rfl
  have := val_flatten_bin4 ((chunks 8 4 x).map (fun n => sboxAt T (val n))) (by
    intro v hv
    obtain ⟨n, -, rfl⟩ := List.mem_map.mp hv
    exact sboxAt_lt T _) 0
  rw [List.foldl_map, Nat.zero_mul, Nat.zero_add] at this
  rw [hs, ← this]

theorem rotateLeft_eq_rotl32 (w : Word) : w.rotateLeft 11 = rotl32 w 11 := rfl

/-- "val(F(h,k)) = rotl32(substw(val(h) XOR val(k)), 11)" (R199). -/
theorem bitsToWord_roundF (T : Tables) (h k : Bits) (hh : h.length = 32) (hk : k.length = 32) :
    bitsToWord (roundF T h k) = wordF T (bitsToWord h) (bitsToWord k) := by
  unfold roundF wordF
  rw [bitsToWord_rotl11 _ (by simp), bitsToWord_subst T _ (by simp [hh, hk]), bitsToWord_xorBits _ _ hh hk,
    rotateLeft_eq_rotl32]

/-- The two halves as words. -/
def halvesToWords (p : Bits × Bits) : Word × Word := (bitsToWord p.1, bitsToWord p.2)

theorem halvesToWords_encRound (T : Tables) (k : Bits) (hk : k.length = 32) {p : Bits × Bits} (h : HalvesOk p) :
    halvesToWords (encRound T k p) = wordEncRound T (bitsToWord k) (halvesToWords p) := by
  obtain ⟨h1, h2⟩ := h
  simp only [halvesToWords, encRound, wordEncRound]
  rw [bitsToWord_xorBits _ _ (by simp) h2, bitsToWord_roundF T _ _ h1 hk]

theorem halvesToWords_decRound (T : Tables) (k : Bits) (hk : k.length = 32) {p : Bits × Bits} (h : HalvesOk p) :
    halvesToWords (decRound T k p) = wordDecRound T (bitsToWord k) (halvesToWords p) := by
  obtain ⟨h1, h2⟩ := h
  simp only [halvesToWords, decRound, wordDecRound]
  rw [bitsToWord_xorBits _ _ h1 (by simp), bitsToWord_roundF T _ _ h2 hk]

theorem halvesToWords_rounds {f : Bits × Bits → Bits × Bits} {g : Word × Word → Word × Word}
    (hf : ∀ p, HalvesOk p → HalvesOk (f p)) (hg : ∀ p, HalvesOk p → halvesToWords (f p) = g (halvesToWords p)) (n : Nat)
    {p : Bits × Bits} (h : HalvesOk p) : halvesToWords (rounds f n p) = g^[n] (halvesToWords p) := by
  induction n generalizing p with
  | zero => rfl
  | succ n ih =>
    show halvesToWords (rounds f n (f p)) = _
    rw [ih (hf p h), hg p h]; rfl

/-- ENCB's transform is 32 word rounds on the halves (R221, R229). -/
theorem halvesToWords_encryptBlock (T : Tables) (b k : Bits) (hb : b.length = 64) (hk : k.length = 32) :
    halvesToWords (halves (encryptBlock T b k)) = wordEncrypt T (bitsToWord k) (halvesToWords (halves b)) := by
  have ok := halvesOk_halves hb
  rw [encryptBlock, halves_unhalves (halvesOk_rounds (fun p => halvesOk_encRound T k (p := p)) 32 ok)]
  exact halvesToWords_rounds (fun p => halvesOk_encRound T k (p := p)) (fun p => halvesToWords_encRound T k hk (p := p)) 32 ok

/-- DECB's transform is 32 word rounds on the halves (R225, R229). -/
theorem halvesToWords_decryptBlock (T : Tables) (b k : Bits) (hb : b.length = 64) (hk : k.length = 32) :
    halvesToWords (halves (decryptBlock T b k)) = wordDecrypt T (bitsToWord k) (halvesToWords (halves b)) := by
  have ok := halvesOk_halves hb
  rw [decryptBlock, halves_unhalves (halvesOk_rounds (fun p => halvesOk_decRound T k (p := p)) 32 ok)]
  exact halvesToWords_rounds (fun p => halvesOk_decRound T k (p := p)) (fun p => halvesToWords_decRound T k hk (p := p)) 32 ok

/-- `keyIndex` is in [0, 7] on all of its domain (R201). -/
theorem keyIndex_lt (i : Nat) : keyIndex i < 8 := by unfold keyIndex; split <;> omega

end Sys2Proof.Machine
end

