-- ==== Sys2Proof/Laws/Message.lean ====
section
/-! SUPPORT. Laws of the message level (R241, R244, R248, R251): key parts, the blocks in index order, and the round
trip of encrypt and decrypt. -/

namespace Sys2Proof.Machine

/-! ### Key parts (R241) -/

/-- The three outcomes of keyParts, in the order of its checks (R241). -/
theorem keyParts_cases (T : Tables) (key : Text) :
    (textToBits T key = .error .unknownSymbol ∧ keyParts T key = .error .unknownSymbol)
    ∨ (∃ kb, textToBits T key = .ok kb ∧ key.length ≠ 32 ∧ keyParts T key = .error .keyLengthError)
    ∨ (∃ kb, textToBits T key = .ok kb ∧ key.length = 32 ∧ keyParts T key = .ok (splitFixed kb 32)) := by
  rcases textToBits_cases T key with ⟨kb, h⟩ | h
  · have hl := length_textToBits h
    by_cases h1 : key.length = 32
    · exact .inr (.inr ⟨kb, h, h1, by simp [keyParts, h, show kb.length = 256 by omega]⟩)
    · exact .inr (.inl ⟨kb, h, h1, by simp [keyParts, h, show ¬ kb.length = 256 by omega]⟩)
  · exact .inl ⟨h, by simp [keyParts, h]⟩

/-- keyParts gives exactly eight slices of 32 bits, of the key's bits (R241). -/
theorem keyParts_ok {T : Tables} {key : Text} {kp : BitSeq} (h : keyParts T key = .ok kp) :
    ∃ kb, textToBits T key = .ok kb ∧ key.length = 32 ∧ kb.length = 256 ∧ kp = splitFixed kb 32 ∧ kp.length = 8
      ∧ (∀ c ∈ kp, c.length = 32) := by
  rcases keyParts_cases T key with ⟨-, h'⟩ | ⟨kb, -, -, h'⟩ | ⟨kb, hkb, hl, h'⟩
  · rw [h'] at h; simp at h
  · rw [h'] at h; simp at h
  · rw [h'] at h
    injection h with h
    subst h
    have hlen : kb.length = 256 := by have := length_textToBits hkb; omega
    exact ⟨kb, hkb, hl, hlen, rfl, by rw [length_splitFixed, hlen]; rfl,
      fun c hc => length_of_mem_splitFixed (by omega) hc⟩

theorem getD_mem_of_lt {q : BitSeq} {j : Nat} (h : j < q.length) (d : Bits) : q.getD j d ∈ q := by
  rw [List.getD_eq_getElem?_getD, List.getElem?_eq_getElem h]; exact List.getElem_mem h

/-- The key part of any block index has 32 bits. -/
theorem length_keyPart {kp : BitSeq} (h8 : kp.length = 8) (h : ∀ c ∈ kp, c.length = 32) (i : Nat) :
    (kp.getD (keyIndex i) []).length = 32 :=
  h _ (getD_mem_of_lt (by have := keyIndex_lt i; omega) _)

/-! ### Blocks in index order (R245, R249) -/

@[simp] theorem length_mapBlocks (f : Bits → Bits → Bits) (kp : BitSeq) (i : Nat) (bs : BitSeq) :
    (mapBlocks f kp i bs).length = bs.length := by
  induction bs generalizing i with
  | nil => rfl
  | cons b bs ih => simp [mapBlocks, ih]

/-- Block j of the message is transformed with the key part of index i + j (R245). -/
theorem getElem?_mapBlocks (f : Bits → Bits → Bits) (kp : BitSeq) (i : Nat) (bs : BitSeq) (j : Nat) :
    (mapBlocks f kp i bs)[j]? = bs[j]?.map (fun b => f b (kp.getD (keyIndex (i + j)) [])) := by
  induction bs generalizing i j with
  | nil => simp [mapBlocks]
  | cons b bs ih =>
    cases j with
    | zero => simp [mapBlocks]
    | succ j =>
      simp only [mapBlocks, List.getElem?_cons_succ, ih]
      rw [show i + 1 + j = i + (j + 1) by ring]

theorem forall_mem_mapBlocks {f : Bits → Bits → Bits} {kp : BitSeq} {P : Bits → Prop} {bs : BitSeq}
    (h : ∀ b ∈ bs, ∀ k, P (f b k)) (i : Nat) : ∀ c ∈ mapBlocks f kp i bs, P c := by
  induction bs generalizing i with
  | nil => simp [mapBlocks]
  | cons b bs ih =>
    intro c hc
    simp only [mapBlocks, List.mem_cons] at hc
    rcases hc with rfl | hc
    · exact h b (by simp) _
    · exact ih (fun b hb => h b (by simp [hb])) _ c hc

/-- Transforming back, block by block, with the same key parts. -/
theorem mapBlocks_cancel {f g : Bits → Bits → Bits} {kp : BitSeq} {bs : BitSeq}
    (h : ∀ b ∈ bs, ∀ k, g (f b k) k = b) (i : Nat) : mapBlocks g kp i (mapBlocks f kp i bs) = bs := by
  induction bs generalizing i with
  | nil => rfl
  | cons b bs ih =>
    simp only [mapBlocks]
    rw [h b (by simp), ih (fun b hb => h b (by simp [hb]))]

/-! ### processMessage: everything it can do -/

/-- A block transform keeps the length of a block. -/
def KeepsBlockLength (f : Bits → Bits → Bits) : Prop := ∀ b k, b.length = 64 → (f b k).length = 64

theorem keepsBlockLength_encryptBlock (T : Tables) : KeepsBlockLength (encryptBlock T) :=
  fun b k h => length_encryptBlock T b k h

theorem keepsBlockLength_decryptBlock (T : Tables) : KeepsBlockLength (decryptBlock T) :=
  fun b k h => length_decryptBlock T b k h

/-- What a completed message operation answers (R244, R248). -/
structure Message.Of (T : Tables) (f : Bits → Bits → Bits) (input : Bits) (key : Text) (m : Message) : Prop where
  keys_ok : keyParts T key = .ok m.keys
  blocks_eq : m.blocks = mapBlocks f m.keys 0 (splitFixed input 64)
  bits_eq : m.bits = m.blocks.flatten
  input_pos : 0 < input.length

theorem ceilDiv_pos {n p : Nat} (hp : 1 ≤ p) : 0 < ceilDiv n p ↔ 0 < n := by
  have h1 := ceilDiv_mul_ge n p hp
  have h2 := ceilDiv_mul_lt n p hp
  constructor
  · intro h
    have := Nat.le_mul_of_pos_left p h
    omega
  · intro h
    by_contra hc
    rw [show ceilDiv n p = 0 by omega, Nat.zero_mul] at h1
    omega

theorem splitFixed_ne_nil {s : Bits} {p : Nat} (hp : 1 ≤ p) : splitFixed s p ≠ [] ↔ 0 < s.length := by
  rw [← ceilDiv_pos hp, ← length_splitFixed, List.length_pos_iff]

/-- processMessage answers by its checks, in their order: the key's faults, then EmptyJoin (R244, R248). -/
theorem processMessage_cases (T : Tables) (f : Bits → Bits → Bits) (input : Bits) (key : Text) :
    (∃ e, keyParts T key = .error e ∧ processMessage T f input key = .error e)
    ∨ (∃ kp, keyParts T key = .ok kp ∧ input.length = 0 ∧ processMessage T f input key = .error .emptyJoin)
    ∨ (∃ m, Message.Of T f input key m ∧ processMessage T f input key = .ok m) := by
  cases hk : keyParts T key with
  | error e => exact .inl ⟨e, rfl, by simp [processMessage, hk]⟩
  | ok kp =>
    by_cases h0 : 0 < input.length
    · right; right
      have hne : mapBlocks f kp 0 (splitFixed input 64) ≠ [] := by
        rw [ne_eq, ← List.length_eq_zero_iff, length_mapBlocks, List.length_eq_zero_iff]
        exact (splitFixed_ne_nil (by omega)).mpr h0
      refine ⟨⟨kp, mapBlocks f kp 0 (splitFixed input 64), (mapBlocks f kp 0 (splitFixed input 64)).flatten⟩,
        ⟨hk, rfl, rfl, h0⟩, ?_⟩
      simp [processMessage, hk, join_of_ne_nil hne]
    · right; left
      refine ⟨kp, rfl, by omega, ?_⟩
      have : splitFixed input 64 = [] := by
        by_contra hc
        exact h0 ((splitFixed_ne_nil (by omega)).mp hc)
      simp [processMessage, hk, this, mapBlocks, join]

namespace Message.Of

variable {T : Tables} {f : Bits → Bits → Bits} {input : Bits} {key : Text} {m : Message}

theorem length_blocks (h : Message.Of T f input key m) : m.blocks.length = ceilDiv input.length 64 := by
  rw [h.blocks_eq, length_mapBlocks, length_splitFixed]

theorem length_block (h : Message.Of T f input key m) (hf : KeepsBlockLength f) : ∀ c ∈ m.blocks, c.length = 64 := by
  rw [h.blocks_eq]
  exact forall_mem_mapBlocks (fun b hb k => hf b k (length_of_mem_splitFixed (by omega) hb)) 0

theorem length_bits (h : Message.Of T f input key m) (hf : KeepsBlockLength f) :
    m.bits.length = ceilDiv input.length 64 * 64 := by
  rw [h.bits_eq, length_flatten_of_forall (h.length_block hf), h.length_blocks]

/-- Block i: the padded input's block i under the key part of index i (R245). -/
theorem block (h : Message.Of T f input key m) (i : Nat) (hi : i < ceilDiv input.length 64) (d : Bits) :
    m.blocks.getD i d = f ((splitFixed input 64).getD i []) (m.keys.getD (keyIndex i) []) := by
  have hi' : i < (splitFixed input 64).length := by rw [length_splitFixed]; exact hi
  rw [h.blocks_eq, List.getD_eq_getElem?_getD, getElem?_mapBlocks, List.getD_eq_getElem?_getD (l := splitFixed input 64),
    List.getElem?_eq_getElem hi', Nat.zero_add]
  rfl

end Message.Of

/-! ### Round trip (R251) -/

/-- Decrypting what encrypt answered gives the padded text bits (R227, R251). -/
theorem decryptMessage_of_encrypt {T : Tables} {v : Bits} {key : Text} {m : Message}
    (h : Message.Of T (encryptBlock T) v key m) :
    ∃ m', Message.Of T (decryptBlock T) m.bits key m' ∧ decryptMessage T m.bits key = .ok m'
      ∧ m'.bits = v ++ zeros (ceilDiv v.length 64 * 64 - v.length) := by
  have hb := h.length_block (keepsBlockLength_encryptBlock T)
  have hl := h.length_bits (keepsBlockLength_encryptBlock T)
  have hc := ceilDiv_mul_ge v.length 64 (by omega)
  have hp := h.input_pos
  rcases processMessage_cases T (decryptBlock T) m.bits key with ⟨e, hk, -⟩ | ⟨kp, -, h0, -⟩ | ⟨m', hm', he⟩
  · rw [h.keys_ok] at hk; simp at hk
  · omega
  · refine ⟨m', hm', he, ?_⟩
    have hkeys : m'.keys = m.keys := by
      have := hm'.keys_ok
      rw [h.keys_ok] at this
      injection this with this; exact this.symm
    rw [hm'.bits_eq, hm'.blocks_eq, hkeys, h.bits_eq, splitFixed_flatten _ 64 (by omega) hb, h.blocks_eq,
      mapBlocks_cancel (fun b hb' k => decryptBlock_encryptBlock T b k (length_of_mem_splitFixed (by omega) hb')),
      flatten_splitFixed _ _ (by omega)]

/-- Decrypting what encrypt answered gives the text with its NULs dropped: the operation-layer round trip (R251, R312). -/
theorem bitsToText_decrypted {T : Tables} {t key : Text} {v : Bits} {m : Message} (hv : textToBits T t = .ok v)
    (h : Message.Of T (encryptBlock T) v key m) :
    ∃ m', Message.Of T (decryptBlock T) m.bits key m' ∧ decryptMessage T m.bits key = .ok m'
      ∧ bitsToText T m'.bits = t.filter (fun x => x != 0#32) := by
  obtain ⟨m', hm', he, hbits⟩ := decryptMessage_of_encrypt h
  refine ⟨m', hm', he, ?_⟩
  have hl := length_textToBits hv
  have hc := ceilDiv_mul_ge v.length 64 (by omega)
  have : ceilDiv v.length 64 * 64 - v.length = 8 * ((ceilDiv v.length 64 * 64 - v.length) / 8) := by omega
  rw [hbits, this]
  exact bitsToText_textToBits hv _

end Sys2Proof.Machine
end

