-- ==== Sys2Proof/Laws/Exec.lean ====
section
/-! SUPPORT. What each command can do, said once: it takes a fault, or it completes with the writes of its rule (R95).
Every later fact about `exec` cites `exec_cases` or one of the lemmas it is made of. -/

namespace Sys2Proof.Machine

/-- The state that a completed command answers, command by command. -/
def Completed (i : Instr) (s t : State) : Prop :=
  match i with
  | .codeof => ∃ c, codeOf s.tables s.res = .ok c ∧ t = s.writeRes (zext32 c)
  | .symof => s.res.toNat ≤ 255 ∧ t = s.writeRes (symbolOf s.tables s.res.toNat)
  | .t2b rd ra => ∃ v, textToBits s.tables (s.readT ra) = .ok v ∧ t = s.writeB rd v
  | .b2t rd ra => s.b[ra].len % 8 = 0 ∧ t = s.writeT rd (bitsToText s.tables (s.readB ra))
  | .xor rd ra rb => s.b[ra].len = s.b[rb].len ∧ t = s.writeB rd (xorBits (s.readB ra) (s.readB rb))
  | .dec8 ra => s.b[ra].len = 8 ∧ t = s.writeRes (zext32 (decimalOf (s.readB ra)))
  | .rotl11 rd ra => s.b[ra].len = 32 ∧ t = s.writeB rd (rotl11 (s.readB ra))
  | .split ra imm => 1 ≤ imm ∧ imm ≤ 2048 ∧ ceilDiv s.b[ra].len imm * imm ≤ 2048
      ∧ t = s.writeQ imm (splitFixed (s.readB ra) imm)
  | .join rd => 0 < s.q.cnt ∧ t = s.writeB rd s.readQ.flatten
  | .getq rd imm => imm < s.q.cnt ∧ t = s.writeB rd (storeSlice s.q.store (imm * s.q.ps) s.q.ps)
  | .subst rd ra => s.b[ra].len = 32 ∧ t = s.writeB rd (subst s.tables (s.readB ra))
  | .frnd rd ra rb => s.b[ra].len = s.b[rb].len ∧ s.b[ra].len = 32
      ∧ t = s.writeB rd (roundF s.tables (s.readB ra) (s.readB rb))
  | .kidx imm => imm ≤ 31 ∧ t = s.writeRes (zext32 (keyIndex imm))
  | .ldkey ra => ∃ kp, keyParts s.tables (s.readT ra) = .ok kp ∧ t = s.writeKeys kp
  | .encb rd ra rb => s.b[ra].len = 64 ∧ s.b[rb].len = 32
      ∧ t = s.writeBlock rd (encryptBlock s.tables (s.readB ra) (s.readB rb))
  | .decb rd ra rb => s.b[ra].len = 64 ∧ s.b[rb].len = 32
      ∧ t = s.writeBlock rd (decryptBlock s.tables (s.readB ra) (s.readB rb))
  | .enc rd ra rb => ∃ v m, textToBits s.tables (s.readT ra) = .ok v
      ∧ Message.Of s.tables (encryptBlock s.tables) v (s.readT rb) m
      ∧ t = (s.writeB rd m.bits).writeMessage m (m.blocks.length - 1)
  | .dec rd ra rb => ∃ m, Message.Of s.tables (decryptBlock s.tables) (s.readB ra) (s.readT rb) m
      ∧ t = (s.writeT rd (bitsToText s.tables m.bits)).writeMessage m 0

/-! ### Mapped symbols and texts -/

theorem mapped_iff (T : Tables) (x : Sym) : Mapped T x ↔ ∃ c, codeOf T x = .ok c := by
  simp only [Mapped, codeOf_eq_ok_iff]

theorem codeOf_of_not_mapped {T : Tables} {x : Sym} (h : ¬ Mapped T x) : codeOf T x = .error .unknownSymbol :=
  (codeOf_eq_error_iff T x).mpr (fun c hc => h ⟨c, hc⟩)

theorem getElem_readT (s : State) (n : TSel) (i : Nat) (h : i < (s.readT n).length) : (s.readT n)[i] = s.sym n i := by
  simp only [State.readT, getElem_textSlice, State.sym]

theorem forall_mem_readT (s : State) (n : TSel) (P : Sym → Prop) :
    (∀ x ∈ s.readT n, P x) ↔ ∀ i, i < s.t[n].len → P (s.sym n i) := by
  constructor
  · intro h i hi
    have hi' : i < (s.readT n).length := by simpa using hi
    rw [← getElem_readT s n i hi']
    exact h _ (List.getElem_mem hi')
  · intro h x hx
    obtain ⟨i, hi, rfl⟩ := List.mem_iff_getElem.mp hx
    rw [getElem_readT]
    exact h i (by simpa using hi)

/-- The text of a register encodes exactly when all its symbols are mapped (R140, R273). -/
theorem textMapped_iff (s : State) (n : TSel) : s.TextMapped n ↔ ∃ v, textToBits s.tables (s.readT n) = .ok v := by
  rw [textToBits_ok_iff, forall_mem_readT s n (fun x => ∃ c, codeOf s.tables x = .ok c)]
  simp only [State.TextMapped, mapped_iff]

theorem textToBits_of_not_textMapped {s : State} {n : TSel} (h : ¬ s.TextMapped n) :
    textToBits s.tables (s.readT n) = .error .unknownSymbol := by
  rcases textToBits_cases s.tables (s.readT n) with hv | he
  · exact absurd ((textMapped_iff s n).mpr hv) h
  · exact he

theorem keyParts_of_not_textMapped {s : State} {n : TSel} (h : ¬ s.TextMapped n) :
    keyParts s.tables (s.readT n) = .error .unknownSymbol := by
  simp [keyParts, textToBits_of_not_textMapped h]

theorem keyParts_of_length_ne {s : State} {n : TSel} (h : s.TextMapped n) (hl : s.t[n].len ≠ 32) :
    keyParts s.tables (s.readT n) = .error .keyLengthError := by
  obtain ⟨v, hv⟩ := (textMapped_iff s n).mp h
  have := length_textToBits hv
  rw [length_readT] at this
  simp [keyParts, hv, show ¬ v.length = 256 by omega]

theorem keyParts_of_length_eq {s : State} {n : TSel} (h : s.TextMapped n) (hl : s.t[n].len = 32) :
    ∃ kp, keyParts s.tables (s.readT n) = .ok kp := by
  obtain ⟨v, hv⟩ := (textMapped_iff s n).mp h
  have := length_textToBits hv
  rw [length_readT] at this
  exact ⟨_, by simp [keyParts, hv, show v.length = 256 by omega]; rfl⟩

/-! ### The checks decide (R281) -/

/-- When no check of R281 fails, the command completes with the writes of its rule. -/
theorem exec_of_noneFailed (i : Instr) (s : State) (h : NoneFailed (checks i s)) :
    ∃ t, Completed i s t ∧ exec i s = .next t := by
  cases i <;> simp only [checks, NoneFailed, not_not, and_true, not_lt, not_le, not_or, ne_eq] at h
  case codeof =>
    obtain ⟨c, hc⟩ := (mapped_iff _ _).mp h
    exact ⟨_, ⟨c, hc, rfl⟩, by simp [exec, execCodeof, hc, complete]⟩
  case symof => exact ⟨_, ⟨h, rfl⟩, by simp [exec, execSymof, h, complete]⟩
  case t2b rd ra =>
    obtain ⟨v, hv⟩ := (textMapped_iff _ _).mp h
    exact ⟨_, ⟨v, hv, rfl⟩, by simp [exec, execT2b, hv, complete]⟩
  case b2t rd ra => exact ⟨_, ⟨h, rfl⟩, by simp only [exec, execB2t, length_readB, h, if_true, complete]⟩
  case xor rd ra rb =>
    exact ⟨_, ⟨h, rfl⟩, by simp only [exec, execXor, xorChecked, length_readB, h, if_true, complete]⟩
  case dec8 ra => exact ⟨_, ⟨h, rfl⟩, by simp only [exec, execDec8, length_readB, h, if_true, complete]⟩
  case rotl11 rd ra => exact ⟨_, ⟨h, rfl⟩, by simp only [exec, execRotl11, length_readB, h, if_true, complete]⟩
  case split ra imm =>
    obtain ⟨⟨h1, h2⟩, h3⟩ := h
    have h1' : 1 ≤ imm := by omega
    exact ⟨_, ⟨h1', h2, h3, rfl⟩, by
      simp only [exec, execSplit, length_readB, h1', h2, h3, and_self, if_true, complete]⟩
  case join rd =>
    have hne : s.readQ ≠ [] := by
      rw [ne_eq, ← List.length_eq_zero_iff, length_readQ]; omega
    exact ⟨_, ⟨by omega, rfl⟩, by simp only [exec, execJoin, join_of_ne_nil hne, complete]⟩
  case getq rd imm => exact ⟨_, ⟨h, rfl⟩, by simp only [exec, execGetq, getElem?_readQ s imm h, complete]⟩
  case subst rd ra => exact ⟨_, ⟨h, rfl⟩, by simp only [exec, execSubst, length_readB, h, if_true, complete]⟩
  case frnd rd ra rb =>
    exact ⟨_, ⟨h.1, h.2, rfl⟩, by
      simp only [exec, execFrnd, length_readB, ← h.1, h.2, if_true, complete]⟩
  case kidx imm =>
    have h' : imm ≤ 31 := by omega
    exact ⟨_, ⟨h', rfl⟩, by simp only [exec, execKidx, h', if_true, complete]⟩
  case ldkey ra =>
    obtain ⟨kp, hk⟩ := keyParts_of_length_eq h.1 h.2
    exact ⟨_, ⟨kp, hk, rfl⟩, by simp only [exec, execLdkey, hk, complete]⟩
  case encb rd ra rb =>
    exact ⟨_, ⟨h.1, h.2, rfl⟩, by
      simp only [exec, execEncb, checkBlock, length_readB, h.1, h.2, if_true, complete]⟩
  case decb rd ra rb =>
    exact ⟨_, ⟨h.1, h.2, rfl⟩, by
      simp only [exec, execDecb, checkBlock, length_readB, h.1, h.2, if_true, complete]⟩
  case enc rd ra rb =>
    obtain ⟨h1, h2, h3, h4⟩ := h
    obtain ⟨v, hv⟩ := (textMapped_iff _ _).mp h1
    obtain ⟨kp, hk⟩ := keyParts_of_length_eq h2 h3
    have hl := length_textToBits hv
    rw [length_readT] at hl
    rcases processMessage_cases s.tables (encryptBlock s.tables) v (s.readT rb) with ⟨e, hk', -⟩ | ⟨_, -, h0, -⟩ | ⟨m, hm, he⟩
    · rw [hk] at hk'; simp at hk'
    · omega
    · exact ⟨_, ⟨v, m, hv, hm, rfl⟩, by simp only [exec, execEnc, encryptMessage, hv, he, complete]⟩
  case dec rd ra rb =>
    obtain ⟨h2, h3, h4⟩ := h
    obtain ⟨kp, hk⟩ := keyParts_of_length_eq h2 h3
    rcases processMessage_cases s.tables (decryptBlock s.tables) (s.readB ra) (s.readT rb)
      with ⟨e, hk', -⟩ | ⟨_, -, h0, -⟩ | ⟨m, hm, he⟩
    · rw [hk] at hk'; simp at hk'
    · rw [length_readB] at h0; omega
    · exact ⟨_, ⟨m, hm, rfl⟩, by simp only [exec, execDec, decryptMessage, he, complete]⟩

/-- The same, the answer first. -/
theorem exec_completes {i : Instr} {s : State} (h : NoneFailed (checks i s)) : ∃ t, exec i s = .next t ∧ Completed i s t := by
  obtain ⟨t, ht, he⟩ := exec_of_noneFailed i s h
  exact ⟨t, he, ht⟩

/-- When a check of R281 fails, the command takes the fault of the first one that does. -/
theorem exec_of_firstFailed (i : Instr) (s : State) (c : FaultCode) (h : FirstFailed (checks i s) c) :
    exec i s = .next (takeFault c s) := by
  cases i <;> simp only [checks, FirstFailed, and_false, or_false] at h
  case codeof => obtain ⟨h, rfl⟩ := h; simp [exec, execCodeof, codeOf_of_not_mapped h, raise]
  case symof =>
    obtain ⟨h, rfl⟩ := h
    simp [exec, execSymof, show ¬ s.res.toNat ≤ 255 by omega, raise]
  case t2b rd ra => obtain ⟨h, rfl⟩ := h; simp [exec, execT2b, textToBits_of_not_textMapped h, raise]
  case b2t rd ra => obtain ⟨h, rfl⟩ := h; simp only [exec, execB2t, length_readB, if_neg h, raise]
  case xor rd ra rb => obtain ⟨h, rfl⟩ := h; simp only [exec, execXor, xorChecked, length_readB, if_neg h, raise]
  case dec8 ra => obtain ⟨h, rfl⟩ := h; simp only [exec, execDec8, length_readB, if_neg h, raise]
  case rotl11 rd ra => obtain ⟨h, rfl⟩ := h; simp only [exec, execRotl11, length_readB, if_neg h, raise]
  case split ra imm =>
    rcases h with ⟨h, rfl⟩ | ⟨h1, h, rfl⟩
    · have : ¬ (1 ≤ imm ∧ imm ≤ 2048) := by omega
      simp only [exec, execSplit, if_neg this, raise]
    · have : 1 ≤ imm ∧ imm ≤ 2048 := by omega
      simp only [exec, execSplit, if_pos this, length_readB, if_neg (Nat.not_le_of_lt h), raise]
  case join rd =>
    obtain ⟨h, rfl⟩ := h
    have : s.readQ = [] := by rw [← List.length_eq_zero_iff, length_readQ, h]
    simp only [exec, execJoin, this, join, raise]
  case getq rd imm =>
    obtain ⟨h, rfl⟩ := h
    have : s.readQ[imm]? = none := List.getElem?_eq_none_iff.mpr (by rw [length_readQ]; exact h)
    simp only [exec, execGetq, this, raise]
  case subst rd ra => obtain ⟨h, rfl⟩ := h; simp only [exec, execSubst, length_readB, if_neg h, raise]
  case frnd rd ra rb =>
    rcases h with ⟨h, rfl⟩ | ⟨h1, h, rfl⟩
    · simp only [exec, execFrnd, length_readB, if_neg h, raise]
    · simp only [exec, execFrnd, length_readB, if_pos (not_not.mp h1), if_neg h, raise]
  case kidx imm =>
    obtain ⟨h, rfl⟩ := h
    simp only [exec, execKidx, if_neg (show ¬ imm ≤ 31 by omega), raise]
  case ldkey ra =>
    rcases h with ⟨h, rfl⟩ | ⟨h1, h, rfl⟩
    · simp only [exec, execLdkey, keyParts_of_not_textMapped h, raise]
    · simp only [exec, execLdkey, keyParts_of_length_ne (not_not.mp h1) h, raise]
  case encb rd ra rb =>
    rcases h with ⟨h, rfl⟩ | ⟨h1, h, rfl⟩
    · simp only [exec, execEncb, checkBlock, length_readB, if_neg h, raise]
    · simp only [exec, execEncb, checkBlock, length_readB, if_pos (not_not.mp h1), if_neg h, raise]
  case decb rd ra rb =>
    rcases h with ⟨h, rfl⟩ | ⟨h1, h, rfl⟩
    · simp only [exec, execDecb, checkBlock, length_readB, if_neg h, raise]
    · simp only [exec, execDecb, checkBlock, length_readB, if_pos (not_not.mp h1), if_neg h, raise]
  case enc rd ra rb =>
    rcases h with ⟨h, rfl⟩ | ⟨h1, ⟨h, rfl⟩ | ⟨h2, ⟨h, rfl⟩ | ⟨h3, h, rfl⟩⟩⟩
    · simp only [exec, execEnc, encryptMessage, textToBits_of_not_textMapped h, raise]
    · obtain ⟨v, hv⟩ := (textMapped_iff _ _).mp (not_not.mp h1)
      simp only [exec, execEnc, encryptMessage, hv, processMessage, keyParts_of_not_textMapped h, raise]
    · obtain ⟨v, hv⟩ := (textMapped_iff _ _).mp (not_not.mp h1)
      simp only [exec, execEnc, encryptMessage, hv, processMessage, keyParts_of_length_ne (not_not.mp h2) h, raise]
    · obtain ⟨v, hv⟩ := (textMapped_iff _ _).mp (not_not.mp h1)
      obtain ⟨kp, hk⟩ := keyParts_of_length_eq (not_not.mp h2) (not_not.mp h3)
      have hl := length_textToBits hv
      rw [length_readT, h] at hl
      have hs : splitFixed v 64 = [] := by
        rw [← List.length_eq_zero_iff, length_splitFixed, hl]; rfl
      simp only [exec, execEnc, encryptMessage, hv, processMessage, hk, hs, mapBlocks, join, raise]
  case dec rd ra rb =>
    rcases h with ⟨h, rfl⟩ | ⟨h2, ⟨h, rfl⟩ | ⟨h3, h, rfl⟩⟩
    · simp only [exec, execDec, decryptMessage, processMessage, keyParts_of_not_textMapped h, raise]
    · simp only [exec, execDec, decryptMessage, processMessage, keyParts_of_length_ne (not_not.mp h2) h, raise]
    · obtain ⟨kp, hk⟩ := keyParts_of_length_eq (not_not.mp h2) (not_not.mp h3)
      have hs : splitFixed (s.readB ra) 64 = [] := by
        rw [← List.length_eq_zero_iff, length_splitFixed, length_readB, h]; rfl
      simp only [exec, execDec, decryptMessage, processMessage, hk, hs, mapBlocks, join, raise]

theorem failed_cases (l : List (FaultCode × Prop)) : NoneFailed l ∨ ∃ c, FirstFailed l c := by
  induction l with
  | nil => exact .inl trivial
  | cons a l ih =>
    obtain ⟨c, p⟩ := a
    by_cases hp : p
    · exact .inr ⟨c, .inl ⟨hp, rfl⟩⟩
    · rcases ih with h | ⟨c', h⟩
      · exact .inl ⟨hp, h⟩
      · exact .inr ⟨c', .inr ⟨hp, h⟩⟩

/-- Everything a command can do: take the fault of its first failed check, or complete with the writes of its rule. -/
theorem exec_cases (i : Instr) (s : State) :
    (∃ c, FirstFailed (checks i s) c ∧ exec i s = .next (takeFault c s))
    ∨ (NoneFailed (checks i s) ∧ ∃ t, Completed i s t ∧ exec i s = .next t) := by
  rcases failed_cases (checks i s) with h | ⟨c, h⟩
  · exact .inr ⟨h, exec_of_noneFailed i s h⟩
  · exact .inl ⟨c, h, exec_of_firstFailed i s c h⟩

/-- The same, from an answer: a next state is a fault entry or a completion. -/
theorem exec_next_cases {i : Instr} {s t : State} (h : exec i s = .next t) :
    (∃ c, FirstFailed (checks i s) c ∧ t = takeFault c s) ∨ (NoneFailed (checks i s) ∧ Completed i s t) := by
  rcases exec_cases i s with ⟨c, hc, he⟩ | ⟨hn, t', ht, he⟩
  · rw [he] at h; injection h with h; exact .inl ⟨c, hc, h.symm⟩
  · rw [he] at h; injection h with h; exact .inr ⟨hn, h ▸ ht⟩

/-- A completed command leaves ERR, FAULT, the tables, the pending accesses and the reply as they were (R95). -/
theorem Completed.keeps {i : Instr} {s t : State} (h : Completed i s t) :
    t.err = s.err ∧ t.fault = s.fault ∧ t.tables = s.tables ∧ t.input = s.input ∧ t.reply = s.reply := by
  cases i <;> simp only [Completed] at h
  case codeof => obtain ⟨_, -, rfl⟩ := h; simp
  case symof => obtain ⟨-, rfl⟩ := h; simp
  case t2b => obtain ⟨_, -, rfl⟩ := h; simp
  case b2t => obtain ⟨-, rfl⟩ := h; simp
  case xor => obtain ⟨-, rfl⟩ := h; simp
  case dec8 => obtain ⟨-, rfl⟩ := h; simp
  case rotl11 => obtain ⟨-, rfl⟩ := h; simp
  case split => obtain ⟨-, -, -, rfl⟩ := h; simp
  case join => obtain ⟨-, rfl⟩ := h; simp
  case getq => obtain ⟨-, rfl⟩ := h; simp
  case subst => obtain ⟨-, rfl⟩ := h; simp
  case frnd => obtain ⟨-, -, rfl⟩ := h; simp
  case kidx => obtain ⟨-, rfl⟩ := h; simp
  case ldkey => obtain ⟨_, -, rfl⟩ := h; simp
  case encb => obtain ⟨-, -, rfl⟩ := h; simp
  case decb => obtain ⟨-, -, rfl⟩ := h; simp
  case enc => obtain ⟨_, _, -, -, rfl⟩ := h; simp
  case dec => obtain ⟨_, -, rfl⟩ := h; simp

end Sys2Proof.Machine
end

