-- ==== Sys2Proof/Laws/Inv.lean ====
section
/-! SUPPORT. What each shared operation keeps of the invariants `State.Inv` and `State.WorkInv`, and what a completed
command keeps of them and writes (R20, R28, R41). -/

namespace Sys2Proof.Machine

/-! ### State.Inv, operation by operation -/

namespace State.Inv

variable {s : State}

theorem len_le (h : s.Inv) (n : BSel) : s.b[n].len ≤ 2048 := h.b_inv n

theorem tlen_le (h : s.Inv) (n : TSel) : s.t[n].len ≤ 256 := h.t_inv n

theorem q_fits (h : s.Inv) : s.q.cnt * s.q.ps ≤ 2048 := by rw [Nat.mul_comm]; exact h.q_inv.fits

theorem setB (h : s.Inv) (n : BSel) (r : BitReg) (hr : r.Inv) : ({ s with b := s.b.set n.val r n.isLt } : State).Inv where
  b_inv m := by
    by_cases e : m = n
    · subst e; simpa using hr
    · show BitReg.Inv ((s.b.set n.val r n.isLt)[m]); rw [getElem_set_ne _ _ _ _ e]; exact h.b_inv m
  t_inv := h.t_inv
  q_inv := h.q_inv
  rnd_le := h.rnd_le
  bidx_le := h.bidx_le
  nblk_le := h.nblk_le
  err_le := h.err_le
  err_zero_iff := h.err_zero_iff
  sentinel_eq := h.sentinel_eq

theorem setT (h : s.Inv) (n : TSel) (r : TextReg) (hr : r.Inv) : ({ s with t := s.t.set n.val r n.isLt } : State).Inv where
  b_inv := h.b_inv
  t_inv m := by
    by_cases e : m = n
    · subst e; simpa using hr
    · show TextReg.Inv ((s.t.set n.val r n.isLt)[m]); rw [getElem_set_ne _ _ _ _ e]; exact h.t_inv m
  q_inv := h.q_inv
  rnd_le := h.rnd_le
  bidx_le := h.bidx_le
  nblk_le := h.nblk_le
  err_le := h.err_le
  err_zero_iff := h.err_zero_iff
  sentinel_eq := h.sentinel_eq

theorem writeB (h : s.Inv) (n : BSel) {v : Bits} (hv : v.length ≤ 2048) : (s.writeB n v).Inv := h.setB n _ hv

theorem writeT (h : s.Inv) (n : TSel) {v : Text} (hv : v.length ≤ 256) : (s.writeT n v).Inv := h.setT n _ hv

theorem writeRes (h : s.Inv) (v : Word) : (s.writeRes v).Inv :=
  ⟨h.b_inv, h.t_inv, h.q_inv, h.rnd_le, h.bidx_le, h.nblk_le, h.err_le, h.err_zero_iff, h.sentinel_eq⟩

theorem writeQ (h : s.Inv) {p : Nat} {q : BitSeq} (hp : 1 ≤ p) (hp' : p ≤ 2048) (hq : ∀ c ∈ q, c.length = p)
    (hf : q.length * p ≤ 2048) : (s.writeQ p q).Inv where
  b_inv := h.b_inv
  t_inv := h.t_inv
  q_inv := {
    ps_le := hp'
    cnt_le := (Nat.le_mul_of_pos_right _ hp).trans hf
    fits := by rw [Nat.mul_comm]; exact hf
    tail_zero := by
      intro i hi
      have hl := length_flatten_of_forall hq
      simp only [State.writeQ_q] at hi ⊢
      rw [Nat.mul_comm] at hi
      rw [getMsbD_packBits _ (by omega), List.getD_eq_getElem?_getD, List.getElem?_eq_none_iff.mpr (by omega)]; rfl }
  rnd_le := h.rnd_le
  bidx_le := h.bidx_le
  nblk_le := h.nblk_le
  err_le := h.err_le
  err_zero_iff := h.err_zero_iff
  sentinel_eq := h.sentinel_eq

theorem writeKeys (h : s.Inv) (kp : BitSeq) : (s.writeKeys kp).Inv :=
  ⟨h.b_inv, h.t_inv, h.q_inv, h.rnd_le, h.bidx_le, h.nblk_le, h.err_le, h.err_zero_iff, h.sentinel_eq⟩

theorem writeHalves (h : s.Inv) (c : Bits) : (s.writeHalves c).Inv :=
  ⟨h.b_inv, h.t_inv, h.q_inv, Nat.le_refl _, h.bidx_le, h.nblk_le, h.err_le, h.err_zero_iff, h.sentinel_eq⟩

theorem writeBlock (h : s.Inv) (n : BSel) {c : Bits} (hc : c.length = 64) : (s.writeBlock n c).Inv :=
  (h.writeB n (by omega)).writeHalves c

theorem writeMessage (h : s.Inv) {m : Message} {last : Nat} (hb : ∀ c ∈ m.blocks, c.length = 64)
    (hn : m.blocks.length ≤ 32) (hl : last ≤ 31) : (s.writeMessage m last).Inv := by
  have h1 := ((h.writeQ (p := 64) (by omega) (by omega) hb (by omega)).writeKeys m.keys).writeHalves (m.blocks.getD last [])
  exact ⟨h1.b_inv, h1.t_inv, h1.q_inv, h1.rnd_le, hl, hn, h1.err_le, h1.err_zero_iff, h1.sentinel_eq⟩

theorem takeFault (h : s.Inv) (c : FaultCode) : (Machine.takeFault c s).Inv := by
  unfold Machine.takeFault
  split
  · exact h
  · refine ⟨h.b_inv, h.t_inv, h.q_inv, h.rnd_le, h.bidx_le, h.nblk_le, ?_, ?_, h.sentinel_eq⟩
    · show c.code.toNat ≤ 8; cases c <;> decide
    · cases c <;> simp [FaultCode.code]

/-- The reset values meet every range, whatever admissible tables with SENTINEL 0x30 stand beside them. -/
theorem reset_with {T : Tables} (hT : T.sentinel = 0x30#32) (inp : List HostAccess) :
    ({ State.reset with tables := T, input := inp } : State).Inv where
  b_inv n := by
    show BitReg.Inv (State.reset.b[n])
    simp [State.reset, BitReg.Inv, BitReg.empty]
  t_inv n := by
    show TextReg.Inv (State.reset.t[n])
    simp [State.reset, TextReg.Inv, TextReg.empty]
  q_inv := ⟨Nat.zero_le _, Nat.zero_le _, Nat.zero_le _, fun i _ => by simp [State.reset, SeqReg.empty, BitVec.getMsbD]⟩
  rnd_le := Nat.zero_le _
  bidx_le := Nat.zero_le _
  nblk_le := Nat.zero_le _
  err_le := Nat.zero_le _
  err_zero_iff := ⟨fun _ => rfl, fun _ => rfl⟩
  sentinel_eq := hT

theorem resetEvent (h : s.Inv) : (Machine.resetEvent s).Inv := reset_with h.sentinel_eq _

/-- The model's own two fields take no part in the invariant. -/
theorem setPort (h : s.Inv) (inp : List HostAccess) (r : Option Word) : ({ s with input := inp, reply := r } : State).Inv :=
  ⟨h.b_inv, h.t_inv, h.q_inv, h.rnd_le, h.bidx_le, h.nblk_le, h.err_le, h.err_zero_iff, h.sentinel_eq⟩

theorem setReply (h : s.Inv) (r : Option Word) : ({ s with reply := r } : State).Inv :=
  ⟨h.b_inv, h.t_inv, h.q_inv, h.rnd_le, h.bidx_le, h.nblk_le, h.err_le, h.err_zero_iff, h.sentinel_eq⟩

theorem memRead (h : s.Inv) (a : Addr) : (Machine.memRead a s).Inv := by
  unfold Machine.memRead
  split
  · exact h.setReply _
  · exact (h.takeFault _).setReply _

theorem mapWrite (h : s.Inv) (r : MapReg) (v : Word) : (Machine.mapWrite r v s).Inv := by
  cases r <;> simp only [Machine.mapWrite]
  case res => exact h.writeRes v
  case blen n =>
    unfold writeBLen; split
    · rename_i hv; exact h.setB n _ hv
    · exact h.takeFault _
  case tlen n =>
    unfold writeTLen; split
    · rename_i hv; exact h.setT n _ hv
    · exact h.takeFault _
  case bdata n w => exact h.setB n _ (h.b_inv n)
  case tdata n i => exact h.setT n _ (h.t_inv n)
  all_goals exact h.takeFault _

end State.Inv

/-! ### Sizes of what the commands write -/

theorem ceilDiv_le {n p k : Nat} (hp : 1 ≤ p) (h : n ≤ k * p) : ceilDiv n p ≤ k := by
  have h1 := ceilDiv_mul_lt n p hp
  by_contra hc
  have h2 : (k + 1) * p ≤ ceilDiv n p * p := Nat.mul_le_mul_right p (by omega)
  rw [Nat.succ_mul] at h2
  omega

theorem Message.Of.length_blocks_le {T : Tables} {f : Bits → Bits → Bits} {v : Bits} {key : Text} {m : Message}
    (h : Message.Of T f v key m) (hv : v.length ≤ 2048) : m.blocks.length ≤ 32 := by
  rw [h.length_blocks]; exact ceilDiv_le (by omega) (by omega)

theorem Message.Of.blocks_pos {T : Tables} {f : Bits → Bits → Bits} {v : Bits} {key : Text} {m : Message}
    (h : Message.Of T f v key m) : 0 < m.blocks.length := by
  rw [h.length_blocks]; exact (ceilDiv_pos (by omega)).mpr h.input_pos

/-! ### A completed command -/

/-- A completed command keeps every range (R20, R28, R240). -/
theorem Completed.inv {i : Instr} {s t : State} (h : Completed i s t) (hi : s.Inv) : t.Inv := by
  cases i <;> simp only [Completed] at h
  case codeof => obtain ⟨_, -, rfl⟩ := h; exact hi.writeRes _
  case symof => obtain ⟨-, rfl⟩ := h; exact hi.writeRes _
  case t2b rd ra =>
    obtain ⟨v, hv, rfl⟩ := h
    have := length_textToBits hv
    rw [length_readT] at this
    have := hi.tlen_le ra
    exact hi.writeB _ (by omega)
  case b2t rd ra =>
    obtain ⟨-, rfl⟩ := h
    have h1 := length_bitsToText_le s.tables (s.readB ra)
    rw [length_readB] at h1
    have := hi.len_le ra
    exact hi.writeT _ (by omega)
  case xor rd ra rb =>
    obtain ⟨e, rfl⟩ := h
    have := hi.len_le ra
    exact hi.writeB _ (by rw [length_xorBits, length_readB, length_readB]; omega)
  case dec8 => obtain ⟨-, rfl⟩ := h; exact hi.writeRes _
  case rotl11 rd ra => obtain ⟨e, rfl⟩ := h; exact hi.writeB _ (by rw [length_rotl11, length_readB]; omega)
  case split ra imm =>
    obtain ⟨h1, h2, h3, rfl⟩ := h
    exact hi.writeQ h1 h2 (fun c hc => length_of_mem_splitFixed h1 hc) (by rw [length_splitFixed, length_readB]; exact h3)
  case join rd =>
    obtain ⟨-, rfl⟩ := h
    have := hi.q_fits
    exact hi.writeB _ (by rw [flatten_readQ, length_storeSlice]; exact this)
  case getq rd imm =>
    obtain ⟨-, rfl⟩ := h
    exact hi.writeB _ (by rw [length_storeSlice]; exact hi.q_inv.ps_le)
  case subst => obtain ⟨-, rfl⟩ := h; exact hi.writeB _ (by rw [length_subst]; omega)
  case frnd => obtain ⟨-, -, rfl⟩ := h; exact hi.writeB _ (by rw [length_roundF]; omega)
  case kidx => obtain ⟨-, rfl⟩ := h; exact hi.writeRes _
  case ldkey => obtain ⟨_, -, rfl⟩ := h; exact hi.writeKeys _
  case encb rd ra rb =>
    obtain ⟨h1, -, rfl⟩ := h
    exact hi.writeBlock _ (length_encryptBlock _ _ _ (by rw [length_readB, h1]))
  case decb rd ra rb =>
    obtain ⟨h1, -, rfl⟩ := h
    exact hi.writeBlock _ (length_decryptBlock _ _ _ (by rw [length_readB, h1]))
  case enc rd ra rb =>
    obtain ⟨v, m, hv, hm, rfl⟩ := h
    have hl := length_textToBits hv
    rw [length_readT] at hl
    have ht := hi.tlen_le ra
    have hn := hm.length_blocks_le (by omega)
    have hb := hm.length_bits (keepsBlockLength_encryptBlock _)
    rw [← hm.length_blocks] at hb
    exact (hi.writeB _ (by omega)).writeMessage (hm.length_block (keepsBlockLength_encryptBlock _)) hn (by omega)
  case dec rd ra rb =>
    obtain ⟨m, hm, rfl⟩ := h
    have ht := hi.len_le ra
    have hn := hm.length_blocks_le (by rw [length_readB]; exact ht)
    have hb := hm.length_bits (keepsBlockLength_decryptBlock _)
    rw [← hm.length_blocks] at hb
    have hx := length_bitsToText_le s.tables m.bits
    exact (hi.writeT _ (by omega)).writeMessage (hm.length_block (keepsBlockLength_decryptBlock _)) hn (by omega)

theorem onlyB_set (s : State) (n : BSel) (r : BitReg) {t : State} (h : t.b = s.b.set n.val r n.isLt) : OnlyB n s t := by
  intro m hm
  rw [h]; exact getElem_set_ne _ _ _ _ hm

theorem onlyT_set (s : State) (n : TSel) (r : TextReg) {t : State} (h : t.t = s.t.set n.val r n.isLt) : OnlyT n s t := by
  intro m hm
  rw [h]; exact getElem_set_ne _ _ _ _ hm

/-- A completed command writes only what the table of R41 lists for it. -/
theorem Completed.writesOnly {i : Instr} {s t : State} (h : Completed i s t) : WritesOnly i s t := by
  cases i <;> simp only [Completed] at h <;> simp only [WritesOnly]
  case codeof => obtain ⟨_, -, rfl⟩ := h; rfl
  case symof => obtain ⟨-, rfl⟩ := h; rfl
  case t2b => obtain ⟨_, -, rfl⟩ := h; exact ⟨onlyB_set _ _ _ rfl, rfl⟩
  case b2t => obtain ⟨-, rfl⟩ := h; exact ⟨onlyT_set _ _ _ rfl, rfl⟩
  case xor => obtain ⟨-, rfl⟩ := h; exact ⟨onlyB_set _ _ _ rfl, rfl⟩
  case dec8 => obtain ⟨-, rfl⟩ := h; rfl
  case rotl11 => obtain ⟨-, rfl⟩ := h; exact ⟨onlyB_set _ _ _ rfl, rfl⟩
  case split => obtain ⟨-, -, -, rfl⟩ := h; rfl
  case join => obtain ⟨-, rfl⟩ := h; exact ⟨onlyB_set _ _ _ rfl, rfl⟩
  case getq => obtain ⟨-, rfl⟩ := h; exact ⟨onlyB_set _ _ _ rfl, rfl⟩
  case subst => obtain ⟨-, rfl⟩ := h; exact ⟨onlyB_set _ _ _ rfl, rfl⟩
  case frnd => obtain ⟨-, -, rfl⟩ := h; exact ⟨onlyB_set _ _ _ rfl, rfl⟩
  case kidx => obtain ⟨-, rfl⟩ := h; rfl
  case ldkey => obtain ⟨_, -, rfl⟩ := h; rfl
  case encb => obtain ⟨-, -, rfl⟩ := h; exact ⟨onlyB_set _ _ _ rfl, rfl⟩
  case decb => obtain ⟨-, -, rfl⟩ := h; exact ⟨onlyB_set _ _ _ rfl, rfl⟩
  case enc => obtain ⟨_, _, -, -, rfl⟩ := h; exact ⟨onlyB_set _ _ _ rfl, rfl⟩
  case dec => obtain ⟨_, -, rfl⟩ := h; exact ⟨onlyT_set _ _ _ rfl, rfl⟩

/-! ### State.WorkInv -/

/-- The working registers of two states agree. -/
def SameWork (s t : State) : Prop :=
  t.k = s.k ∧ t.kvalid = s.kvalid ∧ t.lreg = s.lreg ∧ t.rreg = s.rreg ∧ t.rnd = s.rnd ∧ t.bidx = s.bidx ∧ t.nblk = s.nblk

theorem State.WorkInv.same {s t : State} (h : s.WorkInv) (e : SameWork s t) : t.WorkInv := by
  obtain ⟨e1, e2, e3, e4, e5, e6, e7⟩ := e
  refine ⟨?_, ?_, ?_, ?_⟩
  · rw [e1, e2, e7]; exact h.no_key
  · rw [e6, e7]; exact h.no_message
  · rw [e6, e7]; exact h.index_lt
  · rw [e3, e4, e5, e7]; exact h.rounds_done

theorem State.WorkInv.reset_with (T : Tables) (inp : List HostAccess) :
    ({ State.reset with tables := T, input := inp } : State).WorkInv :=
  ⟨fun _ => ⟨fun k => by show State.reset.k[k] = _; simp [State.reset], rfl⟩, fun _ => rfl,
    fun h => absurd h (Nat.lt_irrefl 0), .inr ⟨rfl, rfl, rfl, rfl⟩⟩

/-- A completed command keeps the working registers consistent (R31, R32). -/
theorem Completed.workInv {i : Instr} {s t : State} (h : Completed i s t) (hw : s.WorkInv) : t.WorkInv := by
  have hwo := h.writesOnly
  cases i <;> simp only [Completed] at h
  case ldkey =>
    obtain ⟨_, -, rfl⟩ := h
    exact ⟨fun e => by simp at e, hw.no_message, hw.index_lt, hw.rounds_done⟩
  case encb => obtain ⟨-, -, rfl⟩ := h; exact ⟨hw.no_key, hw.no_message, hw.index_lt, .inl rfl⟩
  case decb => obtain ⟨-, -, rfl⟩ := h; exact ⟨hw.no_key, hw.no_message, hw.index_lt, .inl rfl⟩
  case enc =>
    obtain ⟨_, m, -, hm, rfl⟩ := h
    have hp := hm.blocks_pos
    refine ⟨fun e => by simp at e, fun e => ?_, fun _ => ?_, .inl rfl⟩
    · simp only [State.writeMessage_nblk] at e; omega
    · simp only [State.writeMessage_nblk, State.writeMessage_bidx]; omega
  case dec =>
    obtain ⟨m, hm, rfl⟩ := h
    exact ⟨fun e => by simp at e, fun _ => rfl, fun _ => hm.blocks_pos, .inl rfl⟩
  all_goals
    refine hw.same ?_
    simp only [WritesOnly] at hwo
    first
      | (rw [hwo]; exact ⟨rfl, rfl, rfl, rfl, rfl, rfl, rfl⟩)
      | (rw [hwo.2]; exact ⟨rfl, rfl, rfl, rfl, rfl, rfl, rfl⟩)

theorem sameWork_takeFault (c : FaultCode) (s : State) : SameWork s (takeFault c s) := by simp [SameWork]

theorem sameWork_memRead (a : Addr) (s : State) : SameWork s (memRead a s) := by
  unfold memRead; split <;> simp [SameWork]

theorem sameWork_mapWrite (r : MapReg) (v : Word) (s : State) : SameWork s (mapWrite r v s) := by
  cases r <;> simp only [mapWrite]
  case res => exact ⟨rfl, rfl, rfl, rfl, rfl, rfl, rfl⟩
  case blen => unfold writeBLen; split <;> simp [SameWork]
  case tlen => unfold writeTLen; split <;> simp [SameWork]
  case bdata => exact ⟨rfl, rfl, rfl, rfl, rfl, rfl, rfl⟩
  case tdata => exact ⟨rfl, rfl, rfl, rfl, rfl, rfl, rfl⟩
  all_goals exact sameWork_takeFault _ _

end Sys2Proof.Machine
end

