-- ==== Sys2Proof/Laws/Contents.lean ====
section
/-! SUPPORT. What a command's outcome depends on: the contents of the registers it reads, RES and the tables (R22, R25,
R29), and nothing else. `exec_effect` says it once. -/

namespace Sys2Proof.Machine

/-- Two states agree on everything a command can read. -/
structure SameContents (s s' : State) : Prop where
  readB : ∀ n, s'.readB n = s.readB n
  readT : ∀ n, s'.readT n = s.readT n
  readQ : s'.readQ = s.readQ
  res : s'.res = s.res
  tables : s'.tables = s.tables

/-- The writes that a command's outcome is made of. -/
inductive Effect : (State → State) → Prop
  | fault (c : FaultCode) : Effect (takeFault c)
  | res (v : Word) : Effect (·.writeRes v)
  | b (n : BSel) (v : Bits) : Effect (·.writeB n v)
  | t (n : TSel) (v : Text) : Effect (·.writeT n v)
  | q (p : Nat) (seq : BitSeq) : Effect (·.writeQ p seq)
  | keys (kp : BitSeq) : Effect (·.writeKeys kp)
  | halves (c : Bits) : Effect (·.writeHalves c)
  | counts (n j : Nat) : Effect (fun s => { s with nblk := n, bidx := j })
  | comp {f g : State → State} : Effect f → Effect g → Effect (fun s => g (f s))

theorem Effect.block (n : BSel) (c : Bits) : Effect (·.writeBlock n c) := (Effect.b n c).comp (.halves c)

theorem Effect.message (m : Message) (j : Nat) : Effect (·.writeMessage m j) :=
  (((Effect.q 64 m.blocks).comp (.keys m.keys)).comp (.halves (m.blocks.getD j []))).comp (.counts m.blocks.length j)

/-- A command's outcome is one and the same list of writes on all states with the same contents. -/
theorem exec_effect (i : Instr) (s : State) :
    ∃ f, Effect f ∧ ∀ s', SameContents s s' → exec i s' = .next (f s') := by
  cases i
  case codeof =>
    cases h : codeOf s.tables s.res with
    | ok c => exact ⟨_, .res (zext32 c), fun s' a => by simp only [exec, execCodeof, a.res, a.tables, h, complete]⟩
    | error e => exact ⟨_, .fault e, fun s' a => by simp only [exec, execCodeof, a.res, a.tables, h, raise]⟩
  case symof =>
    by_cases h : s.res.toNat ≤ 255
    · exact ⟨_, .res (symbolOf s.tables s.res.toNat), fun s' a => by
        simp only [exec, execSymof, a.res, a.tables, h, if_true, complete]⟩
    · exact ⟨_, .fault .operandError, fun s' a => by simp only [exec, execSymof, a.res, h, if_false, raise]⟩
  case t2b rd ra =>
    cases h : textToBits s.tables (s.readT ra) with
    | ok v => exact ⟨_, .b rd v, fun s' a => by simp only [exec, execT2b, a.readT, a.tables, h, complete]⟩
    | error e => exact ⟨_, .fault e, fun s' a => by simp only [exec, execT2b, a.readT, a.tables, h, raise]⟩
  case b2t rd ra =>
    by_cases h : (s.readB ra).length % 8 = 0
    · exact ⟨_, .t rd (bitsToText s.tables (s.readB ra)), fun s' a => by
        simp only [exec, execB2t, a.readB, a.tables, h, if_true, complete]⟩
    · exact ⟨_, .fault .operandError, fun s' a => by simp only [exec, execB2t, a.readB, h, if_false, raise]⟩
  case xor rd ra rb =>
    cases h : xorChecked (s.readB ra) (s.readB rb) with
    | ok v => exact ⟨_, .b rd v, fun s' a => by simp only [exec, execXor, a.readB, h, complete]⟩
    | error e => exact ⟨_, .fault e, fun s' a => by simp only [exec, execXor, a.readB, h, raise]⟩
  case dec8 ra =>
    by_cases h : (s.readB ra).length = 8
    · exact ⟨_, .res (zext32 (decimalOf (s.readB ra))), fun s' a => by
        simp only [exec, execDec8, a.readB, h, if_true, complete]⟩
    · exact ⟨_, .fault .operandError, fun s' a => by simp only [exec, execDec8, a.readB, h, if_false, raise]⟩
  case rotl11 rd ra =>
    by_cases h : (s.readB ra).length = 32
    · exact ⟨_, .b rd (rotl11 (s.readB ra)), fun s' a => by simp only [exec, execRotl11, a.readB, h, if_true, complete]⟩
    · exact ⟨_, .fault .operandError, fun s' a => by simp only [exec, execRotl11, a.readB, h, if_false, raise]⟩
  case split ra imm =>
    by_cases h : 1 ≤ imm ∧ imm ≤ 2048
    · by_cases h' : ceilDiv (s.readB ra).length imm * imm ≤ 2048
      · exact ⟨_, .q imm (splitFixed (s.readB ra) imm), fun s' a => by
          simp only [exec, execSplit, a.readB, if_pos h, if_pos h', complete]⟩
      · exact ⟨_, .fault .operandError, fun s' a => by
          simp only [exec, execSplit, a.readB, if_pos h, if_neg h', raise]⟩
    · exact ⟨_, .fault .operandError, fun s' a => by simp only [exec, execSplit, if_neg h, raise]⟩
  case join rd =>
    cases h : join s.readQ with
    | ok v => exact ⟨_, .b rd v, fun s' a => by simp only [exec, execJoin, a.readQ, h, complete]⟩
    | error e => exact ⟨_, .fault e, fun s' a => by simp only [exec, execJoin, a.readQ, h, raise]⟩
  case getq rd imm =>
    cases h : s.readQ[imm]? with
    | some c => exact ⟨_, .b rd c, fun s' a => by simp only [exec, execGetq, a.readQ, h, complete]⟩
    | none => exact ⟨_, .fault .operandError, fun s' a => by simp only [exec, execGetq, a.readQ, h, raise]⟩
  case subst rd ra =>
    by_cases h : (s.readB ra).length = 32
    · exact ⟨_, .b rd (subst s.tables (s.readB ra)), fun s' a => by
        simp only [exec, execSubst, a.readB, a.tables, h, if_true, complete]⟩
    · exact ⟨_, .fault .operandError, fun s' a => by simp only [exec, execSubst, a.readB, h, if_false, raise]⟩
  case frnd rd ra rb =>
    by_cases h : (s.readB ra).length = (s.readB rb).length
    · by_cases h' : (s.readB ra).length = 32
      · exact ⟨_, .b rd (roundF s.tables (s.readB ra) (s.readB rb)), fun s' a => by
          simp only [exec, execFrnd, a.readB, a.tables, if_pos h, if_pos h', complete]⟩
      · exact ⟨_, .fault .operandError, fun s' a => by
          simp only [exec, execFrnd, a.readB, if_pos h, if_neg h', raise]⟩
    · exact ⟨_, .fault .lengthMismatch, fun s' a => by simp only [exec, execFrnd, a.readB, if_neg h, raise]⟩
  case kidx imm =>
    by_cases h : imm ≤ 31
    · exact ⟨_, .res (zext32 (keyIndex imm)), fun s' _ => by simp only [exec, execKidx, h, if_true, complete]⟩
    · exact ⟨_, .fault .scheduleRange, fun s' _ => by simp only [exec, execKidx, h, if_false, raise]⟩
  case ldkey ra =>
    cases h : keyParts s.tables (s.readT ra) with
    | ok kp => exact ⟨_, .keys kp, fun s' a => by simp only [exec, execLdkey, a.readT, a.tables, h, complete]⟩
    | error e => exact ⟨_, .fault e, fun s' a => by simp only [exec, execLdkey, a.readT, a.tables, h, raise]⟩
  case encb rd ra rb =>
    cases h : checkBlock (s.readB ra) (s.readB rb) with
    | ok _ => exact ⟨_, .block rd (encryptBlock s.tables (s.readB ra) (s.readB rb)), fun s' a => by
        simp only [exec, execEncb, a.readB, a.tables, h, complete]⟩
    | error e => exact ⟨_, .fault e, fun s' a => by simp only [exec, execEncb, a.readB, h, raise]⟩
  case decb rd ra rb =>
    cases h : checkBlock (s.readB ra) (s.readB rb) with
    | ok _ => exact ⟨_, .block rd (decryptBlock s.tables (s.readB ra) (s.readB rb)), fun s' a => by
        simp only [exec, execDecb, a.readB, a.tables, h, complete]⟩
    | error e => exact ⟨_, .fault e, fun s' a => by simp only [exec, execDecb, a.readB, h, raise]⟩
  case enc rd ra rb =>
    cases h : encryptMessage s.tables (s.readT ra) (s.readT rb) with
    | ok m => exact ⟨_, (Effect.b rd m.bits).comp (.message m (m.blocks.length - 1)), fun s' a => by
        simp only [exec, execEnc, a.readT, a.tables, h, complete]⟩
    | error e => exact ⟨_, .fault e, fun s' a => by simp only [exec, execEnc, a.readT, a.tables, h, raise]⟩
  case dec rd ra rb =>
    cases h : decryptMessage s.tables (s.readB ra) (s.readT rb) with
    | ok m => exact ⟨_, (Effect.t rd (bitsToText s.tables m.bits)).comp (.message m 0), fun s' a => by
        simp only [exec, execDec, a.readB, a.readT, a.tables, h, complete]⟩
    | error e => exact ⟨_, .fault e, fun s' a => by simp only [exec, execDec, a.readB, a.readT, a.tables, h, raise]⟩

/-! ### What every effect keeps -/

/-- The model's own fields play no part in an effect (log 1, log 2). -/
theorem Effect.setPort {f : State → State} (h : Effect f) (s : State) (x : List HostAccess) (r : Option Word) :
    f { s with input := x, reply := r } = { f s with input := x, reply := r } := by
  induction h generalizing s with
  | fault c => unfold takeFault; split <;> rfl
  | @comp f g _ _ ihf ihg => exact (congrArg g (ihf s)).trans (ihg (f s))
  | _ => rfl

/-- A command takes no notice of the model's own fields (log 1, log 2). -/
theorem exec_setPort {i : Instr} {s t : State} (h : exec i s = .next t) (x : List HostAccess) (r : Option Word) :
    exec i { s with input := x, reply := r } = .next { t with input := x, reply := r } := by
  obtain ⟨f, hf, he⟩ := exec_effect i s
  rw [he s ⟨fun _ => rfl, fun _ => rfl, rfl, rfl, rfl⟩] at h
  injection h with h; subst h
  exact (he { s with input := x, reply := r } ⟨fun _ => rfl, fun _ => rfl, rfl, rfl, rfl⟩).trans (congrArg _ (hf.setPort s x r))

theorem readB_setB {s s' t t' : State} (n : BSel) (v : BitReg) (ht : t.b = s.b.set n.val v n.isLt)
    (ht' : t'.b = s'.b.set n.val v n.isLt) (h : ∀ m, s.readB m = s'.readB m) (m : BSel) : t.readB m = t'.readB m := by
  have := h m
  unfold State.readB at this ⊢
  rw [ht, ht']
  by_cases e : m = n
  · subst e; simp
  · rwa [getElem_set_ne _ _ _ _ e, getElem_set_ne _ _ _ _ e]

theorem readT_setT {s s' t t' : State} (n : TSel) (v : TextReg) (ht : t.t = s.t.set n.val v n.isLt)
    (ht' : t'.t = s'.t.set n.val v n.isLt) (h : ∀ m, s.readT m = s'.readT m) (m : TSel) : t.readT m = t'.readT m := by
  have := h m
  unfold State.readT at this ⊢
  rw [ht, ht']
  by_cases e : m = n
  · subst e; simp
  · rwa [getElem_set_ne _ _ _ _ e, getElem_set_ne _ _ _ _ e]

/-- An effect carries states that agree on contents and status to states that do. -/
theorem Effect.agree {f : State → State} (h : Effect f) {s s' : State} (a : AgreeOnContents s s') :
    AgreeOnContents (f s) (f s') := by
  induction h generalizing s s' with
  | fault c =>
    obtain ⟨hb, ht, hq, hr, he, hf, hT⟩ := a
    unfold takeFault
    rw [← hf]
    split
    · exact ⟨hb, ht, hq, hr, he, hf, hT⟩
    · exact ⟨hb, ht, hq, hr, rfl, rfl, hT⟩
  | comp _ _ ihf ihg => exact ihg (ihf a)
  | res v => obtain ⟨hb, ht, hq, hr, he, hf, hT⟩ := a; exact ⟨hb, ht, hq, rfl, he, hf, hT⟩
  | b n v =>
    obtain ⟨hb, ht, hq, hr, he, hf, hT⟩ := a
    exact ⟨readB_setB n _ rfl rfl hb, ht, hq, hr, he, hf, hT⟩
  | t n v =>
    obtain ⟨hb, ht, hq, hr, he, hf, hT⟩ := a
    exact ⟨hb, readT_setT n _ rfl rfl ht, hq, hr, he, hf, hT⟩
  | q p seq => obtain ⟨hb, ht, hq, hr, he, hf, hT⟩ := a; exact ⟨hb, ht, rfl, hr, he, hf, hT⟩
  | _ => exact a

theorem AgreeOnContents.same {s s' : State} (a : AgreeOnContents s s') : SameContents s s' :=
  ⟨fun n => (a.1 n).symm, fun n => (a.2.1 n).symm, a.2.2.1.symm, a.2.2.2.1.symm, a.2.2.2.2.2.2.symm⟩

/-! ### Completion -/

theorem SameContents.len {s s' : State} (a : SameContents s s') (n : BSel) : s'.b[n].len = s.b[n].len := by
  rw [← length_readB s' n, ← length_readB s n, a.readB]

theorem SameContents.tlen {s s' : State} (a : SameContents s s') (n : TSel) : s'.t[n].len = s.t[n].len := by
  rw [← length_readT s' n, ← length_readT s n, a.readT]

theorem SameContents.cnt {s s' : State} (a : SameContents s s') : s'.q.cnt = s.q.cnt := by
  rw [← length_readQ s', ← length_readQ s, a.readQ]

theorem SameContents.textMapped {s s' : State} (a : SameContents s s') (n : TSel) : s'.TextMapped n ↔ s.TextMapped n := by
  rw [textMapped_iff, textMapped_iff, a.readT, a.tables]

/-- The checks of R281 read contents only. -/
theorem SameContents.noneFailed {s s' : State} (a : SameContents s s') (i : Instr) (h : NoneFailed (checks i s)) :
    NoneFailed (checks i s') := by
  cases i <;> simpa only [checks, a.len, a.tlen, a.cnt, a.textMapped, a.res, a.tables] using h

/-- A message-level result is determined by the table, the transform, the input and the key. -/
theorem Message.Of.unique {T : Tables} {f : Bits → Bits → Bits} {v : Bits} {key : Text} {m m' : Message}
    (h : Message.Of T f v key m) (h' : Message.Of T f v key m') : m = m' := by
  have hk : m.keys = m'.keys := by
    have e := h'.keys_ok
    rw [h.keys_ok] at e
    injection e
  have hb : m.blocks = m'.blocks := by rw [h.blocks_eq, h'.blocks_eq, hk]
  have hv : m.bits = m'.bits := by rw [h.bits_eq, h'.bits_eq, hb]
  cases m; cases m'
  simp only at hk hb hv
  rw [hk, hb, hv]

/-- Completed on the same contents, a command leaves the same values in the working registers it writes (R41). -/
theorem Completed.agreeOnWorkWrites {i : Instr} {s s' t t' : State} (a : SameContents s s') (h : Completed i s t)
    (h' : Completed i s' t') : AgreeOnWorkWrites i t t' := by
  cases i
  case ldkey ra =>
    obtain ⟨kp, hk, rfl⟩ := h
    obtain ⟨kp', hk', rfl⟩ := h'
    rw [a.readT, a.tables, hk] at hk'
    injection hk' with e; subst e
    exact ⟨rfl, rfl⟩
  case encb rd ra rb =>
    obtain ⟨-, -, rfl⟩ := h
    obtain ⟨-, -, rfl⟩ := h'
    rw [a.readB, a.readB, a.tables]
    exact ⟨rfl, rfl, rfl⟩
  case decb rd ra rb =>
    obtain ⟨-, -, rfl⟩ := h
    obtain ⟨-, -, rfl⟩ := h'
    rw [a.readB, a.readB, a.tables]
    exact ⟨rfl, rfl, rfl⟩
  case enc rd ra rb =>
    obtain ⟨v, m, hv, hm, rfl⟩ := h
    obtain ⟨v', m', hv', hm', rfl⟩ := h'
    rw [a.readT, a.tables, hv] at hv'
    injection hv' with e; subst e
    rw [a.readT, a.tables] at hm'
    obtain rfl := hm.unique hm'
    exact ⟨rfl, rfl, rfl, rfl, rfl, rfl, rfl⟩
  case dec rd ra rb =>
    obtain ⟨m, hm, rfl⟩ := h
    obtain ⟨m', hm', rfl⟩ := h'
    rw [a.readT, a.readB, a.tables] at hm'
    obtain rfl := hm.unique hm'
    exact ⟨rfl, rfl, rfl, rfl, rfl, rfl, rfl⟩
  all_goals trivial

end Sys2Proof.Machine
end

