-- ==== Sys2Proof/Laws/Decode.lean ====
section
/-! SUPPORT. Laws of the command word (R90, R96, R98, R100): a word is its five fields, a row accepts a word field by
field, and the decoder and the encoder agree. -/

namespace Sys2Proof

/-! ### A word is its fields (R90) -/

theorem packFields_fields (w : Word) :
    packFields (fieldOp w) (fieldRd w) (fieldRa w) (fieldRb w) (fieldImm w) = w := by
  unfold packFields fieldOp fieldRd fieldRa fieldRb fieldImm
  apply BitVec.eq_of_getLsbD_eq
  intro i hi
  simp only [BitVec.getLsbD_append, BitVec.getLsbD_extractLsb']
  split
  · simp_all
  · split
    · have e : 12 + (i - 12) = i := by omega
      simp_all
    · split
      · have e : 16 + (i - 12 - 4) = i := by omega
        simp_all
      · split
        · have e : 20 + (i - 12 - 4 - 4) = i := by omega
          simp_all
        · have e : 24 + (i - 12 - 4 - 4 - 4) = i := by omega
          have a : i - 12 - 4 - 4 - 4 < 8 := by omega
          simp_all

theorem packFields_and (o1 o2 : BitVec 8) (d1 d2 a1 a2 b1 b2 : BitVec 4) (i1 i2 : BitVec 12) :
    packFields o1 d1 a1 b1 i1 &&& packFields o2 d2 a2 b2 i2
      = packFields (o1 &&& o2) (d1 &&& d2) (a1 &&& a2) (b1 &&& b2) (i1 &&& i2) := by
  unfold packFields
  exact (BitVec.and_append).trans (by rw [BitVec.and_append, BitVec.and_append, BitVec.and_append])

section
variable (o : BitVec 8) (d a b : BitVec 4) (m : BitVec 12)

theorem getLsbD_packFields (i : Nat) : (packFields o d a b m).getLsbD i =
    if i < 12 then m.getLsbD i
    else if i - 12 < 4 then b.getLsbD (i - 12)
    else if i - 12 - 4 < 4 then a.getLsbD (i - 12 - 4)
    else if i - 12 - 4 - 4 < 4 then d.getLsbD (i - 12 - 4 - 4)
    else o.getLsbD (i - 12 - 4 - 4 - 4) := by
  unfold packFields
  simp only [BitVec.getLsbD_append]

@[simp] theorem fieldImm_packFields : fieldImm (packFields o d a b m) = m := by
  apply BitVec.eq_of_getLsbD_eq
  intro i hi
  simp only [fieldImm, BitVec.getLsbD_extractLsb', getLsbD_packFields]
  rw [if_pos (by omega)]
  simp [hi]

@[simp] theorem fieldRb_packFields : fieldRb (packFields o d a b m) = b := by
  apply BitVec.eq_of_getLsbD_eq
  intro i hi
  simp only [fieldRb, BitVec.getLsbD_extractLsb', getLsbD_packFields]
  rw [if_neg (by omega), if_pos (by omega), show 12 + i - 12 = i by omega]
  simp [hi]

@[simp] theorem fieldRa_packFields : fieldRa (packFields o d a b m) = a := by
  apply BitVec.eq_of_getLsbD_eq
  intro i hi
  simp only [fieldRa, BitVec.getLsbD_extractLsb', getLsbD_packFields]
  rw [if_neg (by omega), if_neg (by omega), if_pos (by omega), show 16 + i - 12 - 4 = i by omega]
  simp [hi]

@[simp] theorem fieldRd_packFields : fieldRd (packFields o d a b m) = d := by
  apply BitVec.eq_of_getLsbD_eq
  intro i hi
  simp only [fieldRd, BitVec.getLsbD_extractLsb', getLsbD_packFields]
  rw [if_neg (by omega), if_neg (by omega), if_neg (by omega), if_pos (by omega), show 20 + i - 12 - 4 - 4 = i by omega]
  simp [hi]

@[simp] theorem fieldOp_packFields : fieldOp (packFields o d a b m) = o := by
  apply BitVec.eq_of_getLsbD_eq
  intro i hi
  simp only [fieldOp, BitVec.getLsbD_extractLsb', getLsbD_packFields]
  rw [if_neg (by omega), if_neg (by omega), if_neg (by omega), if_neg (by omega),
    show 24 + i - 12 - 4 - 4 - 4 = i by omega]
  simp [hi]

end

theorem packFields_inj {o o' : BitVec 8} {d d' a a' b b' : BitVec 4} {m m' : BitVec 12} :
    packFields o d a b m = packFields o' d' a' b' m' ↔ o = o' ∧ d = d' ∧ a = a' ∧ b = b' ∧ m = m' := by
  constructor
  · intro h
    have h1 := congrArg fieldOp h
    have h2 := congrArg fieldRd h
    have h3 := congrArg fieldRa h
    have h4 := congrArg fieldRb h
    have h5 := congrArg fieldImm h
    simp only [fieldOp_packFields, fieldRd_packFields, fieldRa_packFields, fieldRb_packFields, fieldImm_packFields]
      at h1 h2 h3 h4 h5
    exact ⟨h1, h2, h3, h4, h5⟩
  · rintro ⟨rfl, rfl, rfl, rfl, rfl⟩; rfl

/-! ### The mask of a row, field by field (R96) -/

/-- The mask column of R98 is the mask that R96 describes. -/
theorem maskWord_eq (o : Op) : o.maskWord =
    packFields 0xFF#8 o.uses.1.mask o.uses.2.1.mask o.uses.2.2.1.mask (if o.uses.2.2.2 then 0#12 else 0xFFF#12) := by
  cases o <;> decide

/-- "The match has the opcode in bits 31:24 and zeros elsewhere" (R96). -/
theorem matchWord_eq (o : Op) : o.matchWord = packFields o.opcode 0 0 0 0 := by cases o <;> decide

theorem opcode_injective {o o' : Op} (h : o.opcode = o'.opcode) : o = o' := by
  revert h; cases o <;> cases o' <;> decide

/-- What row `o` asks of the fields of a word (R96). -/
theorem accepts_iff (o : Op) (w : Word) : o.accepts w = true ↔
    fieldOp w = o.opcode ∧ fieldRd w &&& o.uses.1.mask = 0 ∧ fieldRa w &&& o.uses.2.1.mask = 0
      ∧ fieldRb w &&& o.uses.2.2.1.mask = 0 ∧ (o.uses.2.2.2 = false → fieldImm w = 0) := by
  unfold Op.accepts
  rw [beq_iff_eq, maskWord_eq, matchWord_eq]
  conv_lhs => rw [← packFields_fields w, packFields_and, packFields_inj]
  have h1 : fieldOp w &&& 0xFF#8 = fieldOp w := BitVec.and_allOnes (x := fieldOp w)
  have h2 : (fieldImm w &&& if o.uses.2.2.2 then 0#12 else 0xFFF#12) = 0 ↔ (o.uses.2.2.2 = false → fieldImm w = 0) := by
    cases o.uses.2.2.2
    · have : fieldImm w &&& 0xFFF#12 = fieldImm w := BitVec.and_allOnes (x := fieldImm w)
      simp [this]
    · simp
  rw [h1, h2]

/-- "The rows' opcodes differ, so at most one row matches" (R96). -/
theorem accepts_unique {o o' : Op} {w : Word} (h : o.accepts w = true) (h' : o'.accepts w = true) : o = o' :=
  opcode_injective (((accepts_iff o w).mp h).1.symm.trans ((accepts_iff o' w).mp h').1)

theorem mem_all (o : Op) : o ∈ Op.all := by cases o <;> decide

theorem accepts_of_findOp {w : Word} {o : Op} (h : findOp w = some o) : o.accepts w = true := by
  unfold findOp at h
  exact List.find?_some (p := fun o : Op => o.accepts w) h

/-- The decoder finds the row that accepts the word, if there is one (R96). -/
theorem findOp_eq_some_iff (w : Word) (o : Op) : findOp w = some o ↔ o.accepts w = true := by
  constructor
  · exact accepts_of_findOp
  · intro h
    cases hf : findOp w with
    | none =>
      have := List.find?_eq_none.mp hf o (mem_all o)
      exact absurd h this
    | some o' => rw [accepts_unique (accepts_of_findOp hf) h]

theorem decode_eq_ok_iff (w : Word) (i : Instr) : decode w = .ok i ↔ ∃ o : Op, o.accepts w = true ∧ o.build w = i := by
  unfold decode
  cases hf : findOp w with
  | none =>
    simp only [reduceCtorEq, false_iff, not_exists, not_and]
    intro o ho
    rw [(findOp_eq_some_iff w o).mpr ho] at hf; simp at hf
  | some o =>
    have ho := (findOp_eq_some_iff w o).mp hf
    simp only [Except.ok.injEq]
    constructor
    · intro h; exact ⟨o, ho, h⟩
    · rintro ⟨o', ho', h⟩; rwa [accepts_unique ho ho']

/-! ### Specifier and immediate fields -/

@[simp] theorem bsel_bfield (n : BSel) : bsel (bfield n) = n := by revert n; decide
@[simp] theorem tsel_tfield (n : TSel) : tsel (tfield n) = n := by revert n; decide
@[simp] theorem bfield_and (n : BSel) : bfield n &&& 0xC#4 = 0#4 := by revert n; decide
@[simp] theorem tfield_and (n : TSel) : tfield n &&& 0xE#4 = 0#4 := by revert n; decide
theorem bfield_bsel (f : BitVec 4) : f &&& 0xC#4 = 0#4 → bfield (bsel f) = f := by revert f; decide
theorem tfield_tsel (f : BitVec 4) : f &&& 0xE#4 = 0#4 → tfield (tsel f) = f := by revert f; decide
theorem unused_field (f : BitVec 4) : f &&& 0xF#4 = 0#4 → f = 0 := by revert f; decide

theorem immField_toNat {imm : Nat} (h : immFits imm = true) : (immField imm).toNat = imm := by
  simp only [immFits, decide_eq_true_eq] at h
  rw [immField, BitVec.toNat_ofNat]
  exact Nat.mod_eq_of_lt h

theorem immFits_toNat (f : BitVec 12) : immFits f.toNat = true := by
  have := f.isLt
  simp only [immFits, decide_eq_true_eq]; omega

theorem immField_of_toNat (f : BitVec 12) : immField f.toNat = f := by
  simp [immField]

/-- A row whose fields a word carries accepts it, and builds from it. -/
theorem decode_packFields (o : Op) (op : BitVec 8) (d a b : BitVec 4) (m : BitVec 12) (h1 : op = o.opcode)
    (h2 : d &&& o.uses.1.mask = 0) (h3 : a &&& o.uses.2.1.mask = 0) (h4 : b &&& o.uses.2.2.1.mask = 0)
    (h5 : o.uses.2.2.2 = false → m = 0) : decode (packFields op d a b m) = .ok (o.build (packFields op d a b m)) := by
  rw [decode_eq_ok_iff]
  refine ⟨o, ?_, rfl⟩
  rw [accepts_iff]
  simp only [fieldOp_packFields, fieldRd_packFields, fieldRa_packFields, fieldRb_packFields, fieldImm_packFields]
  exact ⟨h1, h2, h3, h4, h5⟩

/-- The other direction, row by row: what a row builds from a word it accepts encodes to that word (R96, R100). -/
theorem encode_build (o : Op) (w : Word) (h : o.accepts w = true) : encode (o.build w) = w := by
  obtain ⟨h1, h2, h3, h4, h5⟩ := (accepts_iff o w).mp h
  have hw := packFields_fields w
  cases o <;> simp only [Op.uses, FieldUse.mask, forall_const, reduceCtorEq, IsEmpty.forall_iff] at h1 h2 h3 h4 h5 <;>
    simp only [Op.build, encode, immField_of_toNat] <;> conv_rhs => rw [← hw]
  all_goals
    rw [packFields_inj]
    refine ⟨h1.symm, ?_, ?_, ?_, ?_⟩ <;> first
      | rfl
      | exact h5.symm
      | exact (unused_field _ h2).symm
      | exact (unused_field _ h3).symm
      | exact (unused_field _ h4).symm
      | exact bfield_bsel _ h2
      | exact bfield_bsel _ h3
      | exact bfield_bsel _ h4
      | exact tfield_tsel _ h2
      | exact tfield_tsel _ h3
      | exact tfield_tsel _ h4

/-- What a row builds is well-formed. -/
theorem build_wellFormed (o : Op) (w : Word) : (o.build w).WellFormed = true := by
  cases o <;> simp only [Op.build, Instr.WellFormed, immFits_toNat]

end Sys2Proof
end

