-- ==== Sys2Proof/Laws/PerInstr.lean ====
section
/-! SUPPORT. The statements that are made per instruction: family RoundTrip, one lemma per constructor of Instr. -/

namespace Sys2Proof.Laws.RoundTrip

/-- The command's word decodes to the command, operands and all (R96, R100). -/
def Statement (i : Instr) : Prop := i.WellFormed = true → decode (encode i) = .ok i

theorem codeof : Statement .codeof := fun _ => by decide
theorem symof : Statement .symof := fun _ => by decide

theorem t2b (rd : BSel) (ra : TSel) : Statement (.t2b rd ra) := fun _ => by
  exact (decode_packFields .t2b _ _ _ _ _ (by decide) (bfield_and rd) (tfield_and ra) rfl (fun _ => rfl)).trans (by simp [Op.build])

theorem b2t (rd : TSel) (ra : BSel) : Statement (.b2t rd ra) := fun _ => by
  exact (decode_packFields .b2t _ _ _ _ _ (by decide) (tfield_and rd) (bfield_and ra) rfl (fun _ => rfl)).trans (by simp [Op.build])

theorem xor (rd ra rb : BSel) : Statement (.xor rd ra rb) := fun _ => by
  exact (decode_packFields .xor _ _ _ _ _ (by decide) (bfield_and rd) (bfield_and ra) (bfield_and rb) (fun _ => rfl)).trans (by simp [Op.build])

theorem dec8 (ra : BSel) : Statement (.dec8 ra) := fun _ => by
  exact (decode_packFields .dec8 _ _ _ _ _ (by decide) rfl (bfield_and ra) rfl (fun _ => rfl)).trans (by simp [Op.build])

theorem rotl11 (rd ra : BSel) : Statement (.rotl11 rd ra) := fun _ => by
  exact (decode_packFields .rotl11 _ _ _ _ _ (by decide) (bfield_and rd) (bfield_and ra) rfl (fun _ => rfl)).trans (by simp [Op.build])

theorem split (ra : BSel) (imm : Nat) : Statement (.split ra imm) := fun h => by
  exact (decode_packFields .split _ _ _ _ _ (by decide) rfl (bfield_and ra) rfl (fun h => nomatch h)).trans (by
    simp [Op.build, immField_toNat (show immFits imm = true from h)])

theorem join (rd : BSel) : Statement (.join rd) := fun _ => by
  exact (decode_packFields .join _ _ _ _ _ (by decide) (bfield_and rd) rfl rfl (fun _ => rfl)).trans (by simp [Op.build])

theorem getq (rd : BSel) (imm : Nat) : Statement (.getq rd imm) := fun h => by
  exact (decode_packFields .getq _ _ _ _ _ (by decide) (bfield_and rd) rfl rfl (fun h => nomatch h)).trans (by
    simp [Op.build, immField_toNat (show immFits imm = true from h)])

theorem subst (rd ra : BSel) : Statement (.subst rd ra) := fun _ => by
  exact (decode_packFields .subst _ _ _ _ _ (by decide) (bfield_and rd) (bfield_and ra) rfl (fun _ => rfl)).trans (by simp [Op.build])

theorem frnd (rd ra rb : BSel) : Statement (.frnd rd ra rb) := fun _ => by
  exact (decode_packFields .frnd _ _ _ _ _ (by decide) (bfield_and rd) (bfield_and ra) (bfield_and rb) (fun _ => rfl)).trans (by simp [Op.build])

theorem kidx (imm : Nat) : Statement (.kidx imm) := fun h => by
  exact (decode_packFields .kidx _ _ _ _ _ (by decide) rfl rfl rfl (fun h => nomatch h)).trans (by
    simp [Op.build, immField_toNat (show immFits imm = true from h)])

theorem ldkey (ra : TSel) : Statement (.ldkey ra) := fun _ => by
  exact (decode_packFields .ldkey _ _ _ _ _ (by decide) rfl (tfield_and ra) rfl (fun _ => rfl)).trans (by simp [Op.build])

theorem encb (rd ra rb : BSel) : Statement (.encb rd ra rb) := fun _ => by
  exact (decode_packFields .encb _ _ _ _ _ (by decide) (bfield_and rd) (bfield_and ra) (bfield_and rb) (fun _ => rfl)).trans (by simp [Op.build])

theorem decb (rd ra rb : BSel) : Statement (.decb rd ra rb) := fun _ => by
  exact (decode_packFields .decb _ _ _ _ _ (by decide) (bfield_and rd) (bfield_and ra) (bfield_and rb) (fun _ => rfl)).trans (by simp [Op.build])

theorem enc (rd : BSel) (ra rb : TSel) : Statement (.enc rd ra rb) := fun _ => by
  exact (decode_packFields .enc _ _ _ _ _ (by decide) (bfield_and rd) (tfield_and ra) (tfield_and rb) (fun _ => rfl)).trans (by simp [Op.build])

theorem dec (rd : TSel) (ra : BSel) (rb : TSel) : Statement (.dec rd ra rb) := fun _ => by
  exact (decode_packFields .dec _ _ _ _ _ (by decide) (tfield_and rd) (bfield_and ra) (tfield_and rb) (fun _ => rfl)).trans (by simp [Op.build])

end Sys2Proof.Laws.RoundTrip
end

