-- ==== Sys2Proof/Laws/Port.lean ====
section
/-! SUPPORT. Laws of the host port (R61 to R69): the register map address by address, and what each access and each step
can do. -/

namespace Sys2Proof.Machine

/-! ### The register map (R61) -/

theorem toNat_addr {a : Nat} (h : a < 4096) : (BitVec.ofNat 12 a).toNat = a := by
  rw [BitVec.toNat_ofNat]; exact Nat.mod_eq_of_lt h

theorem addr_eq {a : Addr} {m : Nat} (h : a.toNat = m) : BitVec.ofNat 12 m = a := by
  apply BitVec.eq_of_toNat_eq
  have := a.isLt
  rw [toNat_addr (by omega), h]

/-- Every address is the address of what it names, or is in R61's list of unmapped addresses; checked at all 4096. -/
theorem address_decodeAddr (a : Addr) :
    ((decodeAddr a).address = some a ∧ ¬ Unmapped a) ∨ (decodeAddr a = .unmapped ∧ Unmapped a) := by
  have key : ∀ x y : Fin 64,
      ((decodeAddr (BitVec.ofNat 12 (64 * x.val + y.val))).address = some (BitVec.ofNat 12 (64 * x.val + y.val))
        ∧ ¬ Unmapped (BitVec.ofNat 12 (64 * x.val + y.val)))
      ∨ (decodeAddr (BitVec.ofNat 12 (64 * x.val + y.val)) = .unmapped
        ∧ Unmapped (BitVec.ofNat 12 (64 * x.val + y.val))) := by
    unfold Unmapped
    decide +kernel
  have ha : a.toNat < 4096 := a.isLt
  have h := key ⟨a.toNat / 64, by omega⟩ ⟨a.toNat % 64, by omega⟩
  rwa [addr_eq (a := a) (by show a.toNat = 64 * (a.toNat / 64) + a.toNat % 64; omega)] at h

/-- A mapped register's address names it: the rows of R61 do not overlap. -/
theorem decodeAddr_address {r : MapReg} {a : Addr} (h : r.address = some a) : decodeAddr a = r := by
  cases r <;> simp only [MapReg.address, Option.some.injEq, reduceCtorEq] at h <;> subst h
  case key k => revert k; decide +kernel
  case blen n => revert n; decide +kernel
  case tlen n => revert n; decide +kernel
  case bdata n w => revert n w; decide +kernel
  case qdata w => revert w; decide +kernel
  case tdata n i => revert n i; decide +kernel
  all_goals decide +kernel

theorem decodeAddr_cmd : decodeAddr 0x000#12 = .cmd := decodeAddr_address rfl

theorem decodeAddr_unmapped_iff (a : Addr) : decodeAddr a = .unmapped ↔ Unmapped a := by
  rcases address_decodeAddr a with ⟨h, h'⟩ | h
  · refine ⟨fun e => ?_, fun e => absurd e h'⟩
    rw [e] at h; simp [MapReg.address] at h
  · exact ⟨fun _ => h.2, fun _ => h.1⟩

/-! ### Accesses -/

theorem memWrite_of_fault (a : Addr) (v : Word) {s : State} (h : s.fault = true) : memWrite a v s = .next s := by
  simp [memWrite, h]

theorem memWrite_cmd (v : Word) {s : State} (h : s.fault = false) : memWrite 0x000#12 v s = writeCmd v s := by
  simp only [memWrite, h, decodeAddr_cmd, Bool.false_eq_true, if_false]

theorem memWrite_of_ne_cmd {a : Addr} {r : MapReg} (ha : decodeAddr a = r) (hr : r ≠ .cmd) (v : Word) {s : State}
    (h : s.fault = false) : memWrite a v s = .next (mapWrite r v s) := by
  simp only [memWrite, h, Bool.false_eq_true, if_false, ha]

/-- A host write access is `memWrite`. -/
theorem hostAccess_write (a : Addr) (v : Word) (s : State) : hostAccess (.write a v) s = memWrite a v s := rfl

/-- A host read access is `memRead`. -/
theorem hostAccess_read (a : Addr) (s : State) : hostAccess (.read a) s = .next (memRead a s) := rfl

theorem memRead_of_some {a : Addr} {s : State} {w : Word} (h : s.mapWord (decodeAddr a) = some w) :
    memRead a s = { s with reply := some w } := by simp only [memRead, h]

theorem memRead_of_none {a : Addr} {s : State} (h : s.mapWord (decodeAddr a) = none) :
    memRead a s = { takeFault .hostAccess s with reply := some 0#32 } := by simp only [memRead, h]

theorem faulted_eq (s : State) (c : FaultCode) (h : s.fault = false) : takeFault c s = s.faulted c :=
  takeFault_of_not_fault c s h

/-- Everything `exec` can do: it answers a next state, by fault entry or by completion (R9, R95). -/
theorem exec_total (i : Instr) (s : State) :
    ∃ t, exec i s = .next t ∧ ((∃ c, t = takeFault c s) ∨ Completed i s t) := by
  rcases exec_cases i s with ⟨c, -, he⟩ | ⟨-, t, ht, he⟩
  · exact ⟨_, he, .inl ⟨c, rfl⟩⟩
  · exact ⟨t, he, .inr ht⟩

/-- Everything a CMD write can do while FAULT = 0 (R67, R95). -/
theorem writeCmd_total (v : Word) (s : State) :
    ∃ t, writeCmd v s = .next t ∧ ((∃ c, t = takeFault c s) ∨ ∃ i, decode v = .ok i ∧ Completed i s t) := by
  unfold writeCmd
  cases hd : decode v with
  | error e => exact ⟨_, rfl, .inl ⟨.illegalCommand, rfl⟩⟩
  | ok i =>
    obtain ⟨t, he, h⟩ := exec_total i s
    refine ⟨t, he, h.imp id fun h => ⟨i, rfl, h⟩⟩

/-- Everything one access can do (R65 to R68, R310): the kinds of next state. -/
theorem hostAccess_total (a : HostAccess) (s : State) : ∃ t, hostAccess a s = .next t ∧
    (t = s ∨ (∃ addr, t = memRead addr s) ∨ (∃ c, t = takeFault c s) ∨ (∃ i, Completed i s t)
      ∨ (∃ r v, t = mapWrite r v s) ∨ t = resetEvent s) := by
  cases a with
  | read addr => exact ⟨_, rfl, .inr (.inl ⟨addr, rfl⟩)⟩
  | reset => exact ⟨_, rfl, .inr (.inr (.inr (.inr (.inr rfl))))⟩
  | write addr v =>
    show ∃ t, memWrite addr v s = .next t ∧ _
    cases hf : s.fault with
    | true => exact ⟨s, memWrite_of_fault _ _ hf, .inl rfl⟩
    | false =>
      by_cases hc : decodeAddr addr = .cmd
      · obtain ⟨t, he, h⟩ := writeCmd_total v s
        refine ⟨t, by simp only [memWrite, hf, Bool.false_eq_true, if_false, hc]; exact he, ?_⟩
        rcases h with ⟨c, rfl⟩ | ⟨i, -, h⟩
        · exact .inr (.inr (.inl ⟨c, rfl⟩))
        · exact .inr (.inr (.inr (.inl ⟨i, h⟩)))
      · exact ⟨_, memWrite_of_ne_cmd rfl hc v hf, .inr (.inr (.inr (.inr (.inl ⟨_, v, rfl⟩))))⟩

/-- Everything one step can do: wait, or perform the oldest access on the state without it. -/
theorem step_total (s : State) : ∃ t, step s = .next t ∧
    ((s.input = [] ∧ t = s) ∨ ∃ a rest, s.input = a :: rest ∧ hostAccess a { s with input := rest, reply := none } = .next t) := by
  cases hi : s.input with
  | nil => exact ⟨s, by simp [step, nextAccess, hi], .inl ⟨rfl, rfl⟩⟩
  | cons a rest =>
    obtain ⟨t, he, -⟩ := hostAccess_total a { s with input := rest, reply := none }
    exact ⟨t, by simp only [step, nextAccess, hi]; exact he, .inr ⟨a, rest, rfl, he⟩⟩

/-! ### Reads and writes of named registers -/

/-- A host read of a readable register answers its word and changes nothing (R65). -/
theorem read_mapped {r : MapReg} {a : Addr} (ha : r.address = some a) {s : State} {w : Word} (hw : s.mapWord r = some w) :
    hostAccess (.read a) s = .next { s with reply := some w } := by
  rw [hostAccess_read, memRead_of_some (by rw [decodeAddr_address ha]; exact hw)]

/-- A host write to a mapped register other than CMD, while FAULT = 0 (R66). -/
theorem write_mapped {r : MapReg} {a : Addr} (ha : r.address = some a) (hr : r ≠ .cmd) (v : Word) {s : State} (hs : s.fault = false) :
    hostAccess (.write a v) s = .next (mapWrite r v s) := by
  rw [hostAccess_write, memWrite_of_ne_cmd (decodeAddr_address ha) hr v hs]

/-- A host read of an unmapped address or of CMD (R65, R279). -/
theorem read_unmapped {a : Addr} (ha : Unmapped a ∨ a = 0x000#12) (s : State) :
    hostAccess (.read a) s = .next { (if s.fault then s else s.faulted .hostAccess) with reply := some 0#32 } := by
  have : s.mapWord (decodeAddr a) = none := by
    rcases ha with h | rfl
    · rw [(decodeAddr_unmapped_iff a).mpr h]; rfl
    · rw [decodeAddr_cmd]; rfl
  rw [hostAccess_read, memRead_of_none this]
  cases h : s.fault with
  | true => rw [takeFault_of_fault _ _ h]; rfl
  | false => rw [faulted_eq _ _ h]; rfl

/-- A host write to an unmapped or a read-only address, while FAULT = 0, faults and writes nothing else (R66, R272). -/
theorem write_not_writable {a : Addr} (ha : Unmapped a ∨ ReadOnly a) (v : Word) {s : State} (hs : s.fault = false) :
    hostAccess (.write a v) s = .next (s.faulted .hostAccess) := by
  have key : decodeAddr a ≠ .cmd ∧ mapWrite (decodeAddr a) v s = takeFault .hostAccess s := by
    rcases address_decodeAddr a with ⟨h, hu⟩ | ⟨h, -⟩
    · have hr := ha.resolve_left hu
      cases hd : decodeAddr a with
      | blen n =>
        rw [hd] at h; injection h with h; subst h
        unfold ReadOnly at hr; rw [toNat_addr (by omega)] at hr; omega
      | tlen n =>
        rw [hd] at h; injection h with h; subst h
        unfold ReadOnly at hr; rw [toNat_addr (by omega)] at hr; omega
      | bdata n w =>
        rw [hd] at h; injection h with h; subst h
        unfold ReadOnly at hr; rw [toNat_addr (by omega)] at hr; omega
      | tdata n i =>
        rw [hd] at h; injection h with h; subst h
        unfold ReadOnly at hr; rw [toNat_addr (by omega)] at hr; omega
      | cmd =>
        rw [hd] at h; injection h with h; subst h
        exact absurd hr (by simp [ReadOnly])
      | res =>
        rw [hd] at h; injection h with h; subst h
        exact absurd hr (by simp [ReadOnly])
      | _ => exact ⟨by simp, rfl⟩
    · rw [h]; exact ⟨by simp, rfl⟩
  rw [hostAccess_write, memWrite_of_ne_cmd rfl key.1 v hs, key.2, faulted_eq s _ hs]

theorem sym_fin (s : State) (n : TSel) (i : Fin 256) : s.t[n].store[i] = s.sym n i.val := by
  unfold State.sym
  rw [List.getD_eq_getElem?_getD, List.getElem?_eq_getElem (by simp)]
  simp

/-- Packing, in the word's own bit numbers (R62). -/
theorem getLsbD_of_getMsbD (d : Store) (w : Fin 64) (j : Nat) (hj : j < 32) : (dataWord d w).getLsbD (31 - j) = d.getMsbD (32 * w.val + j) := by
  rw [← getMsbD_dataWord d w j hj]
  simp [BitVec.getMsbD, hj]

/-! ### What an access keeps -/

theorem hostAccess_inv {a : HostAccess} {s t : State} (h : hostAccess a s = .next t) (hi : s.Inv) : t.Inv := by
  obtain ⟨t', he, hc⟩ := hostAccess_total a s
  rw [he] at h; injection h with h; subst h
  rcases hc with rfl | ⟨addr, rfl⟩ | ⟨c, rfl⟩ | ⟨i, hc⟩ | ⟨r, v, rfl⟩ | rfl
  · exact hi
  · exact hi.memRead _
  · exact hi.takeFault _
  · exact hc.inv hi
  · exact hi.mapWrite _ _
  · exact hi.resetEvent

theorem hostAccess_workInv {a : HostAccess} {s t : State} (h : hostAccess a s = .next t) (hw : s.WorkInv) : t.WorkInv := by
  obtain ⟨t', he, hc⟩ := hostAccess_total a s
  rw [he] at h; injection h with h; subst h
  rcases hc with rfl | ⟨addr, rfl⟩ | ⟨c, rfl⟩ | ⟨i, hc⟩ | ⟨r, v, rfl⟩ | rfl
  · exact hw
  · exact hw.same (sameWork_memRead _ _)
  · exact hw.same (sameWork_takeFault _ _)
  · exact hc.workInv hw
  · exact hw.same (sameWork_mapWrite _ _ _)
  · exact State.WorkInv.reset_with _ _

theorem tables_memRead (a : Addr) (s : State) : (memRead a s).tables = s.tables := by
  unfold memRead; split <;> simp

theorem tables_mapWrite (r : MapReg) (v : Word) (s : State) : (mapWrite r v s).tables = s.tables := by
  cases r <;> simp only [mapWrite, State.writeRes_tables, takeFault_tables, writeBData_tables, writeTData_tables]
  case blen => unfold writeBLen; split <;> simp
  case tlen => unfold writeTLen; split <;> simp

theorem hostAccess_tables {a : HostAccess} {s t : State} (h : hostAccess a s = .next t) : t.tables = s.tables := by
  obtain ⟨t', he, hc⟩ := hostAccess_total a s
  rw [he] at h; injection h with h; subst h
  rcases hc with rfl | ⟨addr, rfl⟩ | ⟨c, rfl⟩ | ⟨i, hc⟩ | ⟨r, v, rfl⟩ | rfl
  · rfl
  · exact tables_memRead _ _
  · simp
  · exact hc.keeps.2.2.1
  · exact tables_mapWrite _ _ _
  · rfl

/-! ### CMD writes, and which fault a command takes -/

/-- (w AND mask) = match, as R96 writes it. -/
theorem accepts_iff_and (o : Op) (w : Word) : o.accepts w = true ↔ w &&& o.maskWord = o.matchWord := by
  simp [Op.accepts]

/-- A word that no row accepts does not decode (R96). -/
theorem decode_error_of (w : Word) (h : ∀ o : Op, o.accepts w ≠ true) : ∃ e, decode w = .error e := by
  cases hd : decode w with
  | ok i => obtain ⟨o, ho, -⟩ := (decode_eq_ok_iff w i).mp hd; exact absurd ho (h o)
  | error e => exact ⟨e, rfl⟩

/-- A CMD write of a word that does not decode raises IllegalCommand (R280). -/
theorem write_cmd_error {w : Word} {e : Illegal} (h : decode w = .error e) {s : State} (hs : s.fault = false) :
    hostAccess (.write 0x000#12 w) s = .next (s.faulted .illegalCommand) := by
  rw [hostAccess_write, memWrite_cmd w hs, writeCmd, h]
  simp only [raise, faulted_eq s _ hs]

/-- A CMD write of a command's word runs the command (R67). -/
theorem write_cmd_ok {w : Word} {i : Instr} (h : decode w = .ok i) {s : State} (hs : s.fault = false) :
    hostAccess (.write 0x000#12 w) s = exec i s := by
  rw [hostAccess_write, memWrite_cmd w hs, writeCmd, h]

/-- The mask bits of a field are zero exactly when the field is legal for its use (R91, R96). -/
theorem fieldLegal_iff (u : FieldUse) (f : BitVec 4) : fieldLegal u f ↔ f &&& u.mask = 0 := by
  cases u <;> revert f <;> unfold fieldLegal FieldUse.mask <;> decide

theorem exec_ne_faulted_of_completed {i : Instr} {s t : State} (hs : s.fault = false) (h : Completed i s t) (c : FaultCode) :
    t ≠ s.faulted c := by
  intro e
  have := h.keeps.2.1
  rw [e, hs] at this
  simp [State.faulted] at this

theorem code_injective {c d : FaultCode} (h : c.code = d.code) : c = d := by
  revert h; cases c <;> cases d <;> decide

theorem faulted_injective {s : State} {c d : FaultCode} (h : s.faulted c = s.faulted d) : c = d :=
  code_injective (congrArg State.err h)

theorem firstFailed_unique {l : List (FaultCode × Prop)} {c d : FaultCode} (h : FirstFailed l c) (h' : FirstFailed l d) : c = d := by
  induction l with
  | nil => exact absurd h (by simp [FirstFailed])
  | cons a l ih =>
    obtain ⟨c', p⟩ := a
    simp only [FirstFailed] at h h'
    rcases h with ⟨hp, rfl⟩ | ⟨hp, h⟩ <;> rcases h' with ⟨hp', rfl⟩ | ⟨hp', h'⟩
    · rfl
    · exact absurd hp hp'
    · exact absurd hp' hp
    · exact ih h h'

theorem noneFailed_not_first {l : List (FaultCode × Prop)} {c : FaultCode} (h : NoneFailed l) : ¬ FirstFailed l c := by
  induction l with
  | nil => simp [FirstFailed]
  | cons a l ih =>
    obtain ⟨c', p⟩ := a
    simp only [FirstFailed]
    rintro (⟨hp, -⟩ | ⟨-, h'⟩)
    · exact h.1 hp
    · exact ih h.2 h'

/-- A command takes a fault exactly when it is the first failed check's (R281). -/
theorem exec_faulted_iff (i : Instr) (s : State) (hs : s.fault = false) (c : FaultCode) :
    exec i s = .next (s.faulted c) ↔ FirstFailed (checks i s) c := by
  constructor
  · intro h
    rcases exec_cases i s with ⟨d, hd, he⟩ | ⟨-, t, ht, he⟩
    · rw [he, faulted_eq s d hs] at h
      injection h with h
      exact faulted_injective h ▸ hd
    · rw [he] at h; injection h with h
      exact absurd h (exec_ne_faulted_of_completed hs ht c)
  · intro h
    rw [exec_of_firstFailed i s c h, faulted_eq s c hs]

/-- No command raises HostAccess, and none raises IllegalCommand once its word has decoded (R69, R280). -/
theorem checks_code_ne {i : Instr} {s : State} {c : FaultCode} (h : FirstFailed (checks i s) c) :
    c ≠ .hostAccess ∧ c ≠ .illegalCommand := by
  constructor
  all_goals
    rintro rfl
    revert h
    cases i <;> simp [checks, FirstFailed]

theorem not_textMapped_iff (s : State) (n : TSel) : ¬ s.TextMapped n ↔ ∃ i, i < s.t[n].len ∧ ¬ Mapped s.tables (s.sym n i) := by
  simp [State.TextMapped]

theorem textMapped_of_len_zero {s : State} {n : TSel} (h : s.t[n].len = 0) : s.TextMapped n := by
  intro i hi; omega

/-! ### Runs of accesses -/

theorem runAccesses_nil (s : State) : runAccesses [] s = .next { s with input := [] } := rfl

theorem step_cons (s : State) (a : HostAccess) (as : List HostAccess) :
    step { s with input := a :: as } = hostAccess a { s with input := as, reply := none } := rfl

/-- A run performs the first access and runs the rest, when the access leaves the rest pending. -/
theorem runAccesses_cons (a : HostAccess) (as : List HostAccess) (s t : State)
    (h : hostAccess a { s with input := as, reply := none } = .next t) (ht : t.input = as) :
    runAccesses (a :: as) s = runAccesses as t := by
  have e : ({ t with input := as } : State) = t := by rw [← ht]
  show Host.Core.run Sys2Proof.core (as.length + 1) { s with input := a :: as } = _
  simp only [Host.Core.run]
  have hs : Sys2Proof.core.step { s with input := a :: as } = .next t := (step_cons s a as).trans h
  rw [hs]
  simp only [runAccesses, e]

end Sys2Proof.Machine
end

