-- ==== Sys2Proof/Laws/Results.lean ====
section
/-! SUPPORT. What the results of the commands are, bit by bit and word by word: the data words of encoded texts, of padded
bitstrings and of processed messages (R62, R140, R143, R170, R241, R245). -/

namespace Sys2Proof.Machine

/-! ### The store after a command write (R23, R26) -/

theorem bit_writeB_same (s : State) (n : BSel) {v : Bits} (h : v.length ≤ 2048) (i : Nat) :
    (s.writeB n v).bit n i = v.getD i false := by
  unfold State.bit
  rw [b_writeB_same]
  exact getMsbD_packBits v h i

theorem sym_writeT_same (s : State) (n : TSel) {v : Text} (h : v.length ≤ 256) (i : Nat) :
    (s.writeT n v).sym n i = v.getD i 0#32 := by
  unfold State.sym
  rw [t_writeT_same]
  exact toList_packText v h i

theorem getD_of_le {α : Type} (l : List α) (d : α) {i : Nat} (h : l.length ≤ i) : l.getD i d = d := by
  rw [List.getD_eq_getElem?_getD, List.getElem?_eq_none_iff.mpr h]; rfl

theorem getD_drop {α : Type} (l : List α) (d : α) (a i : Nat) : (l.drop a).getD i d = l.getD (a + i) d := by
  simp [List.getD_eq_getElem?_getD, List.getElem?_drop]

theorem getD_take_of_lt {α : Type} (l : List α) (d : α) {n i : Nat} (h : i < n) : (l.take n).getD i d = l.getD i d := by
  simp [List.getD_eq_getElem?_getD, h]

theorem getD_append_zeros (v : Bits) (k i : Nat) : (v ++ zeros k).getD i false = v.getD i false := by
  by_cases h : i < v.length
  · simp [List.getD_eq_getElem?_getD, List.getElem?_append_left h]
  · rw [getD_of_le v false (by omega), List.getD_eq_getElem?_getD, List.getElem?_append_right (by omega), zeros,
      List.getElem?_replicate]
    split <;> rfl

theorem bits_ext {a b : Bits} (hl : a.length = b.length) (h : ∀ i, i < a.length → a.getD i false = b.getD i false) :
    a = b := by
  apply List.ext_getElem hl
  intro i h1 h2
  have := h i h1
  rwa [List.getD_eq_getElem?_getD, List.getD_eq_getElem?_getD, List.getElem?_eq_getElem h1,
    List.getElem?_eq_getElem h2] at this

/-- Bit i of what a register reads as: its stored bit, below the length (R22). -/
theorem getD_readB' (s : State) (n : BSel) (i : Nat) : (s.readB n).getD i false = (decide (i < s.b[n].len) && s.bit n i) := by
  by_cases h : i < s.b[n].len
  · rw [getD_readB s n _ h, decide_eq_true h, Bool.true_and]; rfl
  · rw [getD_of_le _ _ (by rw [length_readB]; omega), decide_eq_false h, Bool.false_and]
theorem qbit_writeQ (s : State) (p : Nat) (q : BitSeq) (h : q.flatten.length ≤ 2048) (i : Nat) :
    (s.writeQ p q).qbit i = q.flatten.getD i false := getMsbD_packBits _ h i

theorem length_flatten_splitFixed (v : Bits) {p : Nat} (hp : 1 ≤ p) :
    (splitFixed v p).flatten.length = ceilDiv v.length p * p := by
  rw [length_flatten_of_forall (fun c hc => length_of_mem_splitFixed hp hc), length_splitFixed]

/-- Only the last write to a register is seen. -/
theorem writeB_writeB (s : State) (n : BSel) (v u : Bits) : (s.writeB n v).writeB n u = s.writeB n u := by
  simp only [State.writeB, Vector.set_set]
/-- Every bit and text register is as before or is written whole, in canonical form (R23, R26). -/
def Canonical (s t : State) : Prop :=
  (∀ n : BSel, t.b[n] = s.b[n] ∨ ∃ v : Bits, v.length ≤ 2048 ∧ t.b[n] = ⟨v.length, packBits v⟩)
    ∧ (∀ n : TSel, t.t[n] = s.t[n] ∨ ∃ v : Text, v.length ≤ 256 ∧ t.t[n] = ⟨v.length, packText v⟩)

theorem canonical_setB {s t : State} (n : BSel) {v : Bits} (hv : v.length ≤ 2048)
    (hb : t.b = s.b.set n.val ⟨v.length, packBits v⟩ n.isLt) (ht : t.t = s.t) : Canonical s t := by
  refine ⟨fun m => ?_, fun m => .inl (by rw [ht])⟩
  by_cases e : m = n
  · subst e; exact .inr ⟨v, hv, by rw [hb]; exact getElem_set_same _ _ _⟩
  · exact .inl (by rw [hb]; exact getElem_set_ne _ _ _ _ e)

theorem canonical_setT {s t : State} (n : TSel) {v : Text} (hv : v.length ≤ 256)
    (hb : t.t = s.t.set n.val ⟨v.length, packText v⟩ n.isLt) (ht : t.b = s.b) : Canonical s t := by
  refine ⟨fun m => .inl (by rw [ht]), fun m => ?_⟩
  by_cases e : m = n
  · subst e; exact .inr ⟨v, hv, by rw [hb]; exact getElem_set_same _ _ _⟩
  · exact .inl (by rw [hb]; exact getElem_set_ne _ _ _ _ e)

theorem canonical_same {s t : State} (hb : t.b = s.b) (ht : t.t = s.t) : Canonical s t :=
  ⟨fun m => .inl (by rw [hb]), fun m => .inl (by rw [ht])⟩

/-- A completed command writes bit and text registers in canonical form only (R23, R26). -/
theorem Completed.canonical {i : Instr} {s t : State} (h : Completed i s t) (hi : s.Inv) : Canonical s t := by
  have ht := h.inv hi
  cases i <;> simp only [Completed] at h
  case codeof => obtain ⟨_, -, rfl⟩ := h; exact canonical_same rfl rfl
  case symof => obtain ⟨-, rfl⟩ := h; exact canonical_same rfl rfl
  case t2b rd _ => obtain ⟨v, -, rfl⟩ := h; exact canonical_setB rd (by simpa [BitReg.Inv] using ht.b_inv rd) rfl rfl
  case b2t rd _ => obtain ⟨-, rfl⟩ := h; exact canonical_setT rd (by simpa [TextReg.Inv] using ht.t_inv rd) rfl rfl
  case xor rd _ _ => obtain ⟨-, rfl⟩ := h; exact canonical_setB rd (by simpa [BitReg.Inv] using ht.b_inv rd) rfl rfl
  case dec8 => obtain ⟨-, rfl⟩ := h; exact canonical_same rfl rfl
  case rotl11 rd _ => obtain ⟨-, rfl⟩ := h; exact canonical_setB rd (by simpa [BitReg.Inv] using ht.b_inv rd) rfl rfl
  case split => obtain ⟨-, -, -, rfl⟩ := h; exact canonical_same rfl rfl
  case join rd => obtain ⟨-, rfl⟩ := h; exact canonical_setB rd (ht.b_inv rd |> (by simpa [BitReg.Inv] using ·)) rfl rfl
  case getq rd _ => obtain ⟨-, rfl⟩ := h; exact canonical_setB rd (by simpa [BitReg.Inv] using ht.b_inv rd) rfl rfl
  case subst rd _ => obtain ⟨-, rfl⟩ := h; exact canonical_setB rd (by rw [length_subst]; omega) rfl rfl
  case frnd rd _ _ => obtain ⟨-, -, rfl⟩ := h; exact canonical_setB rd (by rw [length_roundF]; omega) rfl rfl
  case kidx => obtain ⟨-, rfl⟩ := h; exact canonical_same rfl rfl
  case ldkey => obtain ⟨_, -, rfl⟩ := h; exact canonical_same rfl rfl
  case encb rd ra rb =>
    obtain ⟨h1, -, rfl⟩ := h
    exact canonical_setB rd (by rw [length_encryptBlock _ _ _ (by rw [length_readB, h1])]; omega) rfl rfl
  case decb rd ra rb =>
    obtain ⟨h1, -, rfl⟩ := h
    exact canonical_setB rd (by rw [length_decryptBlock _ _ _ (by rw [length_readB, h1])]; omega) rfl rfl
  case enc rd _ _ =>
    obtain ⟨_, m, -, -, rfl⟩ := h
    have h1 : ((s.writeB rd m.bits).b[rd]).len ≤ 2048 := ht.b_inv rd
    rw [b_writeB_same] at h1
    exact canonical_setB rd h1 rfl rfl
  case dec rd _ _ =>
    obtain ⟨m, -, rfl⟩ := h
    have h1 : ((s.writeT rd (bitsToText s.tables m.bits)).t[rd]).len ≤ 256 := ht.t_inv rd
    rw [t_writeT_same] at h1
    exact canonical_setT rd h1 rfl rfl

/-! ### The working registers beside the others -/

@[simp] theorem readB_writeHalves (s : State) (c : Bits) (n : BSel) : (s.writeHalves c).readB n = s.readB n := rfl

@[simp] theorem readT_writeHalves (s : State) (c : Bits) (n : TSel) : (s.writeHalves c).readT n = s.readT n := rfl

theorem readB_writeBlock_same (s : State) (n : BSel) {c : Bits} (h : c.length ≤ 2048) : (s.writeBlock n c).readB n = c :=
  readB_writeB_same s n c h

theorem readB_writeBlock_ne (s : State) (n k : BSel) (c : Bits) (h : k ≠ n) : (s.writeBlock n c).readB k = s.readB k :=
  readB_writeB_ne s n k c h

theorem b_writeBlock_same (s : State) (n : BSel) (c : Bits) : (s.writeBlock n c).b[n] = ⟨c.length, packBits c⟩ :=
  b_writeB_same s n c

theorem len_writeBlock_same (s : State) (n : BSel) (c : Bits) : ((s.writeBlock n c).b[n]).len = c.length := by
  rw [b_writeBlock_same]

@[simp] theorem readB_writeMessage (s : State) (m : Message) (j : Nat) (n : BSel) :
    (s.writeMessage m j).readB n = s.readB n := rfl

@[simp] theorem readT_writeMessage (s : State) (m : Message) (j : Nat) (n : TSel) :
    (s.writeMessage m j).readT n = s.readT n := rfl

/-! ### Word w of a bitstring, 0 past its end -/

/-- The 32 bits of `v` from 32w on, as a word; 0 bits past the end of `v`. -/
def padWord (v : Bits) (w : Nat) : Word := bitsToWord ((List.range 32).map (fun j => v.getD (32 * w + j) false))

theorem getMsbD_padWord (v : Bits) (w j : Nat) (h : j < 32) : (padWord v w).getMsbD j = v.getD (32 * w + j) false := by
  rw [padWord, getMsbD_bitsToWord _ (by simp) j h]
  simp [List.getD_eq_getElem?_getD, h]

theorem padWord_congr {v u : Bits} {w w' : Nat} (h : ∀ j, j < 32 → v.getD (32 * w + j) false = u.getD (32 * w' + j) false) :
    padWord v w = padWord u w' := by
  apply word_ext
  intro j hj
  rw [getMsbD_padWord _ _ _ hj, getMsbD_padWord _ _ _ hj, h j hj]

/-- Data word w of the store that holds v (R23, R62). -/
theorem dataWord_packBits_pad (v : Bits) (h : v.length ≤ 2048) (w : Fin 64) : dataWord (packBits v) w = padWord v w.val := by
  apply word_ext
  intro j hj
  rw [getMsbD_dataWord _ _ _ hj, getMsbD_packBits v h, getMsbD_padWord _ _ _ hj]

theorem bword_writeB_same (s : State) (n : BSel) {v : Bits} (h : v.length ≤ 2048) (w : Fin 64) :
    (s.writeB n v).bword n w = padWord v w.val := by
  unfold State.bword
  rw [b_writeB_same]
  exact dataWord_packBits_pad v h w

theorem padWord_of_le {v : Bits} {w : Nat} (h : v.length ≤ 32 * w) : padWord v w = 0#32 := by
  apply word_ext
  intro j hj
  rw [getMsbD_padWord _ _ _ hj, getD_of_le _ _ (by omega)]
  simp [BitVec.getMsbD]

/-- A word that the bitstring holds whole is the word of its slice (R8). -/
theorem padWord_slice {v : Bits} {w : Nat} {u : Bits} (hu : u.length = 32)
    (h : ∀ j, j < 32 → v.getD (32 * w + j) false = u.getD j false) : padWord v w = bitsToWord u := by
  apply word_ext
  intro j hj
  rw [getMsbD_padWord _ _ _ hj, getMsbD_bitsToWord _ hu _ hj, h j hj]

theorem padWord_32 {v : Bits} (h : v.length = 32) (w : Nat) : padWord v w = if w = 0 then bitsToWord v else 0#32 := by
  by_cases hw : w = 0
  · rw [if_pos hw, hw]; exact padWord_slice h (fun j _ => by rw [Nat.mul_zero, Nat.zero_add])
  · rw [if_neg hw]; exact padWord_of_le (by omega)

/-- The two data words of a block are its halves (R220). -/
theorem padWord_64 {v : Bits} (h : v.length = 64) (w : Nat) :
    padWord v w = if w = 0 then bitsToWord (v.take 32) else if w = 1 then bitsToWord (v.drop 32) else 0#32 := by
  by_cases h0 : w = 0
  · rw [if_pos h0, h0]
    exact padWord_slice (by simp [h]) (fun j hj => by rw [getD_take_of_lt _ _ hj, Nat.mul_zero, Nat.zero_add])
  · by_cases h1 : w = 1
    · rw [if_neg h0, if_pos h1, h1]
      exact padWord_slice (by simp [h]) (fun j hj => by rw [getD_drop])
    · rw [if_neg h0, if_neg h1]; exact padWord_of_le (by omega)

/-- The halves of the 64 bits that a register holds are its data words 0 and 1 (R220). -/
theorem halvesToWords_readB (s : State) (n : BSel) (h : s.b[n].len = 64) :
    halvesToWords (halves (s.readB n)) = (s.bword n 0, s.bword n 1) := by
  unfold halvesToWords halves State.bword
  have e : s.readB n = storeSlice s.b[n].store 0 64 := by rw [State.readB, h]
  rw [dataWord_eq, dataWord_eq, e]
  have h1 := drop_take_storeSlice s.b[n].store 0 64 0 32 (by omega)
  have h2 := drop_take_storeSlice s.b[n].store 0 64 32 32 (by omega)
  rw [List.drop_zero] at h1
  rw [List.take_of_length_le (by simp)] at h2
  simp only [h1, h2]; rfl

/-- LREG and RREG after a block are its halves (R32). -/
theorem halvesToWords_writeBlock (s : State) (n : BSel) (c : Bits) :
    halvesToWords (halves c) = ((s.writeBlock n c).lreg, (s.writeBlock n c).rreg) := rfl

/-- The data words of the register a block is written to: LREG, RREG, then zeros (R220, R222). -/
theorem bword_writeBlock (s : State) (n : BSel) {c : Bits} (h : c.length = 64) (w : Fin 64) :
    (s.writeBlock n c).bword n w
      = if w.val = 0 then (s.writeBlock n c).lreg else if w.val = 1 then (s.writeBlock n c).rreg else 0#32 := by
  have e : (s.writeBlock n c).bword n w = (s.writeB n c).bword n w := rfl
  rw [e, bword_writeB_same _ _ (by omega), padWord_64 h]
  rfl

/-- The value of the 8 bits that a register holds is the top byte of its data word 0 (R62, R152). -/
theorem zext32_val_8 (s : State) (n : BSel) (h : s.b[n].len = 8) :
    zext32 (decimalOf (s.readB n)) = s.bword n 0 >>> 24 := by
  apply BitVec.eq_of_getLsbD_eq
  intro k hk
  have hd : ∀ j, j < 32 → (s.bword n 0).getLsbD (31 - j) = s.bit n j := by
    intro j hj
    have h1 := getMsbD_dataWord s.b[n].store 0 j hj
    rw [show 32 * (0 : Fin 64).val + j = j from Nat.zero_add j] at h1
    simpa [BitVec.getMsbD, hj, State.bword, State.bit] using h1
  rw [zext32, BitVec.getLsbD_ofNat, decimalOf, testBit_val, length_readB, h, BitVec.getLsbD_ushiftRight]
  by_cases h8 : k < 8
  · have := hd (7 - k) (by omega)
    rw [show 31 - (7 - k) = 24 + k by omega] at this
    rw [this, getD_readB']
    simp only [hk, h8, decide_true, Bool.true_and, h]
    rw [decide_eq_true (by omega), Bool.true_and]
  · have : (s.bword n 0).getLsbD (24 + k) = false := BitVec.getLsbD_of_ge _ _ (by omega)
    simp only [h8, this, decide_false, Bool.false_and, Bool.and_false]

/-! ### Encoded texts (R140) -/

theorem codeIn_of_codeOf {T : Tables} {x : Sym} {c : Nat} (h : codeOf T x = .ok c) : codeIn T x = c := by
  have hm := (codeOf_eq_ok_iff T x c).mp h
  unfold codeIn
  rw [show (fun p : Nat × Sym => p.2 == x) = (fun p => p.2 == ((c, x) : Nat × Sym).2) from rfl,
    find_of_nodup Prod.snd _ (codepage_syms_nodup T) hm]
  rfl

theorem codeAt_of_lt {s : State} {n : TSel} (hm : s.TextMapped n) {i : Nat} (h : i < s.t[n].len) :
    codeOf s.tables (s.sym n i) = .ok (s.codeAt n i) := by
  obtain ⟨c, hc⟩ := (mapped_iff _ _).mp (hm i h)
  rw [State.codeAt, if_pos h, codeIn_of_codeOf hc, hc]

theorem codeAt_lt {s : State} {n : TSel} (hm : s.TextMapped n) (i : Nat) : s.codeAt n i < 256 := by
  by_cases h : i < s.t[n].len
  · exact codeOf_lt (codeAt_of_lt hm h)
  · rw [State.codeAt, if_neg h]; omega

/-- Bit j of group i of the encoded text is bit 7 - j of the code of symbol i, 0 past the text (R140). -/
theorem getD_textToBits {s : State} {n : TSel} (hm : s.TextMapped n) {v : Bits}
    (hv : textToBits s.tables (s.readT n) = .ok v) (i j : Nat) (hj : j < 8) :
    v.getD (8 * i + j) false = (bin 8 (s.codeAt n i)).getD j false := by
  have hl := length_textToBits hv
  rw [length_readT] at hl
  by_cases h : i < s.t[n].len
  · have hi : i < (s.readT n).length := by simpa using h
    have hg := group_textToBits hv i hi (s.codeAt n i) (by rw [getElem_readT]; exact codeAt_of_lt hm h)
    rw [← hg, getD_take_of_lt _ _ hj, getD_drop, Nat.mul_comm]
  · rw [getD_of_le v false (by omega), State.codeAt, if_neg h, getD_bin _ _ _ hj]
    simp

theorem bitsToWord_bytes {b0 b1 b2 b3 : Nat} (h0 : b0 < 256) (h1 : b1 < 256) (h2 : b2 < 256) (h3 : b3 < 256) :
    bitsToWord (bin 8 b0 ++ (bin 8 b1 ++ (bin 8 b2 ++ bin 8 b3))) = wordOfBytes b0 b1 b2 b3 := by
  unfold bitsToWord wordOfBytes
  congr 1
  simp only [val_append, List.length_append, length_bin, val_bin 8 b0 h0, val_bin 8 b1 h1, val_bin 8 b2 h2, val_bin 8 b3 h3]
  norm_num
  ring

theorem getD_append_bytes (b : Nat) (u : Bits) (j : Nat) :
    (bin 8 b ++ u).getD j false = if j < 8 then (bin 8 b).getD j false else u.getD (j - 8) false := by
  by_cases h : j < 8
  · rw [if_pos h, List.getD_eq_getElem?_getD, List.getElem?_append_left (by simpa using h), ← List.getD_eq_getElem?_getD]
  · rw [if_neg h, List.getD_eq_getElem?_getD, List.getElem?_append_right (by simpa using h), length_bin,
      ← List.getD_eq_getElem?_getD]

/-- Word w of an encoded text: the codes of symbols 4w to 4w+3 (R140, R241). -/
theorem padWord_textToBits {s : State} {n : TSel} (hm : s.TextMapped n) {v : Bits}
    (hv : textToBits s.tables (s.readT n) = .ok v) (w : Nat) : padWord v w = s.textWord n w := by
  unfold State.textWord
  rw [← bitsToWord_bytes (codeAt_lt hm _) (codeAt_lt hm _) (codeAt_lt hm _) (codeAt_lt hm _)]
  apply padWord_slice (by simp)
  intro j hj
  simp only [getD_append_bytes]
  have key := fun i k hk => getD_textToBits hm hv i k hk
  split_ifs with h1 h2 h3
  · rw [← key _ _ h1]; congr 1; omega
  · rw [← key _ _ h2]; congr 1; omega
  · rw [← key _ _ h3]; congr 1; omega
  · rw [← key _ _ (by omega)]; congr 1; omega

/-- Word w of a bit register's bits, 0 past its length. -/
theorem padWord_readB (s : State) (n : BSel) (w : Nat) : padWord (s.readB n) w = s.bitsWord n w := by
  unfold padWord State.bitsWord
  congr 1
  apply List.map_congr_left
  intro j hj
  by_cases h : 32 * w + j < s.b[n].len
  · rw [getD_readB s n _ h, decide_eq_true h, Bool.true_and]; rfl
  · rw [getD_of_le _ _ (by rw [length_readB]; omega), decide_eq_false h, Bool.false_and]

/-! ### Chunks of padded bitstrings (R170) -/

theorem getD_getD_splitFixed (v : Bits) (p i j : Nat) (hi : i < ceilDiv v.length p) (hj : j < p) :
    ((splitFixed v p).getD i []).getD j false = v.getD (i * p + j) false := by
  rw [getD_splitFixed _ _ _ hi, getD_take_of_lt _ _ hj, getD_drop, getD_append_zeros]

theorem length_getD_splitFixed (v : Bits) {p i : Nat} (hp : 1 ≤ p) (hi : i < ceilDiv v.length p) :
    ((splitFixed v p).getD i []).length = p :=
  length_of_mem_splitFixed hp (getD_mem_of_lt (by rw [length_splitFixed]; exact hi) _)

/-- The halves of block i of the padded bits are its words 2i and 2i+1 (R220). -/
theorem halvesToWords_block (v : Bits) (i : Nat) (hi : i < ceilDiv v.length 64) :
    halvesToWords (halves ((splitFixed v 64).getD i [])) = (padWord v (2 * i), padWord v (2 * i + 1)) := by
  have hl := length_getD_splitFixed v (by omega) hi
  unfold halvesToWords halves
  refine Prod.ext ?_ ?_
  · exact (padWord_slice (by rw [List.length_take, hl]; omega) (fun j hj => by
      rw [getD_take_of_lt _ _ hj, getD_getD_splitFixed _ _ _ _ hi (by omega)]; congr 1; omega)).symm
  · exact (padWord_slice (by rw [List.length_drop, hl]) (fun j hj => by
      rw [getD_drop, getD_getD_splitFixed _ _ _ _ hi (by omega)]; congr 1; omega)).symm

/-- Key part k is the codes of key symbols 4k to 4k+3 (R241). -/
theorem bitsToWord_keyPart {s : State} {n : TSel} {kp : BitSeq} (h : keyParts s.tables (s.readT n) = .ok kp) {k : Nat}
    (hk : k < 8) : bitsToWord (kp.getD k []) = s.textWord n k := by
  obtain ⟨kb, hkb, -, hl, rfl, -, -⟩ := keyParts_ok h
  have hm : s.TextMapped n := (textMapped_iff s n).mpr ⟨kb, hkb⟩
  have hc : k < ceilDiv kb.length 32 := by rw [hl]; exact hk
  rw [← padWord_textToBits hm hkb]
  refine (padWord_slice (length_getD_splitFixed _ (by omega) hc) (fun j hj => ?_)).symm
  rw [getD_getD_splitFixed _ _ _ _ hc hj, Nat.mul_comm]

theorem k_writeKeys {s s' : State} {n : TSel} {kp : BitSeq} (h : keyParts s'.tables (s'.readT n) = .ok kp) (k : Fin 8) :
    (s.writeKeys kp).k[k] = s'.textWord n k.val := by
  rw [← bitsToWord_keyPart h k.isLt]
  fin_cases k <;> rfl

theorem k_writeMessage {s s' : State} {n : TSel} {m : Message} {j : Nat} (h : keyParts s'.tables (s'.readT n) = .ok m.keys)
    (k : Fin 8) : (s.writeMessage m j).k[k] = s'.textWord n k.val :=
  k_writeKeys (s := s.writeQ 64 m.blocks) h k

/-! ### Processed messages (R245, R249) -/

theorem getD_flatten (q : BitSeq) (p : Nat) (h : ∀ c ∈ q, c.length = p) (i j : Nat) (hj : j < p) :
    q.flatten.getD (i * p + j) false = (q.getD i []).getD j false := by
  induction q generalizing i with
  | nil => simp
  | cons c q ih =>
    have hc : c.length = p := h c (by simp)
    rw [List.flatten_cons]
    cases i with
    | zero =>
      rw [Nat.zero_mul, Nat.zero_add, List.getD_eq_getElem?_getD, List.getElem?_append_left (by omega)]
      simp
    | succ i =>
      have e : (i + 1) * p + j = c.length + (i * p + j) := by rw [hc]; ring
      rw [e, List.getD_eq_getElem?_getD, List.getElem?_append_right (by omega), Nat.add_sub_cancel_left,
        ← List.getD_eq_getElem?_getD, ih (fun c hc => h c (by simp [hc]))]
      simp

/-- The words of a message's bits are the halves of its blocks. -/
theorem padWord_flatten (q : BitSeq) (h : ∀ c ∈ q, c.length = 64) (w : Nat) :
    padWord q.flatten w = if w < 2 * q.length then
      (if w % 2 = 0 then (halvesToWords (halves (q.getD (w / 2) []))).1 else (halvesToWords (halves (q.getD (w / 2) []))).2)
      else 0#32 := by
  by_cases hw : w < 2 * q.length
  · have hl : (q.getD (w / 2) []).length = 64 := h _ (getD_mem_of_lt (by omega) _)
    rw [if_pos hw]
    split_ifs with he
    · refine padWord_slice (u := (q.getD (w / 2) []).take 32) (by rw [List.length_take, hl]; omega) (fun j hj => ?_)
      rw [getD_take_of_lt _ _ hj, ← getD_flatten q 64 h _ _ (by omega)]; congr 1; omega
    · refine padWord_slice (u := (q.getD (w / 2) []).drop 32) (by rw [List.length_drop, hl]) (fun j hj => ?_)
      rw [getD_drop, ← getD_flatten q 64 h _ _ (by omega)]; congr 1; omega
  · rw [if_neg hw]
    exact padWord_of_le (by rw [length_flatten_of_forall h]; omega)

/-- "The complete table of keyIndex" is its formula (R202). -/
theorem scheduleTable_eq {i : Nat} (h : i ≤ 31) : scheduleTable.getD i 0 = keyIndex i := by
  have : ∀ i : Fin 32, scheduleTable.getD i.val 0 = keyIndex i.val := by decide
  exact this ⟨i, by omega⟩

theorem scheduleTable_lt {i : Nat} (h : i ≤ 31) : scheduleTable.getD i 0 < 8 := by
  rw [scheduleTable_eq h]; exact keyIndex_lt i

/-- Block i of an encrypted message: 32 word rounds under key part keyIndex(i) (R221, R245). -/
theorem Message.Of.encBlock {s : State} {rb : TSel} {v : Bits} {m : Message}
    (h : Message.Of s.tables (encryptBlock s.tables) v (s.readT rb) m) (hv : v.length ≤ 2048) (i : Nat)
    (hi : i < ceilDiv v.length 64) :
    halvesToWords (halves (m.blocks.getD i [])) = wordEncrypt s.tables (s.textWord rb (scheduleTable.getD i 0))
      (padWord v (2 * i), padWord v (2 * i + 1)) := by
  obtain ⟨kb, -, -, -, -, h8, h32⟩ := keyParts_ok h.keys_ok
  have hi' : i ≤ 31 := by
    have := ceilDiv_le (n := v.length) (p := 64) (k := 32) (by omega) (by omega)
    omega
  rw [h.block i hi, halvesToWords_encryptBlock _ _ _ (length_getD_splitFixed _ (by omega) hi) (length_keyPart h8 h32 i),
    halvesToWords_block v i hi, bitsToWord_keyPart h.keys_ok (keyIndex_lt i), scheduleTable_eq hi']

/-- Block i of a decrypted message: 32 word rounds under key part keyIndex(i) (R225, R248). -/
theorem Message.Of.decBlock {s : State} {rb : TSel} {v : Bits} {m : Message}
    (h : Message.Of s.tables (decryptBlock s.tables) v (s.readT rb) m) (hv : v.length ≤ 2048) (i : Nat)
    (hi : i < ceilDiv v.length 64) :
    halvesToWords (halves (m.blocks.getD i [])) = wordDecrypt s.tables (s.textWord rb (scheduleTable.getD i 0))
      (padWord v (2 * i), padWord v (2 * i + 1)) := by
  obtain ⟨kb, -, -, -, -, h8, h32⟩ := keyParts_ok h.keys_ok
  have hi' : i ≤ 31 := by
    have := ceilDiv_le (n := v.length) (p := 64) (k := 32) (by omega) (by omega)
    omega
  rw [h.block i hi, halvesToWords_decryptBlock _ _ _ (length_getD_splitFixed _ (by omega) hi) (length_keyPart h8 h32 i),
    halvesToWords_block v i hi, bitsToWord_keyPart h.keys_ok (keyIndex_lt i), scheduleTable_eq hi']

/-! ### Decoded texts (R143) -/

/-- bitsToText of the first 8m stored bits, group by group. -/
theorem bitsToText_storeSlice (T : Tables) (d : Store) (m : Nat) :
    bitsToText T (storeSlice d 0 (8 * m)) = textOfBytes T d m := by
  unfold bitsToText textOfBytes
  have e : (storeSlice d 0 (8 * m)).length / 8 = m := by simp
  rw [e, chunks_eq_map_range, List.map_map]
  have hb : ∀ j ∈ List.range m, (decimalOf ∘ fun j => ((storeSlice d 0 (8 * m)).drop (j * 8)).take 8) j = byteAt d j := by
    intro j hj
    have := List.mem_range.mp hj
    simp only [Function.comp, decimalOf, byteAt]
    rw [drop_take_storeSlice _ _ _ _ _ (by omega), Nat.zero_add, Nat.mul_comm]
  rw [List.map_congr_left hb]
  clear hb e
  generalize List.range m = l
  induction l with
  | nil => rfl
  | cons j l ih =>
    rw [List.map_cons, List.filterMap_cons]
    by_cases h : byteAt d j = 0
    · rw [List.filter_cons_of_neg (by simp [h]), ih, if_pos h]
    · rw [List.filter_cons_of_pos (by simpa using h), List.map_cons, ih, if_neg h]

theorem storeSlice_packBits_all {v : Bits} (h : v.length ≤ 2048) {n : Nat} (hn : n = v.length) :
    storeSlice (packBits v) 0 n = v := by subst hn; exact storeSlice_packBits v h

end Sys2Proof.Machine
end

