-- ==== Sys2Proof/Laws/Runs.lean ====
section
/-! SUPPORT. Runs of host accesses: a run is its accesses one after another (R74), and what the load recipes of R78
leave. -/

namespace Sys2Proof.Machine

theorem takeFault_setInput (c : FaultCode) (s : State) (x : List HostAccess) :
    takeFault c { s with input := x } = { takeFault c s with input := x } := by
  unfold takeFault
  by_cases hf : s.fault = true
  · rw [if_pos hf, if_pos hf]
  · rw [if_neg hf, if_neg hf]

theorem mapWrite_setInput (r : MapReg) (v : Word) (s : State) (x : List HostAccess) :
    mapWrite r v { s with input := x } = { mapWrite r v s with input := x } := by
  have hF := takeFault_setInput .hostAccess s x
  cases r <;> first
    | exact hF
    | rfl
    | (simp only [mapWrite, writeBLen]; split
       · rfl
       · exact hF)
    | (simp only [mapWrite, writeTLen]; split
       · rfl
       · exact hF)

/-- A command leaves the model's own fields (log 1, log 2). -/
theorem exec_keeps_port {i : Instr} {s t : State} (h : exec i s = .next t) :
    t = { t with input := s.input, reply := s.reply } := by
  have e : exec i s = .next { t with input := s.input, reply := s.reply } := exec_setPort h s.input s.reply
  rw [h] at e
  injection e

theorem exec_setInput {i : Instr} {s t : State} (h : exec i s = .next t) (x : List HostAccess) :
    exec i { s with input := x } = .next { t with input := x } := by
  have hr : t.reply = s.reply := by rw [exec_keeps_port h]
  have e : exec i { s with input := x } = .next { t with input := x, reply := s.reply } := exec_setPort h x s.reply
  rw [e, ← hr]

/-- An access takes no notice of the accesses that follow it. -/
theorem hostAccess_setInput {a : HostAccess} {s t : State} (h : hostAccess a s = .next t) (x : List HostAccess) :
    hostAccess a { s with input := x } = .next { t with input := x } := by
  cases a with
  | reset => injection h with h; subst h; rfl
  | read addr =>
    injection h with h; subst h
    rw [hostAccess_read]
    cases hm : s.mapWord (decodeAddr addr) with
    | some w => rw [memRead_of_some hm, memRead_of_some (s := { s with input := x }) (w := w) (by rw [← hm]; rfl)]
    | none =>
      rw [memRead_of_none hm, memRead_of_none (s := { s with input := x }) (by rw [← hm]; rfl), takeFault_setInput]
  | write addr v =>
    rw [hostAccess_write] at h ⊢
    by_cases hf : s.fault = true
    · rw [memWrite_of_fault _ _ hf] at h
      injection h with h; subst h
      exact memWrite_of_fault (s := { s with input := x }) addr v hf
    · have hf : s.fault = false := by simpa using hf
      have hf' : ({ s with input := x } : State).fault = false := hf
      by_cases hc : decodeAddr addr = .cmd
      · simp only [memWrite, hf, hc, Bool.false_eq_true, if_false, writeCmd] at h ⊢
        rw [← hf]
        cases hd : decode v with
        | ok i =>
          simp only [hd] at h ⊢
          exact exec_setInput h x
        | error e =>
          simp only [hd, raise] at h ⊢
          injection h with h; subst h
          rw [← takeFault_setInput]
      · rw [memWrite_of_ne_cmd rfl hc v hf] at h
        injection h with h; subst h
        rw [memWrite_of_ne_cmd rfl hc v hf', mapWrite_setInput]

/-- An access leaves the accesses that follow it pending. -/
theorem hostAccess_input {a : HostAccess} {s t : State} (h : hostAccess a s = .next t) : t.input = s.input := by
  have e : hostAccess a s = .next { t with input := s.input } := hostAccess_setInput h s.input
  rw [h] at e
  injection e with e
  rw [e]

/-- One access, then the rest of a run. -/
theorem runAccesses_cons_of {a : HostAccess} {s t : State} (as : List HostAccess)
    (h : hostAccess a { s with input := [], reply := none } = .next t) :
    runAccesses (a :: as) s = runAccesses as t :=
  runAccesses_cons a as s { t with input := as } (hostAccess_setInput h as) rfl

/-- A run of a first part and a second part is the second part's run from where the first ends (R74). -/
theorem runAccesses_append {as : List HostAccess} {s t : State} (h : runAccesses as s = .next t) (bs : List HostAccess) :
    runAccesses (as ++ bs) s = runAccesses bs t := by
  induction as generalizing s with
  | nil => injection h with h; subst h; rfl
  | cons a as ih =>
    obtain ⟨u, hu, -⟩ := hostAccess_total a { s with input := [], reply := none }
    rw [runAccesses_cons_of as hu] at h
    rw [List.cons_append, runAccesses_cons_of (as ++ bs) hu]
    exact ih h

/-- A run and one access more. -/
theorem runAccesses_snoc {as : List HostAccess} {s t u : State} {a : HostAccess} (h : runAccesses as s = .next t)
    (ha : hostAccess a { t with input := [], reply := none } = .next u) : runAccesses (as ++ [a]) s = .next u := by
  rw [runAccesses_append h, runAccesses_cons_of [] ha, runAccesses_nil]
  have e : u.input = [] := hostAccess_input ha
  rw [← e]

/-- A run, then a command's word to CMD and a read of STATUS (R38, R67): the last steps of the host macros (R102). -/
theorem run_command_status {s t u : State} {as : List HostAccess} {w : Word} {i : Instr}
    (h : runAccesses as s = .next t) (hd : decode w = .ok i) (hf : t.fault = false)
    (hu : exec i { t with input := [], reply := none } = .next u) :
    runAccesses (as ++ [.write 0x000#12 w, .read 0x001#12]) s
      = .next { u with reply := some (BitVec.ofNat 32 (u.fault.toNat + 2 * u.kvalid.toNat)) } := by
  have h2 : runAccesses (as ++ [.write 0x000#12 w]) s = .next u :=
    runAccesses_snoc h ((write_cmd_ok hd (s := { t with input := [], reply := none }) hf).trans hu)
  have hi : u.input = [] := by rw [exec_keeps_port hu]
  have h3 := runAccesses_snoc h2
    (read_mapped (r := .status) (a := 0x001#12) rfl (s := { u with input := [], reply := none }) rfl)
  rw [List.append_assoc] at h3
  refine h3.trans ?_
  rw [show ({ u with reply := some (BitVec.ofNat 32 (u.fault.toNat + 2 * u.kvalid.toNat)) } : State) =
    { u with input := u.input, reply := some (BitVec.ofNat 32 (u.fault.toNat + 2 * u.kvalid.toNat)) } from rfl, hi]
  rfl

/-! ### The load recipes (R78) -/

/-- After the first m symbol writes of `loadText`. -/
theorem run_symbolWrites (s : State) (hs : s.fault = false) (n : TSel) (v : Text) (hv : v.length ≤ 256) (m : Nat)
    (hm : m ≤ v.length) :
    ∃ t, runAccesses ((List.range m).map (fun i => .write (BitVec.ofNat 12 (0x400 + 0x100 * n.val + i)) (v.getD i 0#32))) s
        = .next t
      ∧ (∀ i, i < m → t.sym n i = v.getD i 0#32) ∧ OnlyT n s t
      ∧ t = { s with t := t.t, input := [], reply := t.reply } := by
  induction m with
  | zero => exact ⟨_, runAccesses_nil s, by intro i hi; omega, fun _ _ => rfl, rfl⟩
  | succ m ih =>
    obtain ⟨t, ht, hsym, ho, he⟩ := ih (by omega)
    have hf : t.fault = false := by rw [he]; exact hs
    have hm' : m < 256 := by omega
    rw [List.range_succ (n := m), List.map_append]
    refine ⟨_, runAccesses_snoc ht (write_mapped (r := .tdata n ⟨m, hm'⟩) rfl (by simp) _ hf), fun i hi => ?_, fun k hk => ?_, ?_⟩
    · show ((t.t.set n.val { t.t[n] with store := t.t[n].store.set m (v.getD m 0#32) hm' } n.isLt)[n]).store.toList.getD i 0#32 = _
      rw [getElem_set_same]
      by_cases e : i = m
      · subst e; simp
      · rw [← hsym i (by omega)]
        simp only [State.sym, Vector.toList_set, List.getD_eq_getElem?_getD, List.getElem?_set_ne (Ne.symm e)]
    · show (t.t.set n.val _ n.isLt)[k] = _
      rw [getElem_set_ne _ _ _ _ hk]
      exact ho k hk
    · rw [he]; rfl

/-- What the recipe for a text leaves (R78). -/
theorem run_loadText (s : State) (hs : s.fault = false) (n : TSel) (v : Text) (hv : v.length ≤ 256) :
    ∃ t, runAccesses (loadText n v) s = .next t ∧ t.readT n = v
      ∧ OnlyT n s t ∧ t = { s with t := t.t, input := [], reply := none } := by
  obtain ⟨t, ht, hsym, ho, he⟩ := run_symbolWrites s hs n v hv v.length (Nat.le_refl _)
  have hf : t.fault = false := by rw [he]; exact hs
  have hw : (BitVec.ofNat 32 v.length).toNat = v.length := by
    rw [BitVec.toNat_ofNat]; exact Nat.mod_eq_of_lt (by omega)
  refine ⟨_, runAccesses_snoc ht (write_mapped (r := .tlen n) rfl (by simp) _ hf), ?_⟩
  rw [show mapWrite (.tlen n) (BitVec.ofNat 32 v.length) { t with input := [], reply := none }
      = { t with t := t.t.set n.val { t.t[n] with len := v.length } n.isLt, input := [], reply := none } from by
    simp only [mapWrite, writeTLen, hw, hv, if_true]]
  refine ⟨?_, fun k hk => ?_, by rw [he]⟩
  · show textSlice ((t.t.set n.val { t.t[n] with len := v.length } n.isLt)[n]).store _ = v
    rw [getElem_set_same]
    apply List.ext_getElem
    · simp [textSlice]
    · intro i h1 h2
      rw [getElem_textSlice]
      have := hsym i h2
      unfold State.sym at this
      rw [this, List.getD_eq_getElem?_getD, List.getElem?_eq_getElem h2, Option.getD_some]
  · show (t.t.set n.val _ n.isLt)[k] = _
    rw [getElem_set_ne _ _ _ _ hk]
    exact ho k hk

/-- After the first m data word writes of `loadBits`. -/
theorem run_dataWordWrites (s : State) (hs : s.fault = false) (n : BSel) (v : Bits) (m : Nat) (hm : m ≤ 64) :
    ∃ t, runAccesses ((List.range m).map (fun w => .write (BitVec.ofNat 12 (0x100 + 0x40 * n.val + w))
          (bitsToWord ((List.range 32).map (fun j => v.getD (32 * w + j) false))))) s = .next t
      ∧ (∀ i, i < 32 * m → t.bit n i = v.getD i false) ∧ OnlyB n s t
      ∧ t = { s with b := t.b, input := [], reply := t.reply } := by
  induction m with
  | zero => exact ⟨_, runAccesses_nil s, by intro i hi; omega, fun _ _ => rfl, rfl⟩
  | succ m ih =>
    obtain ⟨t, ht, hbit, ho, he⟩ := ih (by omega)
    have hf : t.fault = false := by rw [he]; exact hs
    have hm' : m < 64 := by omega
    rw [List.range_succ (n := m), List.map_append]
    refine ⟨_, runAccesses_snoc ht (write_mapped (r := .bdata n ⟨m, hm'⟩) rfl (by simp) _ hf), fun i hi => ?_, fun k hk => ?_, ?_⟩
    · show ((t.b.set n.val { t.b[n] with store := setDataWord t.b[n].store ⟨m, hm'⟩ (padWord v m) } n.isLt)[n]).store.getMsbD i = _
      rw [getElem_set_same, getMsbD_setDataWord _ _ _ _ (by omega)]
      by_cases e : i / 32 = m
      · rw [if_pos e, getMsbD_padWord _ _ _ (by omega)]
        congr 1; omega
      · rw [if_neg e]; exact hbit i (by omega)
    · show (t.b.set n.val _ n.isLt)[k] = _
      rw [getElem_set_ne _ _ _ _ hk]
      exact ho k hk
    · rw [he]; rfl

/-- What the recipe for a bitstring leaves (R78). -/
theorem run_loadBits (s : State) (hs : s.fault = false) (n : BSel) (v : Bits) (hv : v.length ≤ 2048) :
    ∃ t, runAccesses (loadBits n v) s = .next t ∧ t.readB n = v
      ∧ OnlyB n s t ∧ t = { s with b := t.b, input := [], reply := none } := by
  have hc : v.length ≤ 32 * ceilDiv v.length 32 := by unfold ceilDiv; omega
  obtain ⟨t, ht, hbit, ho, he⟩ := run_dataWordWrites s hs n v (ceilDiv v.length 32) (ceilDiv_le (by omega) (by omega))
  have hf : t.fault = false := by rw [he]; exact hs
  have hw : (BitVec.ofNat 32 v.length).toNat = v.length := by
    rw [BitVec.toNat_ofNat]; exact Nat.mod_eq_of_lt (by omega)
  refine ⟨_, runAccesses_snoc ht (write_mapped (r := .blen n) rfl (by simp) _ hf), ?_⟩
  rw [show mapWrite (.blen n) (BitVec.ofNat 32 v.length) { t with input := [], reply := none }
      = { t with b := t.b.set n.val { t.b[n] with len := v.length } n.isLt, input := [], reply := none } from by
    simp only [mapWrite, writeBLen, hw, hv, if_true]]
  refine ⟨?_, fun k hk => ?_, by rw [he]⟩
  · show storeSlice ((t.b.set n.val { t.b[n] with len := v.length } n.isLt)[n]).store 0 _ = v
    rw [getElem_set_same]
    apply bits_ext
    · simp
    · intro i hi
      have hi' : i < v.length := by simpa using hi
      rw [← hbit i (by omega)]
      simp [storeSlice, hi', State.bit]
  · show (t.b.set n.val _ n.isLt)[k] = _
    rw [getElem_set_ne _ _ _ _ hk]
    exact ho k hk

end Sys2Proof.Machine
end

