-- ==== Sys2Proof/Tests/Slice0.lean ====
section
/-! SUPPORT. Tests. Expected values are the spec's: the words of 95_test_vectors.md section 10 and the vectors of its
sections 3 to 9, with its test tables SBOX_T and CP_EXT_T (section 2). After them, a witness for the hypotheses of every
obligation that has some. -/

open Sys2Proof Sys2Proof.Machine

namespace Sys2Proof.Tests

-- One theorem after another: a hundred kernel evaluations waiting at once would each hold a thread's stack.
set_option Elab.async false

/-! ### WellFormed refuses each ill-formed term (R92) -/

theorem test_wellFormed_split_imm : Instr.WellFormed (.split 0 4096) = false := by decide
theorem test_wellFormed_getq_imm : Instr.WellFormed (.getq 0 4096) = false := by decide
theorem test_wellFormed_kidx_imm : Instr.WellFormed (.kidx 4096) = false := by decide
theorem test_wellFormed_imm_edge : Instr.WellFormed (.split 3 4095) = true := by decide

/-! ### Decoding: the words of section 10, each written out from R90 and R98 -/

theorem test_decode_codeof : decode 0x10000000#32 = .ok .codeof := by decide
theorem test_decode_symof : decode 0x11000000#32 = .ok .symof := by decide
theorem test_decode_t2b : decode 0x20310000#32 = .ok (.t2b 3 1) := by decide
theorem test_decode_b2t : decode 0x21130000#32 = .ok (.b2t 1 3) := by decide
theorem test_decode_xor : decode 0x22321000#32 = .ok (.xor 3 2 1) := by decide
theorem test_decode_dec8 : decode 0x23030000#32 = .ok (.dec8 3) := by decide
theorem test_decode_rotl11 : decode 0x24330000#32 = .ok (.rotl11 3 3) := by decide
theorem test_decode_split : decode 0x30030FFF#32 = .ok (.split 3 4095) := by decide
theorem test_decode_join : decode 0x31300000#32 = .ok (.join 3) := by decide
theorem test_decode_getq : decode 0x32300FFF#32 = .ok (.getq 3 4095) := by decide
theorem test_decode_subst : decode 0x40330000#32 = .ok (.subst 3 3) := by decide
theorem test_decode_frnd : decode 0x41333000#32 = .ok (.frnd 3 3 3) := by decide
theorem test_decode_kidx : decode 0x4200001F#32 = .ok (.kidx 31) := by decide
theorem test_decode_ldkey : decode 0x43010000#32 = .ok (.ldkey 1) := by decide
theorem test_decode_encb : decode 0x44333000#32 = .ok (.encb 3 3 3) := by decide
theorem test_decode_decb : decode 0x45012000#32 = .ok (.decb 0 1 2) := by decide
theorem test_decode_enc : decode 0x46311000#32 = .ok (.enc 3 1 1) := by decide
theorem test_decode_dec : decode 0x47131000#32 = .ok (.dec 1 3 1) := by decide

/-- The same through the host's view, and none of the bits above the word. -/
theorem test_decodeTableWord : decodeTableWord 32 0x32300FFF = some (.getq 3 4095) ∧ decodeTableWord 32 0 = none := by decide

/-- The illegal words of section 10. -/
theorem test_decode_illegal :
    [0x00000000#32, 0xFFFFFFFF#32, 0x12000000#32, 0x48000000#32].map decode = List.replicate 4 (.error .unlistedOpcode)
    ∧ [0x10000001#32, 0x31100001#32, 0x46001001#32, 0x30100040#32, 0x42100000#32, 0x23001000#32].map decode
      = List.replicate 6 (.error .unusedFieldNotZero)
    ∧ [0x22401000#32, 0x20020000#32, 0x43020000#32, 0x47201000#32].map decode
      = List.replicate 4 (.error .specifierOutOfRange) := by
  decide +kernel

/-! ### States of the vectors -/

/-- SBOX_T and CP_EXT_T (section 2). -/
def tables : Tables := ⟨#v[4, 10, 9, 2, 13, 8, 0, 14, 6, 11, 1, 12, 7, 15, 5, 3], Config.cpExtStandIn, 0x30#32⟩

/-- The reset state with the test tables. -/
def s0 : State := { State.reset with tables := tables, input := [] }

/-- `bin_32`, `bin_64`. -/
abbrev word (v : Nat) : Bits := bin 32 v
abbrev block (v : Nat) : Bits := bin 64 v

/-- KEY_A and KEY_D (section 8). -/
def keyA : Text := List.replicate 32 0x61#32
def keyD : Text := (List.range 10).map (fun i => BitVec.ofNat 32 (0x30 + i)) ++ (List.range 22).map (fun i => BitVec.ofNat 32 (0x61 + i))

/-- What `f` reads in the state that a command leaves. -/
def after {α : Type} (i : Instr) (s : State) (f : State → α) : Option α :=
  match exec i s with
  | .next t => some (f t)
  | .fault _ => none
  | .refused _ => none

/-- FAULT and ERR. -/
def outcome (t : State) : Bool × Nat := (t.fault, t.err.toNat)

/-- Length and data words 0 and 1 of a bit register. -/
def breg (n : BSel) (t : State) : Nat × Word × Word := (t.b[n].len, t.bword n 0, t.bword n 1)

/-! ### One step of each command (sections 3 to 9) -/

theorem test_codeof : after .codeof (s0.writeRes 0x405) (·.res) = some 0x85 := by decide +kernel
theorem test_codeof_unknown :
    after .codeof (s0.writeRes 0x7F) (fun t => (outcome t, t.res)) = some ((true, 1), 0x7F) := by decide +kernel

theorem test_symof : after .symof (s0.writeRes 0x85) (·.res) = some 0x405 := by decide +kernel
theorem test_symof_sentinel : after .symof (s0.writeRes 0xF2) (fun t => (outcome t, t.res)) = some ((false, 0), 0x30) := by
  decide +kernel

theorem test_t2b : after (.t2b 0 0) (s0.writeT 0 [0x41, 0x405, 0x43F]) (breg 0) = some (24, 0x4185BF00, 0) := by
  decide +kernel
theorem test_t2b_unknown :
    after (.t2b 0 0) (s0.writeT 0 [0x41, 0x1F600]) (fun t => (outcome t, t.b[0].len)) = some ((true, 1), 0) := by decide +kernel

theorem test_b2t : after (.b2t 0 0) (s0.writeB 0 (bin 40 0x4100427FF2)) (·.readT 0) = some [0x41, 0x42, 0x30, 0x30] := by
  decide +kernel
theorem test_b2t_length : after (.b2t 0 0) (s0.writeB 0 (bin 12 0x410)) outcome = some (true, 6) := by decide +kernel

theorem test_xor : after (.xor 2 0 1) ((s0.writeB 0 (word 0x01234567)).writeB 1 (word 0x89ABCDEF)) (breg 2)
    = some (32, 0x88888888, 0) := by decide +kernel
theorem test_xor_length : after (.xor 2 0 1) ((s0.writeB 0 (bin 4 10)).writeB 1 (bin 3 3)) outcome = some (true, 2) := by
  decide +kernel

theorem test_dec8 : after (.dec8 0) (s0.writeB 0 (bin 8 0x80)) (·.res) = some 128 := by decide +kernel
theorem test_dec8_length : after (.dec8 0) (s0.writeB 0 (bin 7 0x21)) outcome = some (true, 6) := by decide +kernel

theorem test_rotl11 : after (.rotl11 1 0) (s0.writeB 0 (word 0x12345678)) (breg 1) = some (32, 0xA2B3C091, 0) := by
  decide +kernel
theorem test_rotl11_same : after (.rotl11 0 0) (s0.writeB 0 (word 0xFFE00000)) (breg 0) = some (32, 0x000007FF, 0) := by
  decide +kernel

theorem test_split : after (.split 0 2) (s0.writeB 0 (bin 5 22)) (fun t => (t.q.ps, t.q.cnt, t.qword 0))
    = some (2, 3, 0xB0000000) := by decide +kernel
theorem test_split_capacity : after (.split 0 3) (s0.writeB 0 (zeros 2048)) outcome = some (true, 6) := by decide +kernel

theorem test_join : after (.join 1) (s0.writeQ 2 [bin 2 2, bin 2 3, bin 2 0]) (·.readB 1) = some (bin 6 0x2C) := by
  decide +kernel
theorem test_join_empty : after (.join 1) s0 outcome = some (true, 4) := by decide +kernel

theorem test_getq : after (.getq 2 1) (s0.writeQ 2 [bin 2 2, bin 2 3, bin 2 0]) (·.readB 2) = some [true, true] := by
  decide +kernel
theorem test_getq_index : after (.getq 2 3) (s0.writeQ 2 [bin 2 2, bin 2 3, bin 2 0]) outcome = some (true, 6) := by
  decide +kernel

theorem test_subst : after (.subst 1 0) (s0.writeB 0 (word 0x89ABCDEF)) (breg 1) = some (32, 0x6B1C7F53, 0) := by
  decide +kernel
theorem test_subst_length : after (.subst 1 0) (s0.writeB 0 (zeros 33)) outcome = some (true, 6) := by decide +kernel

theorem test_frnd : after (.frnd 2 0 1) ((s0.writeB 0 (word 0x61616161)).writeB 1 (word 0x41424344)) (breg 2)
    = some (32, 0x94CCC4A4, 0) := by decide +kernel
theorem test_frnd_length : after (.frnd 2 0 1) ((s0.writeB 0 (zeros 31)).writeB 1 (zeros 31)) outcome = some (true, 6) := by
  decide +kernel

theorem test_kidx : after (.kidx 26) s0 (·.res) = some 7 ∧ after (.kidx 24) s0 (·.res) = some 0 := by decide +kernel
theorem test_kidx_range : after (.kidx 32) s0 outcome = some (true, 5) := by decide +kernel

theorem test_ldkey : after (.ldkey 1) (s0.writeT 1 keyD) (fun t => (t.k, t.kvalid)) = some (#v[0x30313233, 0x34353637,
    0x38396162, 0x63646566, 0x6768696A, 0x6B6C6D6E, 0x6F707172, 0x73747576], true) := by decide +kernel
theorem test_ldkey_symbol_first : after (.ldkey 1) (s0.writeT 1 [0x41, 0x80, 0x42, 0x43, 0x44]) outcome = some (true, 1) := by
  decide +kernel

/-- A block and a key part of section 7. -/
def sBlock : State := (s0.writeB 0 (block 0x0123456789ABCDEF)).writeB 1 (word 0x61616161)

theorem test_encb : after (.encb 2 0 1) sBlock (fun t => (breg 2 t, t.lreg, t.rreg, t.rnd))
    = some ((64, 0x5FAA8B94, 0x7A03CD10), 0x5FAA8B94, 0x7A03CD10, 32) := by decide +kernel
theorem test_encb_order : after (.encb 2 0 1) ((s0.writeB 0 (zeros 63)).writeB 1 (zeros 31)) outcome = some (true, 6) := by
  decide +kernel

theorem test_decb : after (.decb 2 0 1) sBlock (fun t => (breg 2 t, t.lreg, t.rreg, t.rnd))
    = some ((64, 0x7BA2E060, 0x65D8BE11), 0x7BA2E060, 0x65D8BE11, 32) := by decide +kernel
theorem test_decb_length : after (.decb 2 0 1) ((s0.writeB 0 (zeros 64)).writeB 1 (zeros 33)) outcome = some (true, 2) := by
  decide +kernel

/-- The 9-symbol message of section 8. -/
def sMessage : State := (s0.writeT 0 ((List.range 9).map (fun i => BitVec.ofNat 32 (0x41 + i)))).writeT 1 keyD

theorem test_enc : after (.enc 0 0 1) sMessage (fun t => (breg 0 t, (t.bword 0 2, t.bword 0 3), (t.nblk, t.bidx, t.rreg)))
    = some ((128, 0x5F446102, 0x600FED4D), (0xD0AB3C29, 0x5D992429), (2, 1, 0x5D992429)) := by decide +kernel
theorem test_enc_order : after (.enc 0 0 1) ((s0.writeT 0 []).writeT 1 (keyD.take 31)) outcome = some (true, 3) := by
  decide +kernel

/-- The cipher blocks of that message. -/
def sCipher : State := (s0.writeB 0 (block 0x5F446102600FED4D ++ block 0xD0AB3C295D992429)).writeT 1 keyD

theorem test_dec : after (.dec 0 0 1) sCipher (fun t => (t.readT 0, t.qword 2, t.nblk, t.bidx, t.lreg, t.rreg))
    = some ((List.range 9).map (fun i => BitVec.ofNat 32 (0x41 + i)), 0x49000000, 2, 0, 0x41424344, 0x45464748) := by
  decide +kernel
theorem test_dec_empty : after (.dec 0 0 1) (s0.writeT 1 keyD) outcome = some (true, 4) := by decide +kernel

/-! ### Host accesses (section 9) -/

/-- What one access leaves: FAULT, ERR and the word returned. -/
def access (a : HostAccess) (s : State) : Option (Bool × Nat × Option Word) :=
  match hostAccess a s with
  | .next t => some (t.fault, t.err.toNat, t.reply)
  | .fault _ => none
  | .refused _ => none

theorem test_read_cmd : access (.read 0x000) s0 = some (true, 8, some 0) := by decide +kernel
theorem test_read_unmapped :
    access (.read 0x007) s0 = some (true, 8, some 0) ∧ access (.read 0x600) s0 = some (true, 8, some 0) := by decide +kernel
theorem test_write_read_only :
    access (.write 0x001 0) s0 = some (true, 8, none) ∧ access (.write 0x200 0) s0 = some (true, 8, none) := by decide +kernel
theorem test_write_lengths : access (.write 0x020 2049) s0 = some (true, 8, none) ∧ access (.write 0x020 2048) s0 = some (false, 0, none)
    ∧ access (.write 0x024 257) s0 = some (true, 8, none) ∧ access (.write 0x024 256) s0 = some (false, 0, none) := by
  decide +kernel

/-- The first step after reset runs the command placed with withFetchWord (KIDX 26). -/
theorem test_withFetchWord : (match step (State.reset.withFetchWord 32 0x4200001A) with
    | .next t => t.res
    | .fault _ => 0
    | .refused _ => 0) = 7#32 := by decide +kernel

/-! ### Witnesses: concrete states and operands that meet the hypotheses of the obligations -/

theorem s0_inv : s0.Inv := State.Inv.reset_with rfl []

theorem length_range_map (n : Nat) (f : Nat → Sym) : ((List.range n).map f).length = n := by simp

theorem textMapped_of_codes {s : State} {n : TSel}
    (h : (match textToBits s.tables (s.readT n) with | .ok _ => true | .error _ => false) = true) : s.TextMapped n := by
  refine (textMapped_iff s n).mpr ?_
  cases hv : textToBits s.tables (s.readT n) with
  | ok v => exact ⟨v, rfl⟩
  | error e => rw [hv] at h; simp at h

theorem not_mapped_of_error {T : Tables} {x : Sym} (h : codeOf T x = .error .unknownSymbol) : ¬ Mapped T x := by
  rw [mapped_iff]; rintro ⟨c, hc⟩; rw [h] at hc; simp at hc

/-- The message of two blocks meets the invariant. -/
theorem sMessage_inv : sMessage.Inv := (s0_inv.writeT 0 (by decide +kernel)).writeT 1 (by decide +kernel)

theorem sMessage_text : sMessage.TextMapped 0 := textMapped_of_codes (by decide +kernel)
theorem sMessage_key : sMessage.TextMapped 1 := textMapped_of_codes (by decide +kernel)

/-- A text of the full 256 symbols (33 + i mod 90, section 8) under KEY_D. -/
def sFull : State := (s0.writeT 0 ((List.range 256).map (fun i => BitVec.ofNat 32 (33 + i % 90)))).writeT 1 keyD

theorem sFull_inv : sFull.Inv := (s0_inv.writeT 0 (by decide +kernel)).writeT 1 (by decide +kernel)
theorem sFull_text : sFull.TextMapped 0 := textMapped_of_codes (by decide +kernel)
theorem sFull_key : sFull.TextMapped 1 := textMapped_of_codes (by decide +kernel)

theorem sCipher_inv : sCipher.Inv := (s0_inv.writeB 0 (by decide +kernel)).writeT 1 (by decide +kernel)

/-- A state whose Q holds three chunks of two bits. -/
def sQueue : State := s0.writeQ 2 [bin 2 2, bin 2 3, bin 2 0]

theorem sQueue_inv : sQueue.Inv := s0_inv.writeQ (by decide) (by decide) (by decide) (by decide)

/-- A state with FAULT = 1. -/
def sFaulted : State := s0.faulted .emptyJoin

theorem witness_DecodeEncodeAgree : Instr.WellFormed (.getq 3 4095) = true ∧ Instr.WellFormed (.kidx 0) = true := by decide

theorem witness_EncodeDecodeAgree : decode 0x32300FFF#32 = .ok (.getq 3 4095) := by decide

theorem witness_DecodeIsMaskAndMatch :
    (∃ o : Op, 0x4200001F#32 &&& o.maskWord = o.matchWord ∧ o.build 0x4200001F#32 = .kidx 31)
    ∧ s0.fault = false ∧ (∀ o : Op, 0x22401000#32 &&& o.maskWord ≠ o.matchWord) :=
  ⟨⟨.kidx, by decide⟩, rfl, fun o => by cases o <;> decide⟩

theorem witness_IllegalCommandExactly : s0.fault = false
    ∧ fieldOp 0x48000000#32 ∉ [0x10#8, 0x11#8, 0x20#8, 0x21#8, 0x22#8, 0x23#8, 0x24#8, 0x30#8, 0x31#8, 0x32#8, 0x40#8,
        0x41#8, 0x42#8, 0x43#8, 0x44#8, 0x45#8, 0x46#8, 0x47#8]
    ∧ (fieldOp 0x20020000#32 = Op.t2b.opcode ∧ ¬ fieldLegal Op.t2b.uses.2.1 (fieldRa 0x20020000#32))
    ∧ (fieldOp 0x22401000#32 = Op.xor.opcode ∧ ¬ fieldLegal Op.xor.uses.1 (fieldRd 0x22401000#32))
    ∧ (fieldOp 0x10000001#32 = Op.codeof.opcode ∧ Op.codeof.uses.2.2.2 = false ∧ fieldImm 0x10000001#32 ≠ 0#12) := by
  refine ⟨rfl, by decide, ⟨by decide, fun h => ?_⟩, ⟨by decide, fun h => ?_⟩, by decide, by decide, by decide⟩
  · exact absurd ((fieldLegal_iff _ _).mp h) (by decide)
  · exact absurd ((fieldLegal_iff _ _).mp h) (by decide)

/-- The reset state of a step that is an ENC with its operands loaded. -/
def sPending : State := { sMessage with input := [.write 0x000#12 0x46001000#32], reply := none }

theorem sPending_inv : sPending.Inv := sMessage_inv.setPort _ _

theorem s0_workInv : s0.WorkInv := State.WorkInv.reset_with tables []

theorem witness_StepKeepsInv : sPending.Inv ∧ ∃ t, step sPending = .next t :=
  ⟨sPending_inv, (step_total sPending).imp fun _ h => h.1⟩

theorem witness_WorkingRegistersConsistent : sPending.Inv ∧ sPending.WorkInv ∧ ∃ t, step sPending = .next t :=
  ⟨sPending_inv, ⟨s0_workInv.no_key, s0_workInv.no_message, s0_workInv.index_lt, s0_workInv.rounds_done⟩,
    (step_total sPending).imp fun _ h => h.1⟩

theorem witness_StepKeepsTables : ∃ t, step sPending = .next t := (step_total sPending).imp fun _ h => h.1

theorem witness_ResetEventRestoresReset :
    ({ sFaulted with input := [.reset, .read 0x001] } : State).input = .reset :: [.read 0x001] := rfl

theorem witness_CommandsOnResetState : s0 = { State.reset with tables := s0.tables } ∧ 1 ≤ 1 ∧ 1 ≤ 2048 ∧ 2048 ≤ 2048 :=
  ⟨rfl, by decide⟩

theorem witness_StepTakesOldestAccess : s0.input = [] ∧ sPending.input = .write 0x000#12 0x46001000#32 :: [] := ⟨rfl, rfl⟩

theorem witness_StepRunsDecodedCommand :
    (sPending.fault = false ∧ sPending.input = .write 0x000#12 0x46001000#32 :: []
      ∧ decode 0x46001000#32 = .ok (.enc 0 0 1))
    ∧ (let s : State := { sFaulted with input := [.write 0x000#12 0x46001000#32] }
       s.fault = true ∧ s.input = .write 0x000#12 0x46001000#32 :: [])
    ∧ (s0.fault = false ∧ Instr.WellFormed (.split 3 4095) = true) :=
  ⟨⟨rfl, rfl, by decide⟩, ⟨rfl, rfl⟩, rfl, by decide⟩

theorem witness_FaultStickyUntilReset : sFaulted.fault = true
    ∧ HostAccess.reset ∉ [HostAccess.write 0x000 0x42000000, .read 0xFFF, .write 0x007 0] := by decide

theorem witness_CommandFaultsOrWritesOnly : s0.fault = false := rfl

theorem witness_FirstFailedCheckIsRaised : s0.fault = false ∧ decode 0x48000000#32 = .error .unlistedOpcode
    ∧ (decode 0x41201000#32 = .ok (.frnd 2 0 1) ∧ FirstFailed (checks (.frnd 2 0 1) s0) .operandError)
    ∧ (decode 0x4200001F#32 = .ok (.kidx 31) ∧ NoneFailed (checks (.kidx 31) s0)) := by
  refine ⟨rfl, by decide, ⟨by decide, ?_⟩, by decide, ?_⟩
  · simp [checks, FirstFailed, s0, State.reset, BitReg.empty]
  · simp [checks, NoneFailed]

/-- A text register with a symbol that CP does not hold (127) as its last. -/
def sUnmapped : State := (s0.writeT 0 [0x41, 0x7F]).writeRes 0x7F

theorem sUnmapped_symbol : ∃ i, i < sUnmapped.t[(0 : TSel)].len ∧ ¬ Mapped sUnmapped.tables (sUnmapped.sym 0 i) :=
  ⟨1, by decide +kernel, not_mapped_of_error (by decide +kernel)⟩

theorem witness_UnknownSymbolExactly : sUnmapped.fault = false ∧ unknownSymbolCause .codeof sUnmapped
    ∧ unknownSymbolCause (.t2b 0 0) sUnmapped ∧ unknownSymbolCause (.ldkey 0) sUnmapped
    ∧ unknownSymbolCause (.enc 0 0 1) sUnmapped ∧ unknownSymbolCause (.enc 0 1 0) sUnmapped
    ∧ unknownSymbolCause (.dec 1 0 0) sUnmapped :=
  ⟨rfl, not_mapped_of_error (by decide +kernel), sUnmapped_symbol, sUnmapped_symbol, .inl sUnmapped_symbol,
    .inr ⟨textMapped_of_codes (by decide +kernel), sUnmapped_symbol⟩, sUnmapped_symbol⟩

/-- Lengths 64, 31 and 32 in B0, B1 and B2. -/
def sLengths : State := ((s0.writeB 0 (zeros 64)).writeB 1 (zeros 31)).writeB 2 (zeros 32)

theorem witness_LengthMismatchExactly : sLengths.fault = false ∧ lengthMismatchCause (.xor 3 1 2) sLengths
    ∧ lengthMismatchCause (.frnd 3 1 2) sLengths ∧ lengthMismatchCause (.encb 3 0 1) sLengths
    ∧ lengthMismatchCause (.decb 3 0 1) sLengths := by
  refine ⟨rfl, ?_, ?_, ?_, ?_⟩ <;> (unfold lengthMismatchCause; decide +kernel)

theorem witness_KeyLengthErrorExactly : (s0.writeT 1 (keyD.take 31)).fault = false
    ∧ keyLengthErrorCause (.ldkey 1) (s0.writeT 1 (keyD.take 31))
    ∧ keyLengthErrorCause (.enc 0 0 1) (s0.writeT 1 (keyD.take 31))
    ∧ keyLengthErrorCause (.dec 0 0 1) (s0.writeT 1 (keyD ++ [0x41])) :=
  ⟨rfl, ⟨textMapped_of_codes (by decide +kernel), by decide +kernel⟩,
    ⟨textMapped_of_codes (by decide +kernel), textMapped_of_codes (by decide +kernel), by decide +kernel⟩,
    ⟨textMapped_of_codes (by decide +kernel), by decide +kernel⟩⟩

theorem witness_EmptyJoinExactly : s0.fault = false ∧ emptyJoinCause (.join 0) s0
    ∧ emptyJoinCause (.enc 0 0 1) (s0.writeT 1 keyD) ∧ emptyJoinCause (.dec 0 0 1) (s0.writeT 1 keyD) :=
  ⟨rfl, rfl, ⟨by decide +kernel, textMapped_of_codes (by decide +kernel), by decide +kernel⟩,
    ⟨by decide +kernel, textMapped_of_codes (by decide +kernel), by decide +kernel⟩⟩

theorem witness_ScheduleRangeExactly : s0.fault = false ∧ scheduleRangeCause (.kidx 32) s0 ∧ ¬ scheduleRangeCause (.kidx 31) s0 :=
  ⟨rfl, by unfold scheduleRangeCause; decide, by unfold scheduleRangeCause; decide⟩

theorem witness_OperandErrorExactly : sLengths.fault = false ∧ operandErrorCause .symof (s0.writeRes 256)
    ∧ operandErrorCause (.b2t 0 1) sLengths ∧ operandErrorCause (.dec8 1) sLengths ∧ operandErrorCause (.rotl11 0 1) sLengths
    ∧ operandErrorCause (.subst 0 1) sLengths ∧ operandErrorCause (.frnd 0 1 1) sLengths
    ∧ operandErrorCause (.encb 0 2 2) sLengths ∧ operandErrorCause (.decb 0 2 2) sLengths
    ∧ operandErrorCause (.split 0 0) sLengths ∧ operandErrorCause (.split 0 2049) sLengths
    ∧ operandErrorCause (.split 0 3) (s0.writeB 0 (zeros 2048)) ∧ operandErrorCause (.getq 0 3) sQueue := by
  refine ⟨rfl, ?_, ?_, ?_, ?_, ?_, ?_, ?_, ?_, ?_, ?_, ?_, ?_⟩ <;> (unfold operandErrorCause; decide +kernel)

theorem witness_CodeofGivesCode : (126, (s0.writeRes 126).res) ∈ codepage (s0.writeRes 126).tables
    ∧ (191, (s0.writeRes 0x43F).res) ∈ codepage (s0.writeRes 0x43F).tables := by decide +kernel

theorem witness_SymofGivesSymbol :
    ((s0.writeRes 191).res.toNat ≤ 255 ∧ ((s0.writeRes 191).res.toNat, 0x43F#32) ∈ codepage (s0.writeRes 191).tables)
    ∧ ((s0.writeRes 255).res.toNat ≤ 255 ∧ ∀ x : Sym, ((s0.writeRes 255).res.toNat, x) ∉ codepage (s0.writeRes 255).tables) := by
  refine ⟨by decide +kernel, by decide, fun x hx => ?_⟩
  have h : (255 : Nat) ∈ (codepage tables).map Prod.fst := List.mem_map.mpr ⟨_, hx, rfl⟩
  revert h
  decide +kernel

theorem witness_CodepageLaws : tables.sentinel = 0x30#32 ∧ codeOf tables 0x43F#32 = .ok 191
    ∧ (∃ x, (191, x) ∈ codepage tables) ∧ ¬ ∃ x, (127, x) ∈ codepage tables := by
  refine ⟨rfl, by decide +kernel, ⟨0x43F#32, by decide +kernel⟩, ?_⟩
  rintro ⟨x, hx⟩
  have h : (127 : Nat) ∈ (codepage tables).map Prod.fst := List.mem_map.mpr ⟨_, hx, rfl⟩
  revert h
  decide +kernel

theorem witness_T2bEncodesText : sFull.Inv ∧ sFull.TextMapped 0 ∧ sFull.t[(0 : TSel)].len = 256 :=
  ⟨sFull_inv, sFull_text, by decide +kernel⟩

theorem witness_B2tDecodesGroups : sCipher.Inv ∧ sCipher.b[(0 : BSel)].len % 8 = 0 := ⟨sCipher_inv, by decide +kernel⟩

theorem witness_T2bThenB2tDropsNuls : sFull.Inv ∧ sFull.TextMapped 0 := ⟨sFull_inv, sFull_text⟩

theorem witness_XorIsBitwise : s0.Inv ∧ s0.b[(0 : BSel)].len = s0.b[(1 : BSel)].len
    ∧ sCipher.Inv ∧ sCipher.b[(0 : BSel)].len = sCipher.b[(0 : BSel)].len := ⟨s0_inv, rfl, sCipher_inv, rfl⟩

/-- Two operands of 32 bits. -/
def sWords : State := (s0.writeB 0 (word 0x61616161)).writeB 1 (word 0x41424344)

theorem sWords_inv : sWords.Inv := (s0_inv.writeB 0 (by decide)).writeB 1 (by decide)

theorem witness_XorTwiceRestores :
    sWords.Inv ∧ sWords.b[(0 : BSel)].len = sWords.b[(1 : BSel)].len ∧ (0 : BSel) ≠ 1 :=
  ⟨sWords_inv, by decide +kernel, by decide⟩

theorem witness_Dec8IsTopByte : (s0.writeB 0 (bin 8 0x80)).b[(0 : BSel)].len = 8 := by decide +kernel

theorem witness_Rotl11Rotates : sWords.b[(0 : BSel)].len = 32 ∧ (31 : Nat) < 32 := by decide +kernel

theorem witness_SplitCutsIntoQ : 1 ≤ 2048 ∧ 2048 ≤ 2048 ∧ ceilDiv sWords.b[(0 : BSel)].len 2048 * 2048 ≤ 2048
    ∧ 1 ≤ 1 ∧ 1 ≤ 2048 ∧ ceilDiv sWords.b[(0 : BSel)].len 1 * 1 ≤ 2048 := by decide +kernel

theorem witness_JoinConcatenatesQ : sQueue.Inv ∧ 1 ≤ sQueue.q.cnt := ⟨sQueue_inv, by decide⟩

theorem witness_SplitThenJoinPads : sWords.Inv ∧ 1 ≤ 5 ∧ 5 ≤ 2048 ∧ 0 < sWords.b[(0 : BSel)].len
    ∧ ceilDiv sWords.b[(0 : BSel)].len 5 * 5 ≤ 2048 ∧ 6 < ceilDiv sWords.b[(0 : BSel)].len 5 ∧ (4 : Nat) < 5 :=
  ⟨sWords_inv, by decide +kernel⟩

theorem witness_GetqCopiesChunk : sQueue.Inv ∧ 2 < sQueue.q.cnt := ⟨sQueue_inv, by decide⟩

theorem witness_SubstReplacesNibbles : sWords.b[(0 : BSel)].len = 32 := by decide +kernel

theorem witness_FrndIsRoundFunction : sWords.b[(0 : BSel)].len = 32 ∧ sWords.b[(1 : BSel)].len = 32 := by decide +kernel

theorem witness_FrndEqualsItsSteps : sWords.b[(0 : BSel)].len = 32 ∧ sWords.b[(1 : BSel)].len = 32 := by decide +kernel

theorem witness_KidxFollowsSchedule : 0 ≤ 31 ∧ 24 ≤ 31 ∧ 25 ≤ 31 ∧ 31 ≤ 31 := by decide

theorem witness_EncbRunsRounds : sBlock.b[(0 : BSel)].len = 64 ∧ sBlock.b[(1 : BSel)].len = 32 := by decide +kernel

theorem witness_DecbRunsRounds : sBlock.b[(0 : BSel)].len = 64 ∧ sBlock.b[(1 : BSel)].len = 32 := by decide +kernel

theorem witness_BlockTransformsInvert : (block 0x0123456789ABCDEF).length = 64 ∧ (word 0x61616161).length = 32
    ∧ sBlock.b[(0 : BSel)].len = 64 ∧ sBlock.b[(1 : BSel)].len = 32 ∧ (2 : BSel) ≠ 1 := by decide +kernel

theorem witness_LdkeyLoadsKeyParts : sMessage.TextMapped 1 ∧ sMessage.t[(1 : TSel)].len = 32 :=
  ⟨sMessage_key, by decide +kernel⟩

theorem witness_EncEncryptsMessage : sFull.Inv ∧ sFull.TextMapped 0 ∧ sFull.TextMapped 1 ∧ sFull.t[(1 : TSel)].len = 32
    ∧ 0 < sFull.t[(0 : TSel)].len := ⟨sFull_inv, sFull_text, sFull_key, by decide +kernel⟩

theorem witness_DecDecryptsMessage : sCipher.Inv ∧ sCipher.TextMapped 1 ∧ sCipher.t[(1 : TSel)].len = 32
    ∧ 0 < sCipher.b[(0 : BSel)].len := ⟨sCipher_inv, textMapped_of_codes (by decide +kernel), by decide +kernel⟩

theorem witness_EncThenDecDropsNuls : sMessage.Inv ∧ sMessage.TextMapped 0 ∧ sMessage.TextMapped 1
    ∧ sMessage.t[(1 : TSel)].len = 32 ∧ 0 < sMessage.t[(0 : TSel)].len :=
  ⟨sMessage_inv, sMessage_text, sMessage_key, by decide +kernel⟩

theorem mapped_of_code {T : Tables} {x : Sym} {c : Nat} (h : codeOf T x = .ok c) : Mapped T x := (mapped_iff T x).mpr ⟨c, h⟩

theorem witness_RoundTripRestoresText :
    (keyA.length = 32 ∧ ∀ x ∈ keyA, Mapped tables x)
    ∧ (1 ≤ [0x41#32].length ∧ [0x41#32].length ≤ 256 ∧ ∀ x ∈ [0x41#32], ∃ c, codeOf tables x = .ok c ∧ c ≠ 0)
    ∧ (1 ≤ [0x00#32, 0x42#32].length ∧ [0x00#32, 0x42#32].length ≤ 256 ∧ ∀ x ∈ [0x00#32, 0x42#32], Mapped tables x) := by
  refine ⟨⟨by decide, fun x hx => ?_⟩, ⟨by decide, by decide, fun x hx => ?_⟩, by decide, by decide, fun x hx => ?_⟩
  · rw [keyA, List.mem_replicate] at hx
    exact mapped_of_code (c := 0x61) (by rw [hx.2]; decide +kernel)
  · rw [List.mem_singleton] at hx
    exact ⟨0x41, by rw [hx]; decide +kernel, by decide⟩
  · rcases List.mem_pair.mp hx with rfl | rfl
    · exact mapped_of_code (c := 0) (by decide +kernel)
    · exact mapped_of_code (c := 0x42) (by decide +kernel)

theorem witness_RegisterMapReads : Unmapped 0x007#12 ∧ Unmapped 0x026#12 ∧ Unmapped 0x0FF#12 ∧ Unmapped 0x240#12
    ∧ Unmapped 0x3FF#12 ∧ Unmapped 0xFFF#12 ∧ s0.fault = false := by
  refine ⟨?_, ?_, ?_, ?_, ?_, ?_, rfl⟩ <;> (unfold Unmapped; decide)

theorem witness_DataWordPacking : sWords.b[(0 : BSel)].len = 32 ∧ sWords.fault = false ∧ (31 : Nat) < 32
    ∧ 2047 / 32 ≠ (0 : Fin 64).val := by decide +kernel

theorem witness_SymbolWords : sMessage.fault = false ∧ 0 < sMessage.t[(0 : TSel)].len ∧ (1 : Nat) ≠ (0 : Fin 256).val := by
  decide +kernel

theorem witness_LengthWrites : s0.fault = false ∧ (2048#32).toNat ≤ 2048 ∧ 2048 < (2049#32).toNat ∧ (256#32).toNat ≤ 256
    ∧ 256 < (257#32).toNat ∧ 2048 < (0x80000001#32).toNat := ⟨rfl, by decide⟩

theorem witness_HostAccessFaultExactly : s0.fault = false ∧ s0.err = 0#4 ∧ hostAccessCause (.read 0x000#12)
    ∧ hostAccessCause (.write 0x200#12 0#32) ∧ hostAccessCause (.write 0x023#12 2049#32)
    ∧ hostAccessCause (.write 0x025#12 257#32) ∧ hostAccessCause (.write 0x600#12 0#32)
    ∧ ¬ hostAccessCause (.write 0x020#12 2048#32) ∧ Unmapped 0x007#12 ∧ Unmapped 0xFFF#12 ∧ ReadOnly 0x001#12
    ∧ ReadOnly 0x23F#12 := by
  refine ⟨rfl, rfl, ?_, ?_, ?_, ?_, ?_, ?_, ?_, ?_, ?_, ?_⟩ <;>
    (simp only [hostAccessCause, Unmapped, ReadOnly]; decide)

theorem witness_LoadRecipes : s0.fault = false ∧ (zeros 2048).length ≤ 2048 ∧ (List.replicate 256 0x41#32).length ≤ 256 :=
  ⟨rfl, by decide +kernel, by decide +kernel⟩

theorem witness_HostMacrosCompute : s0.fault = false ∧ keyD.length ≤ 256 ∧ (List.replicate 256 0x41#32).length ≤ 256
    ∧ (zeros 2048).length ≤ 2048 := ⟨rfl, by decide, by decide +kernel, by decide +kernel⟩

theorem witness_CommandWritesAreCanonical : sMessage.Inv := sMessage_inv

/-- A state that differs from sBlock in stored bits past a length and in LREG: the contents agree, and ENCB completes. -/
theorem witness_CommandsReadOnlyContents :
    AgreeOnContents sBlock { writeBData 0 2 0xFFFFFFFF#32 sBlock with lreg := 1#32 }
    ∧ sBlock ≠ { writeBData 0 2 0xFFFFFFFF#32 sBlock with lreg := 1#32 }
    ∧ NoneFailed (checks (.encb 2 0 1) sBlock) := by
  refine ⟨by unfold AgreeOnContents; decide +kernel, fun h => ?_, ?_⟩
  · exact absurd (congrArg State.lreg h) (by decide +kernel)
  · simp only [checks, NoneFailed]
    decide +kernel

end Sys2Proof.Tests
end

namespace Sys2Proof.Machine

/-- Settles O16: whether the step waits or performs the oldest access, `step_total` names the state it answers; a
faulting access or command answers a state too, by fault entry (R272). -/
theorem stepAlwaysAnswers : Obligations.StepAlwaysAnswers := by
  intro s
  obtain ⟨t, hstep, -⟩ := step_total s
  exact ⟨t, hstep⟩

end Sys2Proof.Machine

namespace Sys2Proof.Machine

/-! ### What every step keeps -/

/-- A property that no host access breaks, and in which the model's own two fields take no part, is kept by every step. -/
theorem step_keeps {P : State → Prop}
    (hport : ∀ (s : State) (inp : List HostAccess) (r : Option Word), P s → P { s with input := inp, reply := r })
    (haccess : ∀ (a : HostAccess) (s t : State), hostAccess a s = .next t → P s → P t)
    {s t : State} (hstep : step s = .next t) (hs : P s) : P t := by
  obtain ⟨t', ht', hcases⟩ := step_total s
  obtain rfl : t' = t := by rw [ht'] at hstep; injection hstep
  rcases hcases with ⟨-, rfl⟩ | ⟨a, rest, -, ha⟩
  · exact hs
  · exact haccess a _ _ ha (hport s rest none hs)

/-- The model's own two fields take no part in the consistency of the working registers. -/
theorem State.WorkInv.setPort {s : State} (h : s.WorkInv) (inp : List HostAccess) (r : Option Word) :
    ({ s with input := inp, reply := r } : State).WorkInv :=
  h.same ⟨rfl, rfl, rfl, rfl, rfl, rfl, rfl⟩

/-- Settles O8: every host access keeps the invariant (`hostAccess_inv`, over the six kinds of next state), and so does
every step. -/
theorem stepKeepsInv : Obligations.StepKeepsInv := fun _ _ hs hstep =>
  step_keeps (fun _ inp r h => h.setPort inp r) (fun _ _ _ => hostAccess_inv) hstep hs

/-- Settles O9: no working register is in use after reset, and every host access keeps them consistent; what a command
writes to them it writes together (`Completed.workInv`). -/
theorem workingRegistersConsistent : Obligations.WorkingRegistersConsistent :=
  ⟨State.WorkInv.reset_with Config.tables [], fun _ _ _ hw hstep =>
    step_keeps (fun _ inp r h => h.setPort inp r) (fun _ _ _ => hostAccess_workInv) hstep hw⟩

/-- Settles O10: no host access writes the constant tables. -/
theorem stepKeepsTables : Obligations.StepKeepsTables := fun s _ hstep =>
  step_keeps (P := fun u => u.tables = s.tables) (fun _ _ _ h => h)
    (fun _ _ _ ha h => (hostAccess_tables ha).trans h) hstep rfl

/-! ### What a command writes -/

/-- Settles O17: a fault entry from FAULT = 0 writes exactly ERR and FAULT, and a completed command writes the row of R41
and leaves both. -/
theorem commandFaultsOrWritesOnly : Obligations.CommandFaultsOrWritesOnly := by
  intro i s hs
  obtain ⟨t, hexec, ⟨c, rfl⟩ | hc⟩ := exec_total i s
  · exact ⟨_, hexec, .inl ⟨c, faulted_eq s c hs⟩⟩
  · obtain ⟨herr, hfault, -⟩ := hc.keeps
    exact ⟨t, hexec, .inr ⟨hfault.trans hs, herr, hc.writesOnly⟩⟩

theorem canonical_takeFault (c : FaultCode) (s : State) : Canonical s (takeFault c s) :=
  canonical_same (takeFault_b c s) (takeFault_t c s)

/-- A changed bit register holds 0 from its length on (R23). -/
theorem Canonical.bit_eq_false {s t : State} (h : Canonical s t) {n : BSel} (hne : t.b[n] ≠ s.b[n]) {j : Nat}
    (hj : t.b[n].len ≤ j) : t.bit n j = false := by
  obtain ⟨v, hv, e⟩ := (h.1 n).resolve_left hne
  rw [e] at hj
  rw [State.bit, e, getMsbD_packBits v hv, getD_of_le v false hj]

/-- A changed text register holds 0 from its length on (R26). -/
theorem Canonical.sym_eq_zero {s t : State} (h : Canonical s t) {n : TSel} (hne : t.t[n] ≠ s.t[n]) {j : Nat}
    (hj : t.t[n].len ≤ j) : t.sym n j = 0#32 := by
  obtain ⟨v, hv, e⟩ := (h.2 n).resolve_left hne
  rw [e] at hj
  rw [State.sym, e, toList_packText v hv, getD_of_le v 0#32 hj]

/-- Settles O58: a fault changes no register, and a completed command writes registers in canonical form
(`Completed.canonical`). -/
theorem commandWritesAreCanonical : Obligations.CommandWritesAreCanonical := by
  intro i s hi
  obtain ⟨t, hexec, hcases⟩ := exec_total i s
  have hcan : Canonical s t := by
    rcases hcases with ⟨c, rfl⟩ | hc
    · exact canonical_takeFault c s
    · exact hc.canonical hi
  exact ⟨t, hexec, fun _ hne _ hj => hcan.bit_eq_false hne hj, fun _ hne _ hj => hcan.sym_eq_zero hne hj⟩

/-! ### What a command reads -/

theorem SameContents.refl (s : State) : SameContents s s := ⟨fun _ => rfl, fun _ => rfl, rfl, rfl, rfl⟩

/-- With no failing check, the state that a command answers is a completed one (R281). -/
theorem completed_of_exec {i : Instr} {s t : State} (hexec : exec i s = .next t) (h : NoneFailed (checks i s)) :
    Completed i s t := by
  obtain ⟨c, hfirst, -⟩ | ⟨-, hc⟩ := exec_next_cases hexec
  · exact absurd hfirst (noneFailed_not_first h)
  · exact hc

/-- Settles O59: on both states the command is one and the same effect (`exec_effect`), which carries agreement on
contents over; with no failing check both runs complete, and completed runs on the same contents write the same values
to the working registers. -/
theorem commandsReadOnlyContents : Obligations.CommandsReadOnlyContents := by
  intro i s s' hagree
  have hsame := hagree.same
  obtain ⟨f, heffect, hexec⟩ := exec_effect i s
  refine ⟨f s, f s', hexec s (.refl s), hexec s' hsame, heffect.agree hagree, fun hn => ?_⟩
  have hn' := hsame.noneFailed i hn
  exact ⟨hn', (completed_of_exec (hexec s (.refl s)) hn).agreeOnWorkWrites hsame (completed_of_exec (hexec s' hsame) hn')⟩

/-! ### Results of single commands -/

/-- The codes of a register's text fit a bit register (R21, R25, R140). -/
theorem length_textToBits_readT {s : State} (hi : s.Inv) {n : TSel} {v : Bits}
    (hv : textToBits s.tables (s.readT n) = .ok v) : v.length = 8 * s.t[n].len ∧ v.length ≤ 2048 := by
  have hl := length_textToBits hv
  rw [length_readT] at hl
  have := hi.tlen_le n
  exact ⟨hl, by omega⟩

/-- Settles O28: Bd holds the encoded text, whose data words are the codes of four symbols each. -/
theorem t2bEncodesText : Obligations.T2bEncodesText := by
  intro s rd ra hi hmapped
  obtain ⟨t, hexec, hc⟩ := exec_completes (i := .t2b rd ra) (s := s) ⟨not_not.mpr hmapped, trivial⟩
  have hwrites := hc.writesOnly
  obtain ⟨v, hv, rfl⟩ := hc
  obtain ⟨hlen, hfits⟩ := length_textToBits_readT hi hv
  refine ⟨_, hexec, ?_, fun w => ?_, hwrites⟩
  · rw [b_writeB_same]; exact hlen
  · rw [bword_writeB_same s rd hfits, padWord_textToBits hmapped hv]

/-- The text that a bit register of whole 8-bit groups decodes to (R143). -/
theorem bitsToText_readB {s : State} {n : BSel} (h : s.b[n].len % 8 = 0) :
    bitsToText s.tables (s.readB n) = textOfBytes s.tables s.b[n].store (s.b[n].len / 8) := by
  rw [← bitsToText_storeSlice, Nat.mul_div_cancel' (Nat.dvd_of_mod_eq_zero h)]; rfl

/-- A decoded bit register fits a text register (R21, R25, R146). -/
theorem length_bitsToText_readB_le {s : State} (hi : s.Inv) (n : BSel) :
    (bitsToText s.tables (s.readB n)).length ≤ 256 := by
  have h := length_bitsToText_le s.tables (s.readB n)
  rw [length_readB] at h
  have := hi.len_le n
  omega

/-- Settles O29: Td holds the decoded text, which fits it, and 0 past it. -/
theorem b2tDecodesGroups : Obligations.B2tDecodesGroups := by
  intro s rd ra hi hlen
  obtain ⟨t, hexec, hc⟩ := exec_completes (i := .b2t rd ra) (s := s) ⟨not_not.mpr hlen, trivial⟩
  have hwrites := hc.writesOnly
  obtain ⟨-, rfl⟩ := hc
  have hfits := length_bitsToText_readB_le hi ra
  refine ⟨_, hexec, ?_, fun i hpast => ?_, hwrites⟩
  · rw [readT_writeT_same s rd _ hfits, bitsToText_readB hlen]
  · rw [t_writeT_same] at hpast
    rw [sym_writeT_same s rd hfits, getD_of_le _ _ hpast]

/-- Settles O35: Q's bits are the operand's and its zero padding, which the premise keeps within Q's capacity. -/
theorem splitCutsIntoQ : Obligations.SplitCutsIntoQ := by
  intro s ra imm hpos hmax hcap
  obtain ⟨t, hexec, hc⟩ := exec_completes (i := .split ra imm) (s := s) ⟨by omega, by omega, trivial⟩
  have hwrites := hc.writesOnly
  obtain ⟨-, -, -, rfl⟩ := hc
  have hfits : (splitFixed (s.readB ra) imm).flatten.length ≤ 2048 := by
    rw [length_flatten_splitFixed _ hpos, length_readB]; exact hcap
  refine ⟨_, hexec, rfl, ?_, fun i => ?_, hwrites⟩
  · rw [State.writeQ_q, length_splitFixed, length_readB]
  · rw [qbit_writeQ _ _ _ hfits, flatten_splitFixed _ _ hpos, getD_append_zeros, getD_readB']

/-- Bit j of a slice of a store, 0 past the slice. -/
theorem getD_storeSlice_eq_and (d : Store) (i n j : Nat) :
    (storeSlice d i n).getD j false = (decide (j < n) && d.getMsbD (i + j)) := by
  by_cases h : j < n
  · rw [getD_storeSlice d i n j h, decide_eq_true h, Bool.true_and]
  · rw [getD_of_le _ _ (by rw [length_storeSlice]; omega), decide_eq_false h, Bool.false_and]

/-- Settles O38: Bd holds the slice of Q that is chunk imm, which fits it. -/
theorem getqCopiesChunk : Obligations.GetqCopiesChunk := by
  intro s rd imm hi himm
  obtain ⟨t, hexec, hc⟩ := exec_completes (i := .getq rd imm) (s := s) ⟨by omega, trivial⟩
  have hwrites := hc.writesOnly
  obtain ⟨-, rfl⟩ := hc
  have hfits : (storeSlice s.q.store (imm * s.q.ps) s.q.ps).length ≤ 2048 := by
    rw [length_storeSlice]; exact hi.q_inv.ps_le
  refine ⟨_, hexec, ?_, fun i => ?_, hwrites⟩
  · rw [b_writeB_same, length_storeSlice]
  · rw [bit_writeB_same s rd hfits, getD_storeSlice_eq_and]; rfl

/-- Settles O46: each key part is the codes of four key symbols (`k_writeKeys`). -/
theorem ldkeyLoadsKeyParts : Obligations.LdkeyLoadsKeyParts := by
  intro s ra hmapped hlen
  obtain ⟨t, hexec, hc⟩ := exec_completes (i := .ldkey ra) (s := s) ⟨not_not.mpr hmapped, not_not.mpr hlen, trivial⟩
  have hwrites := hc.writesOnly
  obtain ⟨kp, hkeys, rfl⟩ := hc
  exact ⟨_, hexec, k_writeKeys hkeys, rfl, hwrites⟩

/-! ### Reset -/

theorem b_reset (n : BSel) : State.reset.b[n] = BitReg.empty := by simp [State.reset]

theorem t_reset (n : TSel) : State.reset.t[n] = TextReg.empty := by simp [State.reset]

theorem k_reset (k : Fin 8) : State.reset.k[k] = 0#32 := by simp [State.reset]

theorem getMsbD_zero_store (i : Nat) : (0#2048).getMsbD i = false := by simp [BitVec.getMsbD]

theorem bit_reset (n : BSel) (i : Nat) : State.reset.bit n i = false := by
  rw [State.bit, b_reset]; exact getMsbD_zero_store i

theorem qbit_reset (i : Nat) : State.reset.qbit i = false := getMsbD_zero_store i

theorem sym_reset (n : TSel) (i : Nat) : State.reset.sym n i = 0#32 := by
  rw [State.sym, t_reset, TextReg.empty, Vector.toList_replicate, List.getD_eq_getElem?_getD,
    List.getElem?_getD_replicate_default_eq]

/-- Settles O6: the registers by the lemmas above, every other item as `State.reset` lists it. -/
theorem resetValues : Obligations.ResetValues :=
  ⟨fun n => ⟨by rw [b_reset]; rfl, bit_reset n⟩, fun n => ⟨by rw [t_reset]; rfl, sym_reset n⟩, rfl, rfl, qbit_reset,
    k_reset, rfl, rfl, rfl, rfl, rfl, rfl, rfl, rfl, rfl, rfl⟩

/-- Settles O7: the reset values meet every range, with the configured SENTINEL, which is 0x30 (R6). -/
theorem resetMeetsInv : Obligations.ResetMeetsInv := State.Inv.reset_with (T := Config.tables) rfl []

end Sys2Proof.Machine

namespace Sys2Proof.Machine

/-! ### Steps over the queue of accesses (R74) -/

/-- While FAULT = 1 a write, to CMD too, is ignored (R68, R94). -/
theorem hostAccess_write_of_fault (a : Addr) (v : Word) {s : State} (hs : s.fault = true) :
    hostAccess (.write a v) s = .next s := memWrite_of_fault a v hs

theorem step_of_input_nil {s : State} (h : s.input = []) : step s = .next s := by
  simp only [step, nextAccess, h]

theorem step_of_input_cons {s : State} {a : HostAccess} {rest : List HostAccess} (h : s.input = a :: rest) :
    step s = hostAccess a { s with input := rest, reply := none } := by
  simp only [step, nextAccess, h]

/-- Settles O13: the two cases of the queue. -/
theorem stepTakesOldestAccess : Obligations.StepTakesOldestAccess :=
  ⟨fun _ => step_of_input_nil, fun _ _ _ => step_of_input_cons⟩

/-- The word of a well-formed command decodes to it: the rows of `Laws.RoundTrip`, over all commands (R96, R100). -/
theorem decode_encode_of_wellFormed (i : Instr) : Laws.RoundTrip.Statement i := by
  cases i with
  | codeof => exact Laws.RoundTrip.codeof
  | symof => exact Laws.RoundTrip.symof
  | t2b rd ra => exact Laws.RoundTrip.t2b rd ra
  | b2t rd ra => exact Laws.RoundTrip.b2t rd ra
  | xor rd ra rb => exact Laws.RoundTrip.xor rd ra rb
  | dec8 ra => exact Laws.RoundTrip.dec8 ra
  | rotl11 rd ra => exact Laws.RoundTrip.rotl11 rd ra
  | split ra imm => exact Laws.RoundTrip.split ra imm
  | join rd => exact Laws.RoundTrip.join rd
  | getq rd imm => exact Laws.RoundTrip.getq rd imm
  | subst rd ra => exact Laws.RoundTrip.subst rd ra
  | frnd rd ra rb => exact Laws.RoundTrip.frnd rd ra rb
  | kidx imm => exact Laws.RoundTrip.kidx imm
  | ldkey ra => exact Laws.RoundTrip.ldkey ra
  | encb rd ra rb => exact Laws.RoundTrip.encb rd ra rb
  | decb rd ra rb => exact Laws.RoundTrip.decb rd ra rb
  | enc rd ra rb => exact Laws.RoundTrip.enc rd ra rb
  | dec rd ra rb => exact Laws.RoundTrip.dec rd ra rb

/-- A word of 32 bits, read as `withFetchWord` reads it, is that word (R99). -/
theorem tableWord_toNat (w : Word) : tableWord 32 w.toNat = w := by
  rw [tableWord, Nat.mod_eq_of_lt w.isLt, BitVec.ofNat_toNat, BitVec.setWidth_eq]

theorem withFetchWord_encode (s : State) (i : Instr) :
    s.withFetchWord 32 (encode i).toNat = { s with input := .write 0x000#12 (encode i) :: s.input } := by
  rw [State.withFetchWord, tableWord_toNat]

/-- A step whose access writes a command's word to CMD while FAULT = 0 runs the command (R67). -/
theorem step_of_cmd_write {s : State} {w : Word} {i : Instr} {rest : List HostAccess} (hs : s.fault = false)
    (hin : s.input = .write 0x000#12 w :: rest) (hd : decode w = .ok i) :
    step s = exec i { s with input := rest, reply := none } :=
  (step_of_input_cons hin).trans (write_cmd_ok hd hs)

/-- Settles O14: the step performs the CMD write, which runs the decoded command, or is ignored while FAULT = 1; the word
that `withFetchWord` places is the command's own, which decodes to it. -/
theorem stepRunsDecodedCommand : Obligations.StepRunsDecodedCommand := by
  refine ⟨fun s w i rest => step_of_cmd_write, fun s w rest hs hin => ?_, fun s i hs hwf => ?_⟩
  · exact (step_of_input_cons hin).trans (hostAccess_write_of_fault _ w hs)
  · rw [withFetchWord_encode]
    exact step_of_cmd_write (s := { s with input := .write 0x000#12 (encode i) :: s.input }) hs rfl
      (decode_encode_of_wellFormed i hwf)

/-! ### The faulted state (R68, R284) -/

/-- While FAULT = 1 a read answers its word, or 0 where there is none, and changes nothing (R65). -/
theorem hostAccess_read_of_fault (a : Addr) {s : State} (hs : s.fault = true) :
    hostAccess (.read a) s = .next { s with reply := some ((s.mapWord (decodeAddr a)).getD 0#32) } := by
  rw [hostAccess_read]
  cases hw : s.mapWord (decodeAddr a) with
  | some w => rw [memRead_of_some hw]; rfl
  | none => rw [memRead_of_none hw, takeFault_of_fault _ s hs]; rfl

/-- While FAULT = 1 an access that is not a reset changes no register (R65, R68). -/
theorem hostAccess_of_fault {a : HostAccess} (ha : a ≠ .reset) {s : State} (hs : s.fault = true) :
    ∃ r, hostAccess a s = .next { s with reply := r } := by
  cases a with
  | read addr => exact ⟨_, hostAccess_read_of_fault addr hs⟩
  | write addr v => exact ⟨s.reply, hostAccess_write_of_fault addr v hs⟩
  | reset => exact absurd rfl ha

/-- While FAULT = 1 no run without a reset changes a register (R68, R284). -/
theorem runAccesses_of_fault (as : List HostAccess) (hr : HostAccess.reset ∉ as) {s : State} (hs : s.fault = true) :
    ∃ t, runAccesses as s = .next t ∧ t = { s with input := [], reply := t.reply } := by
  induction as generalizing s with
  | nil => exact ⟨_, runAccesses_nil s, rfl⟩
  | cons a as ih =>
    rw [List.mem_cons, not_or] at hr
    obtain ⟨ha, has⟩ := hr
    obtain ⟨r, haccess⟩ := hostAccess_of_fault (Ne.symm ha) (s := { s with input := [], reply := none }) hs
    obtain ⟨t, hrun, ht⟩ := ih has (s := { s with input := [], reply := r }) hs
    exact ⟨t, (runAccesses_cons_of as haccess).trans hrun, ht⟩

/-- Settles O15: writes are ignored, reads answer, a run is its accesses one after another, and the reset event writes
the reset values. -/
theorem faultStickyUntilReset : Obligations.FaultStickyUntilReset := fun s hs =>
  ⟨fun addr v => hostAccess_write_of_fault addr v hs, fun addr => hostAccess_read_of_fault addr hs,
    fun as hr => runAccesses_of_fault as hr hs, resetEvent s, rfl, resetEvent_fault s, resetEvent_err s⟩

/-! ### DEC8 (R154) -/

/-- Settles O33: DEC8 completes with the value of the 8 bits, which are the top byte of data word 0. -/
theorem dec8IsTopByte : Obligations.Dec8IsTopByte := by
  intro s ra hlen
  obtain ⟨t, hexec, -, rfl⟩ := exec_completes (i := .dec8 ra) (s := s) ⟨not_not.mpr hlen, trivial⟩
  rw [hexec, zext32_val_8 s ra hlen]; rfl

/-! ### The register map, read (R61, R65) -/

/-- Settles O51: each address is the one that `MapReg.address` gives its register, whose word `State.mapWord` answers. -/
theorem registerMapReads : Obligations.RegisterMapReads := by
  intro s reads
  have mapped : ∀ (r : MapReg) {a : Nat} {w : Word}, r.address = some (BitVec.ofNat 12 a) → s.mapWord r = some w →
      reads a w := fun r _ _ ha hw => read_mapped ha hw
  exact ⟨mapped .status rfl rfl, mapped .err rfl rfl, mapped .res rfl rfl, mapped .rnd rfl rfl, mapped .bidx rfl rfl,
    mapped .nblk rfl rfl, mapped .lreg rfl rfl, mapped .rreg rfl rfl, mapped .qps rfl rfl, mapped .qcnt rfl rfl,
    fun k => mapped (.key k) rfl rfl, fun n => mapped (.blen n) rfl rfl, fun n => mapped (.tlen n) rfl rfl,
    fun n w => mapped (.bdata n w) rfl rfl, fun w => mapped (.qdata w) rfl rfl,
    fun n i => mapped (.tdata n i) rfl (congrArg some (sym_fin s n i)),
    fun _ ha => read_unmapped ha s, fun v hs => write_mapped (r := .res) rfl (by simp) v hs⟩

/-! ### Data words of bit registers (R62) -/

/-- A write to data word w puts word bit 31 - j at stored bit 32w + j (R62). -/
theorem bit_writeBData_same (s : State) (n : BSel) (w : Fin 64) (v : Word) {j : Nat} (hj : j < 32) :
    (writeBData n w v s).bit n (32 * w.val + j) = v.getLsbD (31 - j) := by
  have hw := w.isLt
  have hword : (32 * w.val + j) / 32 = w.val := by omega
  have hpos : (32 * w.val + j) % 32 = j := by omega
  rw [State.bit, writeBData, getElem_set_same, getMsbD_setDataWord _ _ _ _ (by omega), if_pos hword, hpos,
    BitVec.getMsbD, decide_eq_true hj, Bool.true_and]

/-- A write to data word w leaves the stored bits of the other words (R62). -/
theorem bit_writeBData_of_ne (s : State) (n : BSel) (w : Fin 64) (v : Word) {i : Nat} (hi : i / 32 ≠ w.val) :
    (writeBData n w v s).bit n i = s.bit n i := by
  rw [State.bit, writeBData, getElem_set_same]
  by_cases h : i < 2048
  · rw [getMsbD_setDataWord _ _ _ _ h, if_neg hi]; rfl
  · simp only [State.bit, BitVec.getMsbD, h, decide_false, Bool.false_and]

/-- Settles O52: a data word is 32 stored bits, read and written. -/
theorem dataWordPacking : Obligations.DataWordPacking := by
  refine fun s => ⟨fun w j hj => ⟨fun n => getLsbD_of_getMsbD _ w j hj, getLsbD_of_getMsbD _ w j hj⟩,
    fun n hlen => ?_, fun n w v hs => ?_⟩
  · rw [State.bword, ← bitsToWord_readB s n hlen, toNat_bitsToWord (by rw [length_readB, hlen])]
  · exact ⟨writeBData n w v s, write_mapped (r := .bdata n w) rfl (by simp) v hs,
      fun j hj => bit_writeBData_same s n w v hj, fun i hi => bit_writeBData_of_ne s n w v hi,
      by rw [writeBData, getElem_set_same], onlyB_set s n _ rfl, rfl⟩

/-! ### Symbols of text registers (R63) -/

theorem sym_writeTData_same (s : State) (n : TSel) (i : Fin 256) (v : Word) :
    (writeTData n i v s).sym n i.val = v := by
  rw [← sym_fin, writeTData, getElem_set_same]
  exact getElem_set_same _ i v

theorem sym_writeTData_of_ne (s : State) (n : TSel) (i : Fin 256) (v : Word) {j : Nat} (hj : j ≠ i.val) :
    (writeTData n i v s).sym n j = s.sym n j := by
  rw [State.sym, writeTData, getElem_set_same, Vector.toList_set, List.getD_eq_getElem?_getD,
    List.getElem?_set_ne hj.symm, ← List.getD_eq_getElem?_getD]; rfl

/-- Symbol 0 of a register is the first of a text that is not empty (R25, R63). -/
theorem head?_readT (s : State) (n : TSel) (h : 0 < s.t[n].len) : (s.readT n).head? = some (s.sym n 0) := by
  have hlen : 0 < (s.readT n).length := by rw [length_readT]; exact h
  rw [List.head?_eq_getElem?, List.getElem?_eq_getElem hlen, getElem_readT]

/-- Settles O53: a data word of Tn is one symbol, read and written. -/
theorem symbolWords : Obligations.SymbolWords := by
  refine fun s n i => ⟨?_, fun v hs => ?_, head?_readT s n⟩
  · exact read_mapped (r := .tdata n i) rfl (congrArg some (sym_fin s n i))
  · exact ⟨writeTData n i v s, write_mapped (r := .tdata n i) rfl (by simp) v hs, sym_writeTData_same s n i v,
      fun j hj => sym_writeTData_of_ne s n i v hj, by rw [writeTData, getElem_set_same], onlyT_set s n _ rfl, rfl⟩

/-! ### Lengths (R64) -/

theorem write_blen_of_le (n : BSel) {v : Word} (hv : v.toNat ≤ 2048) {s : State} (hs : s.fault = false) :
    hostAccess (.write (BitVec.ofNat 12 (0x020 + n.val)) v) s
      = .next { s with b := s.b.set n.val { s.b[n] with len := v.toNat } n.isLt } := by
  rw [write_mapped (r := .blen n) rfl (by simp) v hs, mapWrite, writeBLen, if_pos hv]

theorem write_blen_of_gt (n : BSel) {v : Word} (hv : 2048 < v.toNat) {s : State} (hs : s.fault = false) :
    hostAccess (.write (BitVec.ofNat 12 (0x020 + n.val)) v) s = .next (s.faulted .hostAccess) := by
  rw [write_mapped (r := .blen n) rfl (by simp) v hs, mapWrite, writeBLen, if_neg (by omega), faulted_eq s _ hs]

theorem write_tlen_of_le (n : TSel) {v : Word} (hv : v.toNat ≤ 256) {s : State} (hs : s.fault = false) :
    hostAccess (.write (BitVec.ofNat 12 (0x024 + n.val)) v) s
      = .next { s with t := s.t.set n.val { s.t[n] with len := v.toNat } n.isLt } := by
  rw [write_mapped (r := .tlen n) rfl (by simp) v hs, mapWrite, writeTLen, if_pos hv]

theorem write_tlen_of_gt (n : TSel) {v : Word} (hv : 256 < v.toNat) {s : State} (hs : s.fault = false) :
    hostAccess (.write (BitVec.ofNat 12 (0x024 + n.val)) v) s = .next (s.faulted .hostAccess) := by
  rw [write_mapped (r := .tlen n) rfl (by simp) v hs, mapWrite, writeTLen, if_neg (by omega), faulted_eq s _ hs]

/-- Settles O54: within the capacity the write replaces the length field alone, above it the access faults. -/
theorem lengthWrites : Obligations.LengthWrites := by
  refine fun s v hs => ⟨fun n => ⟨fun hv => ?_, fun hv => write_blen_of_gt n hv hs⟩,
    fun n => ⟨fun hv => ?_, fun hv => write_tlen_of_gt n hv hs⟩⟩
  · exact ⟨_, write_blen_of_le n hv hs, by rw [getElem_set_same], fun i => by rw [State.bit, getElem_set_same]; rfl,
      onlyB_set s n _ rfl, rfl⟩
  · exact ⟨_, write_tlen_of_le n hv hs, by rw [getElem_set_same], fun i => by rw [State.sym, getElem_set_same]; rfl,
      onlyT_set s n _ rfl, rfl⟩

/-! ### The accesses that raise HostAccess (R69) -/

/-- From `s` the access answers a state in which HostAccess has been raised exactly when R69 lists the access. -/
def RaisesAsListed (a : HostAccess) (s : State) : Prop :=
  ∃ t, hostAccess a s = .next t ∧ ((t.fault = true ∧ t.err = 8#4) ↔ hostAccessCause a)

/-- An access that leaves FAULT = 0 is as R69 says, when R69 does not list it. -/
theorem raisesAsListed_of_fault_false {a : HostAccess} {s t : State} (h : hostAccess a s = .next t)
    (ht : t.fault = false) (hc : ¬ hostAccessCause a) : RaisesAsListed a s :=
  ⟨t, h, iff_of_false (fun ⟨hf, _⟩ => Bool.false_ne_true (ht.symm.trans hf)) hc⟩

/-- An access that takes the fault is as R69 says, when R69 lists it. -/
theorem raisesAsListed_of_faulted {a : HostAccess} {s : State} (h : hostAccess a s = .next (s.faulted .hostAccess))
    (hc : hostAccessCause a) : RaisesAsListed a s :=
  ⟨_, h, iff_of_true ⟨rfl, rfl⟩ hc⟩

/-- Every address but CMD and the unmapped ones has a word to read (R61). -/
theorem exists_mapWord {a : Addr} (h : ¬ (Unmapped a ∨ a = 0x000#12)) (s : State) :
    ∃ w, s.mapWord (decodeAddr a) = some w := by
  have hu : decodeAddr a ≠ .unmapped := fun e => h (.inl ((decodeAddr_unmapped_iff a).mp e))
  have hc : decodeAddr a ≠ .cmd := by
    intro e
    obtain ⟨haddr, -⟩ | ⟨e', -⟩ := address_decodeAddr a
    · rw [e] at haddr
      exact h (.inr (Option.some.inj haddr).symm)
    · exact hu e'
  cases hr : decodeAddr a with
  | unmapped => exact absurd hr hu
  | cmd => exact absurd hr hc
  | _ => exact ⟨_, rfl⟩

theorem read_raisesAsListed (a : Addr) {s : State} (hs : s.fault = false) : RaisesAsListed (.read a) s := by
  by_cases h : Unmapped a ∨ a = 0x000#12
  · refine ⟨{ s.faulted .hostAccess with reply := some 0#32 }, ?_, iff_of_true ⟨rfl, rfl⟩ h⟩
    rw [read_unmapped h s, hs]; rfl
  · obtain ⟨w, hw⟩ := exists_mapWord h s
    exact raisesAsListed_of_fault_false ((hostAccess_read a s).trans (congrArg _ (memRead_of_some hw))) hs h

/-- A write to CMD runs a command or raises IllegalCommand: neither raises HostAccess (R67, R69, R280). -/
theorem write_cmd_raisesAsListed (v : Word) {s : State} (hs : s.fault = false) :
    RaisesAsListed (.write 0x000#12 v) s := by
  have hc : ¬ hostAccessCause (.write 0x000#12 v) := by simp [hostAccessCause, Unmapped, ReadOnly]
  have other : ∀ c : FaultCode, c ≠ .hostAccess → hostAccess (.write 0x000#12 v) s = .next (s.faulted c) →
      RaisesAsListed (.write 0x000#12 v) s := fun c hne h =>
    ⟨_, h, iff_of_false (fun ⟨_, he⟩ => hne (code_injective he)) hc⟩
  cases hd : decode v with
  | error e => exact other .illegalCommand (by simp) (write_cmd_error hd hs)
  | ok i =>
    have hrun := write_cmd_ok hd hs
    obtain ⟨c, hfirst, hexec⟩ | ⟨-, t, ht, hexec⟩ := exec_cases i s
    · exact other c (checks_code_ne hfirst).1 (by rw [hrun, hexec, faulted_eq s c hs])
    · exact raisesAsListed_of_fault_false (hrun.trans hexec) (ht.keeps.2.1.trans hs) hc

/-- A write to a length register faults exactly above its capacity (R64, R69). -/
theorem write_blen_raisesAsListed (n : BSel) (v : Word) {s : State} (hs : s.fault = false) :
    RaisesAsListed (.write (BitVec.ofNat 12 (0x020 + n.val)) v) s := by
  have haddr : (BitVec.ofNat 12 (0x020 + n.val)).toNat = 0x020 + n.val := toNat_addr (by omega)
  by_cases hv : v.toNat ≤ 2048
  · refine raisesAsListed_of_fault_false (write_blen_of_le n hv hs) hs ?_
    simp only [hostAccessCause, Unmapped, ReadOnly, haddr]; omega
  · refine raisesAsListed_of_faulted (write_blen_of_gt n (by omega) hs) ?_
    simp only [hostAccessCause, Unmapped, ReadOnly, haddr]; omega

theorem write_tlen_raisesAsListed (n : TSel) (v : Word) {s : State} (hs : s.fault = false) :
    RaisesAsListed (.write (BitVec.ofNat 12 (0x024 + n.val)) v) s := by
  have haddr : (BitVec.ofNat 12 (0x024 + n.val)).toNat = 0x024 + n.val := toNat_addr (by omega)
  by_cases hv : v.toNat ≤ 256
  · refine raisesAsListed_of_fault_false (write_tlen_of_le n hv hs) hs ?_
    simp only [hostAccessCause, Unmapped, ReadOnly, haddr]; omega
  · refine raisesAsListed_of_faulted (write_tlen_of_gt n (by omega) hs) ?_
    simp only [hostAccessCause, Unmapped, ReadOnly, haddr]; omega

/-- A write to RES or to a data word stores it and raises nothing (R66). -/
theorem write_data_raisesAsListed {r : MapReg} {a : Addr} (ha : r.address = some a)
    (hr : r = .res ∨ (∃ n w, r = .bdata n w) ∨ ∃ n i, r = .tdata n i) (v : Word) {s : State} (hs : s.fault = false)
    (hc : ¬ hostAccessCause (.write a v)) : RaisesAsListed (.write a v) s := by
  obtain rfl | ⟨n, w, rfl⟩ | ⟨n, i, rfl⟩ := hr
  all_goals exact raisesAsListed_of_fault_false (write_mapped ha (by simp) v hs) hs hc

theorem write_raisesAsListed (a : Addr) (v : Word) {s : State} (hs : s.fault = false) :
    RaisesAsListed (.write a v) s := by
  by_cases h : Unmapped a ∨ ReadOnly a
  · exact raisesAsListed_of_faulted (write_not_writable h v hs) (h.elim .inl (.inr ∘ .inl))
  · have hranges : a.toNat = 0x000 ∨ (0x020 ≤ a.toNat ∧ a.toNat ≤ 0x023) ∨ (0x024 ≤ a.toNat ∧ a.toNat ≤ 0x025)
        ∨ (a.toNat = 0x003 ∨ (0x100 ≤ a.toNat ∧ a.toNat ≤ 0x1FF) ∨ (0x400 ≤ a.toNat ∧ a.toNat ≤ 0x5FF)) := by
      unfold Unmapped ReadOnly at h; omega
    obtain ha | ha | ha | ha := hranges
    · rw [← addr_eq ha]; exact write_cmd_raisesAsListed v hs
    · rw [← addr_eq (a := a) (m := 0x020 + (a.toNat - 0x020)) (by omega)]
      exact write_blen_raisesAsListed ⟨a.toNat - 0x020, by omega⟩ v hs
    · rw [← addr_eq (a := a) (m := 0x024 + (a.toNat - 0x024)) (by omega)]
      exact write_tlen_raisesAsListed ⟨a.toNat - 0x024, by omega⟩ v hs
    · have hc : ¬ hostAccessCause (.write a v) := by
        rw [hostAccessCause, ← or_assoc, or_iff_right h]; omega
      obtain ha | ha | ha := ha
      · exact write_data_raisesAsListed (r := .res) (congrArg some (addr_eq ha)) (.inl rfl) v hs hc
      · refine write_data_raisesAsListed (r := .bdata ⟨(a.toNat - 0x100) / 0x40, by omega⟩
          ⟨(a.toNat - 0x100) % 0x40, by omega⟩) (congrArg some (addr_eq ?_)) (.inr (.inl ⟨_, _, rfl⟩)) v hs hc
        simp only; omega
      · refine write_data_raisesAsListed (r := .tdata ⟨(a.toNat - 0x400) / 0x100, by omega⟩
          ⟨(a.toNat - 0x400) % 0x100, by omega⟩) (congrArg some (addr_eq ?_)) (.inr (.inr ⟨_, _, rfl⟩)) v hs hc
        simp only; omega

/-- Settles O55: reads and writes raise HostAccess as R69 lists them and a reset event never does; a write to an address
that is not writable is a fault entry (`write_not_writable`). -/
theorem hostAccessFaultExactly : Obligations.HostAccessFaultExactly := by
  refine ⟨fun s a hs _ => ?_, fun s a v hs ha => write_not_writable ha v hs⟩
  cases a with
  | read addr => exact read_raisesAsListed addr hs
  | write addr v => exact write_raisesAsListed addr v hs
  | reset => exact raisesAsListed_of_fault_false rfl (resetEvent_fault s) not_false

/-! ### The load recipes (R78) -/

/-- Settles O56: the runs of `loadBits` and `loadText`. -/
theorem loadRecipes : Obligations.LoadRecipes := fun s hs => ⟨run_loadBits s hs, run_loadText s hs⟩

end Sys2Proof.Machine

namespace Sys2Proof.Machine

/-! ### Encoder and decoder (R96 to R100) -/

/-- Settles O2: every command's word is accepted by the command's row, which builds the command back. -/
theorem decodeEncodeAgree : Obligations.DecodeEncodeAgree := decode_encode_of_wellFormed

/-- Settles O3: the row that accepts the word builds a well-formed command, whose word the mask leaves no freedom. -/
theorem encodeDecodeAgree : Obligations.EncodeDecodeAgree := by
  intro w i hdecode
  obtain ⟨o, haccepts, rfl⟩ := (decode_eq_ok_iff w i).mp hdecode
  exact ⟨build_wellFormed o w, encode_build o w haccepts⟩

/-- A CMD write raises IllegalCommand exactly when no row accepts the word: a command that runs raises other faults or
none (R96, R280). -/
theorem write_cmd_illegal_iff (w : Word) {s : State} (hs : s.fault = false) :
    hostAccess (.write 0x000#12 w) s = .next (s.faulted .illegalCommand) ↔ ∀ o : Op, o.accepts w ≠ true := by
  constructor
  · intro h o haccepts
    have hdecode : decode w = .ok (o.build w) := (decode_eq_ok_iff w _).mpr ⟨o, haccepts, rfl⟩
    rw [write_cmd_ok hdecode hs, exec_faulted_iff _ s hs] at h
    exact (checks_code_ne h).2 rfl
  · intro h
    obtain ⟨e, hdecode⟩ := decode_error_of w h
    exact write_cmd_error hdecode hs

/-- Settles O4: the decoder's rows in R96's own words, their columns, and a word outside all of them. -/
theorem decodeIsMaskAndMatch : Obligations.DecodeIsMaskAndMatch := by
  refine ⟨fun w i => ?_, fun w o o' h h' => ?_, maskWord_eq, matchWord_eq, fun w s hs h => ?_⟩
  · simp only [decode_eq_ok_iff, accepts_iff_and]
  · exact accepts_unique ((accepts_iff_and o w).mpr h) ((accepts_iff_and o' w).mpr h')
  · exact (write_cmd_illegal_iff w hs).mpr fun o haccepts => h o ((accepts_iff_and o w).mp haccepts)

/-- The fields of `w` are ones that a word of row `o` may have (R91, R92, R93). -/
def FieldsLegal (o : Op) (w : Word) : Prop :=
  fieldLegal o.uses.1 (fieldRd w) ∧ fieldLegal o.uses.2.1 (fieldRa w) ∧ fieldLegal o.uses.2.2.1 (fieldRb w)
    ∧ (o.uses.2.2.2 = false → fieldImm w = 0#12)

/-- A row accepts the words of its opcode with legal fields (R96, R97). -/
theorem accepts_iff_fieldsLegal (o : Op) (w : Word) : o.accepts w = true ↔ fieldOp w = o.opcode ∧ FieldsLegal o w := by
  simp only [accepts_iff, FieldsLegal, fieldLegal_iff]; rfl

/-- No row accepts a word exactly when its opcode is not listed, or its fields are not legal for the one row of its
opcode (R97). -/
theorem not_accepts_iff (w : Word) :
    (∀ o : Op, o.accepts w ≠ true) ↔
      fieldOp w ∉ Op.all.map Op.opcode ∨ ∃ o : Op, fieldOp w = o.opcode ∧ ¬ FieldsLegal o w := by
  simp only [ne_eq, accepts_iff_fieldsLegal, not_and]
  constructor
  · intro h
    by_cases hlisted : fieldOp w ∈ Op.all.map Op.opcode
    · obtain ⟨o, -, ho⟩ := List.mem_map.mp hlisted
      exact .inr ⟨o, ho.symm, h o ho.symm⟩
    · exact .inl hlisted
  · rintro (hunlisted | ⟨o, ho, hillegal⟩) o' ho'
    · exact absurd (List.mem_map.mpr ⟨o', mem_all o', ho'.symm⟩) hunlisted
    · rwa [← opcode_injective (ho.symm.trans ho')]

/-- Settles O5: IllegalCommand is the fault of the words that no row accepts, which are those of R97's list. -/
theorem illegalCommandExactly : Obligations.IllegalCommandExactly := fun w _ hs =>
  (write_cmd_illegal_iff w hs).trans (not_accepts_iff w)

/-- Settles O1: each word is the formula of R100 on the operands that the statement names. -/
theorem specExampleWordsDecode : Obligations.SpecExampleWordsDecode := by
  unfold Obligations.SpecExampleWordsDecode; decide

/-! ### XOR (R149, R151) -/

/-- Settles O31: Bd holds the exclusive-or of the operands' bits, which fits it, and 0 past them. -/
theorem xorIsBitwise : Obligations.XorIsBitwise := by
  intro s rd ra rb hi hlen
  obtain ⟨t, hexec, hc⟩ := exec_completes (i := .xor rd ra rb) (s := s) ⟨not_not.mpr hlen, trivial⟩
  have hwrites := hc.writesOnly
  obtain ⟨-, rfl⟩ := hc
  have hsame : (s.readB ra).length = (s.readB rb).length := by rw [length_readB, length_readB, hlen]
  have hresult : (xorBits (s.readB ra) (s.readB rb)).length = s.b[ra].len := by
    rw [length_xorBits, ← hsame, Nat.min_self, length_readB]
  refine ⟨_, hexec, ?_, fun i => ?_, hwrites⟩
  · rw [b_writeB_same]; exact hresult
  · rw [bit_writeB_same s rd (hresult.trans_le (hi.len_le ra)), getD_xorBits _ _ hsame, getD_readB', getD_readB', ← hlen,
      Bool.and_xor_distrib_left]

/-! ### The host macros (R102) -/

/-- What a message operation answers is a message of its input (R244, R248). -/
theorem messageOf_of_processMessage {T : Tables} {f : Bits → Bits → Bits} {input : Bits} {key : Text} {m : Message}
    (h : processMessage T f input key = .ok m) : Message.Of T f input key m := by
  obtain ⟨e, -, he⟩ | ⟨kp, -, -, he⟩ | ⟨m', hm, he⟩ := processMessage_cases T f input key
  all_goals rw [he] at h
  · cases h
  · cases h
  · cases h; exact hm

/-- The message of an input that fits a bit register fits one too (R21, R240). -/
theorem Message.Of.length_bits_le {T : Tables} {f : Bits → Bits → Bits} {input : Bits} {key : Text} {m : Message}
    (h : Message.Of T f input key m) (hf : KeepsBlockLength f) (hinput : input.length ≤ 2048) : m.bits.length ≤ 2048 := by
  have hblocks := h.length_blocks_le hinput
  have hbits := h.length_bits hf
  rw [← h.length_blocks] at hbits
  omega

/-- A ciphertext of a text that fits a text register fits a bit register (R240). -/
theorem length_encryptMessage_le {T : Tables} {text key : Text} {m : Message} (h : encryptMessage T text key = .ok m)
    (htext : text.length ≤ 256) : m.bits.length ≤ 2048 := by
  cases hv : textToBits T text with
  | error e => simp [encryptMessage, hv] at h
  | ok v =>
    have hlen := length_textToBits hv
    simp only [encryptMessage, hv] at h
    exact (messageOf_of_processMessage h).length_bits_le (keepsBlockLength_encryptBlock T) (by omega)

/-- The text of a ciphertext that fits a bit register fits a text register (R146, R240). -/
theorem length_decryptMessage_le {T : Tables} {input : Bits} {key : Text} {m : Message}
    (h : decryptMessage T input key = .ok m) (hinput : input.length ≤ 2048) : (bitsToText T m.bits).length ≤ 256 := by
  have hbits := (messageOf_of_processMessage h).length_bits_le (keepsBlockLength_decryptBlock T) hinput
  have htext := length_bitsToText_le T m.bits
  omega

/-- From `s` to `t` bit and text registers alone may differ, and no access is pending in `t`: what loads of operands leave
(R78). -/
def Loaded (s t : State) : Prop := t = { s with b := t.b, t := t.t, input := [], reply := none }

section
variable {s t : State} (h : Loaded s t)
include h

theorem Loaded.fault : t.fault = s.fault := by rw [h]

theorem Loaded.kvalid : t.kvalid = s.kvalid := by rw [h]

theorem Loaded.tables : t.tables = s.tables := by rw [h]

theorem Loaded.idle : { t with input := [], reply := none } = t := by rw [h]

end

/-- After the loads of ENCRYPT the operands are in T0 and T1 (R78, R102). -/
theorem run_encryptLoads {s : State} (hs : s.fault = false) {text key : Text} (htext : text.length ≤ 256)
    (hkey : key.length ≤ 256) :
    ∃ t, runAccesses (loadText 0 text ++ loadText 1 key) s = .next t ∧ Loaded s t ∧ t.readT 0 = text
      ∧ t.readT 1 = key := by
  obtain ⟨t, hrun, hread, -, ht⟩ := run_loadText s hs 0 text htext
  obtain ⟨u, hrun', hread', honly, hu⟩ := run_loadText t (by rw [ht]; exact hs) 1 key hkey
  refine ⟨u, (runAccesses_append hrun _).trans hrun', by rw [Loaded, hu, ht], ?_, hread'⟩
  rw [← hread, State.readT, State.readT, honly 0 (by decide)]

/-- After the loads of DECRYPT the operands are in B0 and T1 (R78, R102). -/
theorem run_decryptLoads {s : State} (hs : s.fault = false) {v : Bits} {key : Text} (hv : v.length ≤ 2048)
    (hkey : key.length ≤ 256) :
    ∃ t, runAccesses (loadBits 0 v ++ loadText 1 key) s = .next t ∧ Loaded s t ∧ t.readB 0 = v ∧ t.readT 1 = key := by
  obtain ⟨t, hrun, hread, -, ht⟩ := run_loadBits s hs 0 v hv
  obtain ⟨u, hrun', hread', -, hu⟩ := run_loadText t (by rw [ht]; exact hs) 1 key hkey
  refine ⟨u, (runAccesses_append hrun _).trans hrun', by rw [Loaded, hu, ht], ?_, hread'⟩
  rw [← hread, hu]; rfl

section
variable {s t : State} {as : List HostAccess} {w : Word} {i : Instr} (hs : s.fault = false)
  (hrun : runAccesses as s = .next t) (hloaded : Loaded s t) (hdecode : decode w = .ok i)
include hs hrun hloaded hdecode

/-- Loads, then a command that completes and sets KVALID: the STATUS word read is 2 (R38). -/
theorem run_loaded_completed {u : State} (hexec : exec i t = .next u) (hfault : u.fault = t.fault)
    (hkvalid : u.kvalid = true) :
    runAccesses (as ++ [.write 0x000#12 w, .read 0x001#12]) s = .next { u with reply := some 2#32 } := by
  have ht : t.fault = false := hloaded.fault.trans hs
  rw [run_command_status hrun hdecode ht (by rw [hloaded.idle]; exact hexec), hfault, ht, hkvalid]; rfl

/-- Loads, then a command that takes a fault: ERR names it, and the STATUS word read shows FAULT = 1 and KVALID as it was
(R38, R272). -/
theorem run_loaded_fault {e : FaultCode} (hexec : exec i t = .next (takeFault e t)) :
    ∃ u, runAccesses (as ++ [.write 0x000#12 w, .read 0x001#12]) s = .next u ∧ u.fault = true ∧ u.err = e.code
      ∧ u.reply = some (BitVec.ofNat 32 (1 + 2 * s.kvalid.toNat)) := by
  have ht : t.fault = false := hloaded.fault.trans hs
  rw [faulted_eq t e ht] at hexec
  refine ⟨_, run_command_status hrun hdecode ht (by rw [hloaded.idle]; exact hexec), rfl, rfl, ?_⟩
  rw [← hloaded.kvalid]; rfl

end

section
variable {s : State} {key : Text} (hs : s.fault = false) (hkey : key.length ≤ 256)
include hs hkey

/-- ENCRYPT of a message that `encrypt` accepts leaves its bits in B0 (R102, R246). -/
theorem run_encryptMacro_ok {text : Text} (htext : text.length ≤ 256) {m : Message}
    (hm : encryptMessage s.tables text key = .ok m) :
    ∃ t, runAccesses (encryptMacro text key) s = .next t ∧ t.fault = false ∧ t.readB 0 = m.bits
      ∧ t.reply = some 2#32 := by
  obtain ⟨t, hrun, hloaded, hread0, hread1⟩ := run_encryptLoads hs htext hkey
  have hexec : exec (.enc 0 0 1) t = .next ((t.writeB 0 m.bits).writeMessage m (m.blocks.length - 1)) := by
    simp only [exec, execEnc, hread0, hread1, hloaded.tables, hm, complete]
  exact ⟨_, run_loaded_completed hs hrun hloaded (by decide) hexec rfl rfl, hloaded.fault.trans hs,
    readB_writeB_same t 0 m.bits (length_encryptMessage_le hm htext), rfl⟩

/-- ENCRYPT of a message that `encrypt` refuses ends in its fault (R102, R246). -/
theorem run_encryptMacro_error {text : Text} (htext : text.length ≤ 256) {e : FaultCode}
    (he : encryptMessage s.tables text key = .error e) :
    ∃ t, runAccesses (encryptMacro text key) s = .next t ∧ t.fault = true ∧ t.err = e.code
      ∧ t.reply = some (BitVec.ofNat 32 (1 + 2 * s.kvalid.toNat)) := by
  obtain ⟨t, hrun, hloaded, hread0, hread1⟩ := run_encryptLoads hs htext hkey
  have hexec : exec (.enc 0 0 1) t = .next (takeFault e t) := by
    simp only [exec, execEnc, hread0, hread1, hloaded.tables, he, raise]
  exact run_loaded_fault hs hrun hloaded (by decide) hexec

/-- DECRYPT of a ciphertext that `decrypt` accepts leaves its text in T0 (R102, R250). -/
theorem run_decryptMacro_ok {v : Bits} (hv : v.length ≤ 2048) {m : Message}
    (hm : decryptMessage s.tables v key = .ok m) :
    ∃ t, runAccesses (decryptMacro v key) s = .next t ∧ t.fault = false ∧ t.readT 0 = bitsToText s.tables m.bits
      ∧ t.reply = some 2#32 := by
  obtain ⟨t, hrun, hloaded, hread0, hread1⟩ := run_decryptLoads hs hv hkey
  have hexec : exec (.dec 0 0 1) t = .next ((t.writeT 0 (bitsToText s.tables m.bits)).writeMessage m 0) := by
    simp only [exec, execDec, hread0, hread1, hloaded.tables, hm, complete]
  exact ⟨_, run_loaded_completed hs hrun hloaded (by decide) hexec rfl rfl, hloaded.fault.trans hs,
    readT_writeT_same t 0 _ (length_decryptMessage_le hm hv), rfl⟩

/-- DECRYPT of a ciphertext that `decrypt` refuses ends in its fault (R102, R250). -/
theorem run_decryptMacro_error {v : Bits} (hv : v.length ≤ 2048) {e : FaultCode}
    (he : decryptMessage s.tables v key = .error e) :
    ∃ t, runAccesses (decryptMacro v key) s = .next t ∧ t.fault = true ∧ t.err = e.code
      ∧ t.reply = some (BitVec.ofNat 32 (1 + 2 * s.kvalid.toNat)) := by
  obtain ⟨t, hrun, hloaded, hread0, hread1⟩ := run_decryptLoads hs hv hkey
  have hexec : exec (.dec 0 0 1) t = .next (takeFault e t) := by
    simp only [exec, execDec, hread0, hread1, hloaded.tables, he, raise]
  exact run_loaded_fault hs hrun hloaded (by decide) hexec

end

/-- Settles O57: each macro ends in the result of its operation, the value or the fault. -/
theorem hostMacrosCompute : Obligations.HostMacrosCompute := by
  refine fun s key hs hkey => ⟨fun text htext => ?_, fun v hv => ?_⟩
  · cases hm : encryptMessage s.tables text key with
    | ok m =>
      rw [show encrypt s.tables text key = .ok m.bits by rw [encrypt, hm]]
      exact run_encryptMacro_ok hs hkey htext hm
    | error e =>
      rw [show encrypt s.tables text key = .error e by rw [encrypt, hm]]
      exact run_encryptMacro_error hs hkey htext hm
  · cases hm : decryptMessage s.tables v key with
    | ok m =>
      rw [show decrypt s.tables v key = .ok (bitsToText s.tables m.bits) by rw [decrypt, hm]]
      exact run_decryptMacro_ok hs hkey hv hm
    | error e =>
      rw [show decrypt s.tables v key = .error e by rw [decrypt, hm]]
      exact run_decryptMacro_error hs hkey hv hm

end Sys2Proof.Machine

namespace Sys2Proof.Machine

/-! ### CODEOF and SYMOF (R122, R124) -/

/-- CODEOF writes the code that the lookup finds to RES (R122). -/
theorem exec_codeof_of_codeOf {s : State} {c : Nat} (h : codeOf s.tables s.res = .ok c) :
    exec .codeof s = .next (s.writeRes (zext32 c)) := by
  obtain ⟨t, hexec, c', hc', rfl⟩ :=
    exec_completes (i := .codeof) ⟨not_not.mpr ((mapped_iff s.tables s.res).mpr ⟨c, h⟩), trivial⟩
  obtain rfl : c' = c := Except.ok.inj (hc'.symm.trans h)
  exact hexec

/-- SYMOF of a code in [0, 255] writes the symbol that the lookup gives to RES (R124). -/
theorem exec_symof_of_le {s : State} (h : s.res.toNat ≤ 255) :
    exec .symof s = .next (s.writeRes (symbolOf s.tables s.res.toNat)) := by
  obtain ⟨t, hexec, -, rfl⟩ := exec_completes (i := .symof) (s := s) ⟨not_lt.mpr h, trivial⟩
  exact hexec

/-- Settles O25: the lookup finds the pair of CP that holds the symbol (`codeOf_eq_ok_iff`). -/
theorem codeofGivesCode : Obligations.CodeofGivesCode :=
  fun s c hmem => exec_codeof_of_codeOf ((codeOf_eq_ok_iff s.tables s.res c).mpr hmem)

/-- Settles O26: a code of CP gives its pair's symbol (`symbolOf_of_mem`), any other SENTINEL (`symbolOf_of_not_mem`). -/
theorem symofGivesSymbol : Obligations.SymofGivesSymbol := by
  intro s hcode
  refine ⟨fun x hmem => ?_, fun hnone => ?_⟩
  · rw [exec_symof_of_le hcode, symbolOf_of_mem hmem]; rfl
  · rw [exec_symof_of_le hcode, symbolOf_of_not_mem hnone]; rfl

/-! ### The laws of the two lookups (R125) -/

/-- The code of the symbol '0' is 48, whatever CP_EXT holds (R33). -/
theorem codeOf_digit_zero (T : Tables) : codeOf T 0x30#32 = .ok 48 :=
  (codeOf_eq_ok_iff T _ _).mpr ((mem_codepage T 48 _).mpr (.inl ⟨by decide, rfl⟩))

/-- Settles O27: each lookup finds exactly the pairs of CP, whose 191 symbols differ (`codepage_syms_nodup`); a code
outside CP gives SENTINEL, the symbol of 48. -/
theorem codepageLaws : Obligations.CodepageLaws := by
  intro T hsentinel
  refine ⟨fun _ _ => symbolOf_codeOf, fun _ ⟨_, hmem⟩ => codeOf_symbolOf hmem, fun c hnone => ?_,
    (codepage T).map Prod.snd, codepage_syms_nodup T, by rw [List.length_map, length_codepage], codeOf_ok_iff_mem T⟩
  obtain ⟨hback, hne⟩ := codeOf_symbolOf_unmapped hsentinel (not_exists.mp hnone)
  exact ⟨hback.trans (codeOf_digit_zero T).symm, codeOf_digit_zero T, hne⟩

end Sys2Proof.Machine

namespace Sys2Proof.Machine

/-! ### T2B, then B2T of its result (R142, R148) -/

/-- T2B of a text that encodes writes its bits to Bd (R142). -/
theorem exec_t2b_of_textToBits {s : State} (rd : BSel) {ra : TSel} {v : Bits}
    (hv : textToBits s.tables (s.readT ra) = .ok v) : exec (.t2b rd ra) s = .next (s.writeB rd v) := by
  obtain ⟨t, hexec, v', hv', rfl⟩ :=
    exec_completes (i := .t2b rd ra) ⟨not_not.mpr ((textMapped_iff s ra).mpr ⟨v, hv⟩), trivial⟩
  obtain rfl : v' = v := Except.ok.inj (hv'.symm.trans hv)
  exact hexec

/-- B2T of whole 8-bit groups writes their text to Td (R148). -/
theorem exec_b2t_of_groups {s : State} (rd : TSel) {ra : BSel} (h : s.b[ra].len % 8 = 0) :
    exec (.b2t rd ra) s = .next (s.writeT rd (bitsToText s.tables (s.readB ra))) := by
  obtain ⟨t, hexec, -, rfl⟩ := exec_completes (i := .b2t rd ra) (s := s) ⟨not_not.mpr h, trivial⟩
  exact hexec

/-- "bitsToText(textToBits(t))" is t without its NULs: no padding follows the codes (R144). -/
theorem bitsToText_textToBits_self {T : Tables} {t : Text} {v : Bits} (h : textToBits T t = .ok v) :
    bitsToText T v = t.filter (fun x => x != 0#32) := by
  rw [← bitsToText_textToBits h 0, Nat.mul_zero, zeros, List.replicate_zero, List.append_nil]

/-- Settles O30: T2B leaves the codes of the text in Bd, 8 bits each, so B2T completes; its text is the old one without
NULs, which is no longer and fits Td. -/
theorem t2bThenB2tDropsNuls : Obligations.T2bThenB2tDropsNuls := by
  intro s rd ra rt hi hmapped
  obtain ⟨v, hv⟩ := (textMapped_iff s ra).mp hmapped
  obtain ⟨hlen, hfits⟩ := length_textToBits_readT hi hv
  have hread : (s.writeB rd v).readB rd = v := readB_writeB_same s rd v hfits
  have hgroups : (s.writeB rd v).b[rd].len % 8 = 0 := by rw [b_writeB_same, hlen]; exact Nat.mul_mod_right 8 _
  have htext : (bitsToText s.tables v).length ≤ 256 := by
    have := length_bitsToText_le s.tables v
    omega
  refine ⟨_, _, exec_t2b_of_textToBits rd hv, exec_b2t_of_groups rt hgroups, ?_⟩
  rw [hread, State.writeB_tables, readT_writeT_same _ rt _ htext, bitsToText_textToBits_self hv]

/-! ### XOR twice (R150) -/

/-- XOR of operands of one length writes their exclusive-or to Bd (R151). -/
theorem exec_xor_of_length_eq {s : State} (rd : BSel) {ra rb : BSel} (h : s.b[ra].len = s.b[rb].len) :
    exec (.xor rd ra rb) s = .next (s.writeB rd (xorBits (s.readB ra) (s.readB rb))) := by
  obtain ⟨t, hexec, -, rfl⟩ := exec_completes (i := .xor rd ra rb) (s := s) ⟨not_not.mpr h, trivial⟩
  exact hexec

/-- Settles O32: the first XOR leaves Bb and gives Bd Bb's length, so the second completes and undoes the first
(`xorBits_involution`). -/
theorem xorTwiceRestores : Obligations.XorTwiceRestores := by
  intro s rd ra rb hi hlen hne
  have hsame : (s.readB ra).length = (s.readB rb).length := by rw [length_readB, length_readB, hlen]
  have hresult : (xorBits (s.readB ra) (s.readB rb)).length = (s.readB rb).length := by
    rw [length_xorBits, hsame, Nat.min_self]
  have hfits : (s.readB rb).length ≤ 2048 := by rw [length_readB]; exact hi.len_le rb
  have hrestored : xorBits (xorBits (s.readB ra) (s.readB rb)) (s.readB rb) = s.readB ra :=
    xorBits_involution _ _ hsame
  refine ⟨_, _, exec_xor_of_length_eq rd hlen, exec_xor_of_length_eq rd ?_, ?_⟩
  · rw [b_writeB_same, b_writeB_ne s rd rb _ hne.symm, hresult, length_readB]
  · rw [readB_writeB_same s rd _ (hresult.trans_le hfits), readB_writeB_ne s rd rb _ hne.symm, hrestored]
    exact readB_writeB_same _ rd _ (hsame.trans_le hfits)

/-! ### ROTL11 (R155, R157) -/

/-- Settles O34: Bd holds the rotated bits (`getD_rotl11`), which as a word are the rotated word
(`bitsToWord_rotl11`), and 0 past them. -/
theorem rotl11Rotates : Obligations.Rotl11Rotates := by
  intro s rd ra hlen
  obtain ⟨t, hexec, hc⟩ := exec_completes (i := .rotl11 rd ra) (s := s) ⟨not_not.mpr hlen, trivial⟩
  have hwrites := hc.writesOnly
  obtain ⟨-, rfl⟩ := hc
  have hread : (s.readB ra).length = 32 := by rw [length_readB, hlen]
  have hresult : (rotl11 (s.readB ra)).length = 32 := by rw [length_rotl11, hread]
  have hfits : (rotl11 (s.readB ra)).length ≤ 2048 := by omega
  refine ⟨_, hexec, ?_, fun i hpos => ?_, fun w => ?_, hwrites⟩
  · rw [b_writeB_same]; exact hresult
  · rw [bit_writeB_same s rd hfits, getD_rotl11 _ hread i hpos, getD_readB s ra _ (by omega)]; rfl
  · rw [bword_writeB_same s rd hfits, padWord_32 hresult, bitsToWord_rotl11 _ hread, bitsToWord_readB s ra hlen,
      rotateLeft_eq_rotl32]
    rfl

end Sys2Proof.Machine

namespace Sys2Proof.Machine

/-! ### JOIN (R173, R175) -/

/-- Settles O36: Bd holds the chunks of Q in order, which are its first cnt * ps stored bits (`flatten_readQ`) and fit
it. -/
theorem joinConcatenatesQ : Obligations.JoinConcatenatesQ := by
  intro s rd hi hcnt
  obtain ⟨t, hexec, hc⟩ := exec_completes (i := .join rd) (s := s) ⟨by omega, trivial⟩
  have hwrites := hc.writesOnly
  obtain ⟨-, rfl⟩ := hc
  have hfits : (storeSlice s.q.store 0 (s.q.cnt * s.q.ps)).length ≤ 2048 := by
    rw [length_storeSlice]; exact hi.q_fits
  rw [flatten_readQ] at hexec hwrites
  refine ⟨_, hexec, ?_, fun i => ?_, hwrites⟩
  · rw [b_writeB_same, length_storeSlice]
  · rw [bit_writeB_same s rd hfits, getD_storeSlice_eq_and, Nat.zero_add]; rfl

/-! ### SPLIT, then JOIN or GETQ of its result (R170, R171) -/

/-- A register that holds the bits of v, 0 past them, and is as long as v with k zeros after it, reads as that. -/
theorem readB_eq_append_zeros {s : State} {n : BSel} {v : Bits} {k : Nat} (hlen : s.b[n].len = v.length + k)
    (hbit : ∀ i, i < s.b[n].len → s.bit n i = v.getD i false) : s.readB n = v ++ zeros k := by
  refine bits_ext (by rw [length_readB, hlen, List.length_append, length_zeros]) fun i hpos => ?_
  rw [length_readB] at hpos
  rw [getD_append_zeros, getD_readB', decide_eq_true hpos, Bool.true_and, hbit i hpos]

/-- Settles O37: SPLIT leaves the operand's bits, 0 past them, in Q with the chunk size and count (O35), so JOIN reads
all of Q (O36) and GETQ one chunk of it (O38). -/
theorem splitThenJoinPads : Obligations.SplitThenJoinPads := by
  intro s rd ra imm hi hpos hmax hlen hcap
  obtain ⟨t, hexec, hps, hcnt, hqbit, -⟩ := splitCutsIntoQ s ra imm hpos hmax hcap
  have ht : t.Inv := (completed_of_exec hexec ⟨by omega, by omega, trivial⟩).inv hi
  have hcount : 1 ≤ t.q.cnt := by rw [hcnt]; exact (ceilDiv_pos hpos).mpr hlen
  have hge := ceilDiv_mul_ge s.b[ra].len imm hpos
  have hlt := ceilDiv_mul_lt s.b[ra].len imm hpos
  refine ⟨t, hexec, ?_, fun j hj => ?_⟩
  · obtain ⟨u, hjoin, hulen, hubit, -⟩ := joinConcatenatesQ t rd ht hcount
    rw [hcnt, hps] at hulen hubit
    refine ⟨u, hjoin, readB_eq_append_zeros ?_ fun i hin => ?_, by omega⟩
    · rw [hulen, length_readB]; omega
    · rw [hulen] at hin
      rw [hubit, decide_eq_true hin, Bool.true_and, hqbit, getD_readB']
  · obtain ⟨u, hgetq, hulen, hubit, -⟩ := getqCopiesChunk t rd j ht (by rw [hcnt]; exact hj)
    rw [hps] at hulen hubit
    refine ⟨u, hgetq, hulen, fun i hin => ?_⟩
    rw [hubit, decide_eq_true hin, Bool.true_and, hqbit]

end Sys2Proof.Machine

namespace Sys2Proof.Machine

/-! ### A 32-bit result in a bit register (R62) -/

/-- The data words of a register that a 32-bit string is written to: its word, then zeros. -/
theorem bword_writeB_32 (s : State) (n : BSel) {v : Bits} (h : v.length = 32) (w : Fin 64) :
    (s.writeB n v).bword n w = if w.val = 0 then bitsToWord v else 0#32 := by
  rw [bword_writeB_same s n (by omega), padWord_32 h]

/-- The 32 bits that a register holds are its data word 0. -/
theorem bitsToWord_readB_eq_bword {s : State} {n : BSel} (h : s.b[n].len = 32) :
    bitsToWord (s.readB n) = s.bword n 0 :=
  bitsToWord_readB s n h

/-! ### SUBST (R191, R192) -/

/-- SUBST of 32 bits writes the substituted string to Bd (R192). -/
theorem exec_subst_of_len {s : State} (rd : BSel) {ra : BSel} (h : s.b[ra].len = 32) :
    exec (.subst rd ra) s = .next (s.writeB rd (subst s.tables (s.readB ra))) := by
  obtain ⟨t, hexec, -, rfl⟩ := exec_completes (i := .subst rd ra) (s := s) ⟨not_not.mpr h, trivial⟩
  exact hexec

/-- Settles O39: the 32 bits written to Bd are, as a word, the substituted word (`bitsToWord_subst`). -/
theorem substReplacesNibbles : Obligations.SubstReplacesNibbles := by
  intro s rd ra hlen
  have hexec := exec_subst_of_len rd hlen
  have hwrites := (completed_of_exec hexec ⟨not_not.mpr hlen, trivial⟩).writesOnly
  refine ⟨_, hexec, ?_, fun w => ?_, hwrites⟩
  · rw [b_writeB_same]; exact length_subst _ _
  · rw [bword_writeB_32 s rd (length_subst _ _), bitsToWord_subst _ _ (by rw [length_readB, hlen]),
      bitsToWord_readB_eq_bword hlen]

/-! ### FRND (R199, R200) -/

/-- FRND of two operands of 32 bits writes F of them to Bd (R200). -/
theorem exec_frnd_of_len {s : State} (rd : BSel) {ra rb : BSel} (ha : s.b[ra].len = 32) (hb : s.b[rb].len = 32) :
    exec (.frnd rd ra rb) s = .next (s.writeB rd (roundF s.tables (s.readB ra) (s.readB rb))) := by
  obtain ⟨t, hexec, -, -, rfl⟩ := exec_completes (i := .frnd rd ra rb) (s := s)
    ⟨not_not.mpr (ha.trans hb.symm), not_not.mpr ha, trivial⟩
  exact hexec

/-- Settles O40: the 32 bits written to Bd are, as a word, the round function on words (`bitsToWord_roundF`). -/
theorem frndIsRoundFunction : Obligations.FrndIsRoundFunction := by
  intro s rd ra rb ha hb
  have hexec := exec_frnd_of_len rd ha hb
  have hwrites := (completed_of_exec hexec
    ⟨not_not.mpr (ha.trans hb.symm), not_not.mpr ha, trivial⟩).writesOnly
  refine ⟨_, hexec, ?_, fun w => ?_, hwrites⟩
  · rw [b_writeB_same]; exact length_roundF _ _ _
  · rw [bword_writeB_32 s rd (length_roundF _ _ _),
      bitsToWord_roundF _ _ _ (by rw [length_readB, ha]) (by rw [length_readB, hb]),
      bitsToWord_readB_eq_bword ha, bitsToWord_readB_eq_bword hb]

/-! ### XOR, then SUBST, then ROTL11 on one register (R199) -/

/-- ROTL11 of 32 bits writes the rotated string to Bd (R157). -/
theorem exec_rotl11_of_len {s : State} (rd : BSel) {ra : BSel} (h : s.b[ra].len = 32) :
    exec (.rotl11 rd ra) s = .next (s.writeB rd (rotl11 (s.readB ra))) := by
  obtain ⟨t, hexec, -, rfl⟩ := exec_completes (i := .rotl11 rd ra) (s := s) ⟨not_not.mpr h, trivial⟩
  exact hexec

/-- SUBST of the 32 bits just written to a register leaves what writing the substituted string leaves (R23, R192). -/
theorem exec_subst_writeB (s : State) (n : BSel) {v : Bits} (h : v.length = 32) :
    exec (.subst n n) (s.writeB n v) = .next (s.writeB n (subst s.tables v)) := by
  rw [exec_subst_of_len n (by rw [b_writeB_same]; exact h), readB_writeB_same s n v (by omega), writeB_writeB,
    State.writeB_tables]

/-- ROTL11 of the 32 bits just written to a register leaves what writing the rotated string leaves (R23, R157). -/
theorem exec_rotl11_writeB (s : State) (n : BSel) {v : Bits} (h : v.length = 32) :
    exec (.rotl11 n n) (s.writeB n v) = .next (s.writeB n (rotl11 v)) := by
  rw [exec_rotl11_of_len n (by rw [b_writeB_same]; exact h), readB_writeB_same s n v (by omega), writeB_writeB]

/-- Settles O41: each of the three commands replaces Bd whole, so the last write stands alone, and what it writes is F of
the operands by the definition of F (R199). -/
theorem frndEqualsItsSteps : Obligations.FrndEqualsItsSteps := by
  intro s rd ra rb ha hb
  have hxor : (xorBits (s.readB ra) (s.readB rb)).length = 32 := by
    rw [length_xorBits, length_readB, length_readB, ha, hb]; rfl
  exact ⟨_, _, _, exec_xor_of_length_eq rd (ha.trans hb.symm), exec_subst_writeB s rd hxor,
    exec_rotl11_writeB s rd (length_subst _ _), exec_frnd_of_len rd ha hb⟩

/-! ### KIDX (R201, R202, R205) -/

/-- Settles O42: KIDX writes the formula's value to RES, and the table is the formula (`scheduleTable_eq`). -/
theorem kidxFollowsSchedule : Obligations.KidxFollowsSchedule := by
  intro s i hi
  have htable := scheduleTable_eq hi
  refine ⟨?_, htable⟩
  obtain ⟨t, hexec, -, rfl⟩ := exec_completes (i := .kidx i) (s := s) ⟨by omega, trivial⟩
  rw [htable]
  exact hexec

end Sys2Proof.Machine

namespace Sys2Proof.Machine

/-! ### ENCB and DECB on operands of legal length (R222, R226) -/

/-- ENCB of a block of 64 bits and a key part of 32 bits writes the encrypted block (R222). -/
theorem exec_encb_of_len {s : State} (rd : BSel) {ra rb : BSel} (ha : s.b[ra].len = 64) (hb : s.b[rb].len = 32) :
    exec (.encb rd ra rb) s = .next (s.writeBlock rd (encryptBlock s.tables (s.readB ra) (s.readB rb))) := by
  obtain ⟨t, hexec, -, -, rfl⟩ := exec_completes (i := .encb rd ra rb) (s := s)
    ⟨not_not.mpr ha, not_not.mpr hb, trivial⟩
  exact hexec

/-- DECB of a block of 64 bits and a key part of 32 bits writes the decrypted block (R226). -/
theorem exec_decb_of_len {s : State} (rd : BSel) {ra rb : BSel} (ha : s.b[ra].len = 64) (hb : s.b[rb].len = 32) :
    exec (.decb rd ra rb) s = .next (s.writeBlock rd (decryptBlock s.tables (s.readB ra) (s.readB rb))) := by
  obtain ⟨t, hexec, -, -, rfl⟩ := exec_completes (i := .decb rd ra rb) (s := s)
    ⟨not_not.mpr ha, not_not.mpr hb, trivial⟩
  exact hexec

/-- A command that passes its checks and writes a block to Bd leaves the block's halves in LREG and RREG and in Bd's data
words 0 and 1, whichever transform made the block (R32, R220). -/
theorem exec_leaves_block {i : Instr} {s : State} {rd : BSel} {c : Bits} {p : Word × Word}
    (hexec : exec i s = .next (s.writeBlock rd c)) (hchecks : NoneFailed (checks i s)) (hlen : c.length = 64)
    (hwords : halvesToWords (halves c) = p) :
    ∃ t, exec i s = .next t ∧ (t.lreg, t.rreg) = p ∧ t.rnd = 32 ∧ t.b[rd].len = 64
      ∧ (∀ w : Fin 64, t.bword rd w = if w.val = 0 then t.lreg else if w.val = 1 then t.rreg else 0#32)
      ∧ WritesOnly i s t := by
  refine ⟨_, hexec, ?_, rfl, ?_, bword_writeBlock s rd hlen, (completed_of_exec hexec hchecks).writesOnly⟩
  · rw [← halvesToWords_writeBlock, hwords]
  · rw [len_writeBlock_same, hlen]

/-- Settles O43: the transform on bitstrings is 32 rounds on words (`halvesToWords_encryptBlock`), and the operands' words
are their data words. -/
theorem encbRunsRounds : Obligations.EncbRunsRounds := by
  intro s rd ra rb ha hb
  have hblock : (s.readB ra).length = 64 := by rw [length_readB, ha]
  have hkey : (s.readB rb).length = 32 := by rw [length_readB, hb]
  refine exec_leaves_block (exec_encb_of_len rd ha hb) ⟨not_not.mpr ha, not_not.mpr hb, trivial⟩
    (length_encryptBlock _ _ _ hblock) ?_
  rw [halvesToWords_encryptBlock _ _ _ hblock hkey, bitsToWord_readB_eq_bword hb, halvesToWords_readB s ra ha]

/-- Settles O44: as O43, with the decrypt rounds on words (`halvesToWords_decryptBlock`). -/
theorem decbRunsRounds : Obligations.DecbRunsRounds := by
  intro s rd ra rb ha hb
  have hblock : (s.readB ra).length = 64 := by rw [length_readB, ha]
  have hkey : (s.readB rb).length = 32 := by rw [length_readB, hb]
  refine exec_leaves_block (exec_decb_of_len rd ha hb) ⟨not_not.mpr ha, not_not.mpr hb, trivial⟩
    (length_decryptBlock _ _ _ hblock) ?_
  rw [halvesToWords_decryptBlock _ _ _ hblock hkey, bitsToWord_readB_eq_bword hb, halvesToWords_readB s ra ha]

/-! ### One block transform after the other (R227) -/

/-- Writing a block to one register leaves the length of another (R222, R226). -/
theorem len_writeBlock_ne (s : State) {n k : BSel} (c : Bits) (h : k ≠ n) :
    ((s.writeBlock n c).b[k]).len = s.b[k].len :=
  congrArg BitReg.len (b_writeB_ne s n k c h)

/-- DECB of the block just written to a register, with a key part elsewhere, writes that block decrypted (R226). -/
theorem exec_decb_writeBlock (s : State) {n rb : BSel} {c : Bits} (hc : c.length = 64) (hb : s.b[rb].len = 32)
    (hne : rb ≠ n) :
    exec (.decb n n rb) (s.writeBlock n c)
      = .next ((s.writeBlock n c).writeBlock n (decryptBlock s.tables c (s.readB rb))) := by
  rw [exec_decb_of_len n (by rw [len_writeBlock_same, hc]) (by rw [len_writeBlock_ne s c hne, hb]),
    readB_writeBlock_same s n (by omega), readB_writeBlock_ne s n rb c hne, State.writeBlock_tables]

/-- ENCB of the block just written to a register, with a key part elsewhere, writes that block encrypted (R222). -/
theorem exec_encb_writeBlock (s : State) {n rb : BSel} {c : Bits} (hc : c.length = 64) (hb : s.b[rb].len = 32)
    (hne : rb ≠ n) :
    exec (.encb n n rb) (s.writeBlock n c)
      = .next ((s.writeBlock n c).writeBlock n (encryptBlock s.tables c (s.readB rb))) := by
  rw [exec_encb_of_len n (by rw [len_writeBlock_same, hc]) (by rw [len_writeBlock_ne s c hne, hb]),
    readB_writeBlock_same s n (by omega), readB_writeBlock_ne s n rb c hne, State.writeBlock_tables]

/-- Settles O45: each transform undoes the other round by round (`decryptBlock_encryptBlock`,
`encryptBlock_decryptBlock`), and the second command reads the block that the first wrote and the same key part. -/
theorem blockTransformsInvert : Obligations.BlockTransformsInvert := by
  refine ⟨fun T b p hb _ => ⟨decryptBlock_encryptBlock T b p hb, encryptBlock_decryptBlock T b p hb⟩,
    fun s rd ra rb ha hb hne => ?_⟩
  have hblock : (s.readB ra).length = 64 := by rw [length_readB, ha]
  have hfits : (s.readB ra).length ≤ 2048 := by omega
  constructor
  · refine ⟨_, _, exec_encb_of_len rd ha hb,
      exec_decb_writeBlock s (length_encryptBlock _ _ _ hblock) hb hne.symm, ?_⟩
    rw [decryptBlock_encryptBlock _ _ _ hblock]
    exact readB_writeBlock_same _ rd hfits
  · refine ⟨_, _, exec_decb_of_len rd ha hb,
      exec_encb_writeBlock s (length_decryptBlock _ _ _ hblock) hb hne.symm, ?_⟩
    rw [encryptBlock_decryptBlock _ _ _ hblock]
    exact readB_writeBlock_same _ rd hfits

end Sys2Proof.Machine

namespace Sys2Proof.Machine

/-! ### What a processed message leaves (R245, R249) -/

@[simp] theorem bword_writeMessage (s : State) (m : Message) (j : Nat) (n : BSel) (w : Fin 64) :
    (s.writeMessage m j).bword n w = s.bword n w := rfl

@[simp] theorem sym_writeMessage (s : State) (m : Message) (j : Nat) (n : TSel) (i : Nat) :
    (s.writeMessage m j).sym n i = s.sym n i := rfl

/-- LREG and RREG after a message are the halves of the block processed last (R32). -/
theorem halvesToWords_writeMessage (s : State) (m : Message) (j : Nat) :
    ((s.writeMessage m j).lreg, (s.writeMessage m j).rreg) = halvesToWords (halves (m.blocks.getD j [])) := rfl

section
variable {T : Tables} {f : Bits → Bits → Bits} {input : Bits} {key : Text} {m : Message} (h : Message.Of T f input key m)
include h

/-- The words of a message's bits are the halves of its blocks, given by `c`, and 0 past the last block. -/
theorem Message.Of.padWord_bits (hf : KeepsBlockLength f) {c : Nat → Word × Word}
    (hc : ∀ i, i < m.blocks.length → halvesToWords (halves (m.blocks.getD i [])) = c i) (w : Nat) :
    padWord m.bits w
      = if w < 2 * m.blocks.length then (if w % 2 = 0 then (c (w / 2)).1 else (c (w / 2)).2) else 0#32 := by
  rw [h.bits_eq, padWord_flatten _ (h.length_block hf)]
  by_cases hw : w < 2 * m.blocks.length
  · rw [if_pos hw, if_pos hw, hc _ (by omega)]
  · rw [if_neg hw, if_neg hw]

/-- The data words of Q after a message are the words of the message's bits (R30, R62). -/
theorem Message.Of.qword_writeMessage (hfits : m.bits.length ≤ 2048) (s : State) (j : Nat) (w : Fin 64) :
    (s.writeMessage m j).qword w = padWord m.bits w.val := by
  rw [State.qword, State.writeMessage_q, ← h.bits_eq]
  exact dataWord_packBits_pad m.bits hfits w

/-- The text of a message's bits is the text of the 8-bit groups of the store that holds them (R143). -/
theorem Message.Of.bitsToText_bits (hf : KeepsBlockLength f) (hfits : m.bits.length ≤ 2048) :
    bitsToText T m.bits = textOfBytes T (packBits m.bits) (8 * m.blocks.length) := by
  have hlen := h.length_bits hf
  rw [← h.length_blocks] at hlen
  rw [← bitsToText_storeSlice, storeSlice_packBits_all hfits (by omega)]

end

/-! ### ENC (R244, R246) -/

/-- Settles O47: each block is 32 word rounds on two words of the text under its key part (`Message.Of.encBlock`), and the
words that Bd, Q, LREG and RREG hold are the halves of the blocks. -/
theorem encEncryptsMessage : Obligations.EncEncryptsMessage := by
  intro s rd ra rb hi htext hkey hkeylen hpos
  obtain ⟨t, hexec, hc⟩ := exec_completes (i := .enc rd ra rb) (s := s)
    ⟨not_not.mpr htext, not_not.mpr hkey, not_not.mpr hkeylen, Nat.ne_of_gt hpos, trivial⟩
  have hwrites := hc.writesOnly
  obtain ⟨v, m, hv, hm, rfl⟩ := hc
  obtain ⟨hlen, hfits⟩ := length_textToBits_readT hi hv
  have hf := keepsBlockLength_encryptBlock s.tables
  have hbits := hm.length_bits_le hf hfits
  refine ⟨_, hexec, ?_⟩
  intro n c
  have hn : m.blocks.length = n := by rw [hm.length_blocks, hlen, ceilDiv]; omega
  have hblock : ∀ i, i < m.blocks.length → halvesToWords (halves (m.blocks.getD i [])) = c i := by
    intro i hlt
    rw [hm.encBlock hfits i (by rwa [← hm.length_blocks]), padWord_textToBits htext hv, padWord_textToBits htext hv]
  refine ⟨?_, fun w => ?_, rfl, hn, fun w => ?_, k_writeMessage hm.keys_ok, rfl, hn, ?_, ?_, rfl, hwrites⟩
  · rw [State.writeMessage_b, b_writeB_same, hm.length_bits hf, ← hm.length_blocks, hn, Nat.mul_comm]
  · rw [bword_writeMessage, bword_writeB_same s rd hbits, hm.padWord_bits hf hblock, hn]
  · rw [bword_writeMessage, bword_writeB_same s rd hbits, hm.qword_writeMessage hbits]
  · rw [State.writeMessage_bidx, hn]
  · rw [halvesToWords_writeMessage, hblock _ (Nat.sub_one_lt_of_lt hm.blocks_pos), hn]

/-! ### DEC (R248, R250) -/

/-- Settles O48: as O47, with the decrypt rounds on words (`Message.Of.decBlock`); Td holds the text of the plain bits,
which are those of Q, and 0 past it. -/
theorem decDecryptsMessage : Obligations.DecDecryptsMessage := by
  intro s rd ra rb hi hkey hkeylen hpos
  obtain ⟨t, hexec, hc⟩ := exec_completes (i := .dec rd ra rb) (s := s)
    ⟨not_not.mpr hkey, not_not.mpr hkeylen, Nat.ne_of_gt hpos, trivial⟩
  have hwrites := hc.writesOnly
  obtain ⟨m, hm, rfl⟩ := hc
  have hlen := length_readB s ra
  have hfits : (s.readB ra).length ≤ 2048 := by rw [hlen]; exact hi.len_le ra
  have hf := keepsBlockLength_decryptBlock s.tables
  have hbits := hm.length_bits_le hf hfits
  have htext : (bitsToText s.tables m.bits).length ≤ 256 := (length_bitsToText_le _ _).trans (by omega)
  refine ⟨_, hexec, ?_⟩
  intro n p
  have hn : m.blocks.length = n := by rw [hm.length_blocks, hlen]; rfl
  have hblock : ∀ i, i < m.blocks.length → halvesToWords (halves (m.blocks.getD i [])) = p i := by
    intro i hlt
    rw [hm.decBlock hfits i (by rwa [← hm.length_blocks]), padWord_readB, padWord_readB]
  refine ⟨rfl, hn, fun w => ?_, ?_, fun i hpast => ?_, k_writeMessage hm.keys_ok, rfl, hn, rfl, ?_, rfl, hwrites⟩
  · rw [hm.qword_writeMessage hbits, hm.padWord_bits hf hblock, hn]
  · rw [readT_writeMessage, readT_writeT_same s rd _ htext, hm.bitsToText_bits hf hbits, hn, State.writeMessage_q,
      ← hm.bits_eq]
  · rw [State.writeMessage_t, t_writeT_same] at hpast
    rw [sym_writeMessage, sym_writeT_same s rd htext, getD_of_le _ _ hpast]
  · rw [halvesToWords_writeMessage, hblock 0 hm.blocks_pos]

/-! ### The round trip (R251, R312) -/

/-- DEC of bits that decrypt writes their text and the message's registers (R250). -/
theorem exec_dec_of_decryptMessage {s : State} (rd : TSel) {ra : BSel} {rb : TSel} {m : Message}
    (h : decryptMessage s.tables (s.readB ra) (s.readT rb) = .ok m) :
    exec (.dec rd ra rb) s = .next ((s.writeT rd (bitsToText s.tables m.bits)).writeMessage m 0) := by
  simp only [exec, execDec, h, complete]

/-- Settles O49: ENC leaves the cipher bits in Bd and writes neither the tables nor a text register, so DEC reads what ENC
made and the same key; what it decrypts is the text without NULs (`bitsToText_decrypted`), which fits any Td. -/
theorem encThenDecDropsNuls : Obligations.EncThenDecDropsNuls := by
  intro s rd ra rb rt hi htext hkey hkeylen hpos
  obtain ⟨t, hexec, v, m, hv, hm, rfl⟩ := exec_completes (i := .enc rd ra rb) (s := s)
    ⟨not_not.mpr htext, not_not.mpr hkey, not_not.mpr hkeylen, Nat.ne_of_gt hpos, trivial⟩
  obtain ⟨m', -, hdec, hplain⟩ := bitsToText_decrypted hv hm
  have hbits := hm.length_bits_le (keepsBlockLength_encryptBlock s.tables) (length_textToBits_readT hi hv).2
  have hread : ((s.writeB rd m.bits).writeMessage m (m.blocks.length - 1)).readB rd = m.bits :=
    readB_writeB_same s rd m.bits hbits
  refine ⟨_, _, hexec, exec_dec_of_decryptMessage rt (m := m') (by rw [hread]; exact hdec), ?_⟩
  rw [State.writeMessage_tables, State.writeB_tables, readT_writeMessage,
    readT_writeT_same _ rt _ (length_decryptMessage_le hdec hbits), hplain]

/-- A key of 32 mapped symbols has key parts (R241). -/
theorem keyParts_of_mapped {T : Tables} {key : Text} (hlen : key.length = 32) (h : ∀ x ∈ key, Mapped T x) :
    ∃ kp, keyParts T key = .ok kp := by
  obtain ⟨kb, hkb⟩ := (textToBits_ok_iff T key).mpr fun x hx => (mapped_iff T x).mp (h x hx)
  obtain ⟨herr, -⟩ | ⟨-, -, hne, -⟩ | ⟨kb', -, -, hok⟩ := keyParts_cases T key
  · rw [hkb] at herr; cases herr
  · exact absurd hlen hne
  · exact ⟨_, hok⟩

/-- A mapped symbol's code is 0 for NUL alone (R33). -/
theorem codeIn_eq_zero_iff {T : Tables} {x : Sym} (h : Mapped T x) : codeIn T x = 0 ↔ x = 0#32 := by
  obtain ⟨c, hc⟩ := (mapped_iff T x).mp h
  rw [codeIn_of_codeOf hc, ← codeOf_eq_zero_iff T x, hc, Except.ok.injEq]

section
variable {T : Tables} {key : Text} {kp : BitSeq} (hkp : keyParts T key = .ok kp)
include hkp

/-- With a good key, a non-empty text of mapped symbols encrypts, and decrypting gives it without its NULs (R251). -/
theorem decrypt_encrypt_of_mapped {t : Text} (hpos : 1 ≤ t.length) (hmapped : ∀ x ∈ t, Mapped T x) :
    ∃ c, encrypt T t key = .ok c ∧ decrypt T c key = .ok (t.filter (fun x => x != 0#32)) := by
  obtain ⟨v, hv⟩ := (textToBits_ok_iff T t).mpr fun x hx => (mapped_iff T x).mp (hmapped x hx)
  have hlen := length_textToBits hv
  obtain ⟨e, herr, -⟩ | ⟨-, -, h0, -⟩ | ⟨m, hm, hok⟩ := processMessage_cases T (encryptBlock T) v key
  · rw [hkp] at herr; cases herr
  · omega
  · obtain ⟨m', -, hdec, hplain⟩ := bitsToText_decrypted hv hm
    exact ⟨m.bits, by simp only [encrypt, encryptMessage, hv, hok], by simp only [decrypt, hdec, hplain]⟩

/-- With a good key, the empty text has no block to join (R174, R251). -/
theorem encrypt_nil : encrypt T [] key = .error .emptyJoin := by
  obtain ⟨e, herr, -⟩ | ⟨-, -, -, herr⟩ | ⟨m, hm, -⟩ := processMessage_cases T (encryptBlock T) [] key
  · rw [hkp] at herr; cases herr
  · simp only [encrypt, encryptMessage, textToBits, herr]
  · exact absurd hm.input_pos (Nat.lt_irrefl 0)

end

/-- Settles O50: decrypt of encrypt drops exactly the NULs (`decrypt_encrypt_of_mapped`), which are the symbols of code 0;
a text of non-zero codes has none. -/
theorem roundTripRestoresText : Obligations.RoundTripRestoresText := by
  intro T key hlen hkey
  obtain ⟨kp, hkp⟩ := keyParts_of_mapped hlen hkey
  refine ⟨fun t hpos _ hcodes => ?_, encrypt_nil hkp, fun t hpos _ hmapped => ?_⟩
  · have hmapped : ∀ x ∈ t, Mapped T x := fun x hx => (mapped_iff T x).mpr ((hcodes x hx).imp fun _ h => h.1)
    have hnonzero : ∀ x ∈ t, (x != 0#32) = true := by
      intro x hx
      obtain ⟨c, hc, hne⟩ := hcodes x hx
      rw [bne_iff_ne, ne_eq, ← codeIn_eq_zero_iff (hmapped x hx), codeIn_of_codeOf hc]
      exact hne
    obtain ⟨c, henc, hdec⟩ := decrypt_encrypt_of_mapped hkp hpos hmapped
    rw [List.filter_eq_self.mpr hnonzero] at hdec
    exact ⟨c, henc, hdec⟩
  · have hsame : t.filter (fun x => codeIn T x != 0) = t.filter (fun x => x != 0#32) :=
      List.filter_congr fun x hx => by
        rw [Bool.eq_iff_iff, bne_iff_ne, bne_iff_ne, ne_eq, codeIn_eq_zero_iff (hmapped x hx)]
    rw [hsame]
    exact decrypt_encrypt_of_mapped hkp hpos hmapped

end Sys2Proof.Machine

namespace Sys2Proof.Machine

/-! ### The first failed check of a list (R281) -/

/-- A fault that no check of the list raises is not the list's. -/
theorem not_firstFailed_of_unlisted {l : List (FaultCode × Prop)} {c : FaultCode} (h : c ∉ l.map Prod.fst) :
    ¬ FirstFailed l c := by
  induction l with
  | nil => exact id
  | cons a l ih =>
    obtain ⟨hne, hl⟩ := List.ne_and_not_mem_of_not_mem_cons h
    rintro (⟨-, rfl⟩ | ⟨-, hfirst⟩)
    · exact hne rfl
    · exact ih hl hfirst

section
variable {c d : FaultCode} {p q r : Prop} {l : List (FaultCode × Prop)}

/-- A fault that the first check raises is the list's when the check fails, or a later check raises it. -/
theorem firstFailed_cons_self : FirstFailed ((c, p) :: l) c ↔ p ∨ FirstFailed l c := by
  by_cases hp : p <;> simp [FirstFailed, hp]

/-- A fault that the first check alone raises is the list's exactly when the check fails. -/
theorem firstFailed_head (hl : c ∉ l.map Prod.fst := by simp) : FirstFailed ((c, p) :: l) c ↔ p :=
  firstFailed_cons_self.trans (or_iff_left (not_firstFailed_of_unlisted hl))

/-- A fault of later checks is the list's exactly when the first check, which raises another, passes, and it is theirs. -/
theorem firstFailed_later (hlater : FirstFailed l c ↔ r) (hne : c ≠ d := by decide) :
    FirstFailed ((d, ¬ q) :: l) c ↔ q ∧ r := by
  simp only [FirstFailed, hne, and_false, false_or, not_not, hlater]

end

/-! ### The causes of each fault are its failed checks (R273 to R278)

The commands that a table of causes leaves out list no check for the fault. -/

theorem firstFailed_unknownSymbol_iff (i : Instr) (s : State) :
    FirstFailed (checks i s) .unknownSymbol ↔ unknownSymbolCause i s := by
  cases i with
  | codeof => exact firstFailed_head
  | t2b rd ra => exact (firstFailed_head).trans (not_textMapped_iff s ra)
  | ldkey ra => exact (firstFailed_head).trans (not_textMapped_iff s ra)
  | enc rd ra rb =>
    rw [checks, firstFailed_cons_self, firstFailed_head, unknownSymbolCause, ← not_textMapped_iff, ← not_textMapped_iff]
    exact or_congr_right' fun hmapped => (and_iff_right (not_not.mp hmapped)).symm
  | dec rd ra rb => exact (firstFailed_head).trans (not_textMapped_iff s rb)
  | _ => exact iff_false_intro (not_firstFailed_of_unlisted (by simp [checks]))

theorem firstFailed_lengthMismatch_iff (i : Instr) (s : State) :
    FirstFailed (checks i s) .lengthMismatch ↔ lengthMismatchCause i s := by
  cases i with
  | xor rd ra rb | frnd rd ra rb => exact firstFailed_head
  | encb rd ra rb | decb rd ra rb => exact firstFailed_later firstFailed_head
  | _ => exact iff_false_intro (not_firstFailed_of_unlisted (by simp [checks]))

theorem firstFailed_keyLengthError_iff (i : Instr) (s : State) :
    FirstFailed (checks i s) .keyLengthError ↔ keyLengthErrorCause i s := by
  cases i with
  | ldkey ra => exact firstFailed_later firstFailed_head
  | enc rd ra rb => exact firstFailed_later (firstFailed_later firstFailed_head)
  | dec rd ra rb => exact firstFailed_later firstFailed_head
  | _ => exact iff_false_intro (not_firstFailed_of_unlisted (by simp [checks]))

/-- ENC looks the message up first, and the empty message passes every lookup, so its row of R276 need not say so. -/
theorem firstFailed_emptyJoin_iff (i : Instr) (s : State) :
    FirstFailed (checks i s) .emptyJoin ↔ emptyJoinCause i s := by
  cases i with
  | join rd => exact firstFailed_head
  | enc rd ra rb =>
    have hchecks : FirstFailed (checks (.enc rd ra rb) s) .emptyJoin ↔
        s.TextMapped ra ∧ s.TextMapped rb ∧ s.t[rb].len = 32 ∧ s.t[ra].len = 0 :=
      firstFailed_later (firstFailed_later (firstFailed_later firstFailed_head))
    rw [hchecks]
    exact ⟨fun ⟨_, hkey, hlen, hempty⟩ => ⟨hempty, hkey, hlen⟩,
      fun ⟨hempty, hkey, hlen⟩ => ⟨textMapped_of_len_zero hempty, hkey, hlen, hempty⟩⟩
  | dec rd ra rb => exact (firstFailed_later (firstFailed_later firstFailed_head)).trans and_rotate.symm
  | _ => exact iff_false_intro (not_firstFailed_of_unlisted (by simp [checks]))

theorem firstFailed_scheduleRange_iff (i : Instr) (s : State) :
    FirstFailed (checks i s) .scheduleRange ↔ scheduleRangeCause i s := by
  cases i with
  | kidx imm => exact firstFailed_head
  | _ => exact iff_false_intro (not_firstFailed_of_unlisted (by simp [checks]))

theorem firstFailed_operandError_iff (i : Instr) (s : State) :
    FirstFailed (checks i s) .operandError ↔ operandErrorCause i s := by
  cases i with
  | symof | b2t rd ra | dec8 ra | rotl11 rd ra | getq rd imm | subst rd ra | encb rd ra rb | decb rd ra rb =>
    exact firstFailed_head
  | split ra imm => exact (firstFailed_cons_self.trans (or_congr_right firstFailed_head)).trans or_assoc
  | frnd rd ra rb => exact firstFailed_later firstFailed_head
  | _ => exact iff_false_intro (not_firstFailed_of_unlisted (by simp [checks]))

/-! ### The faults of a CMD write and of a command -/

/-- Settles O18: the CMD write decodes the word and runs the command, which takes the fault of its first failed check
(`exec_faulted_iff`) or, with none, completes and leaves ERR and FAULT (`Completed.keeps`). -/
theorem firstFailedCheckIsRaised : Obligations.FirstFailedCheckIsRaised := by
  refine fun s hs => ⟨fun w e hd => write_cmd_error hd hs, fun w i hd => ?_⟩
  rw [write_cmd_ok hd hs]
  refine ⟨fun c => (exec_faulted_iff i s hs c).mpr, fun hnone => ?_⟩
  obtain ⟨t, hexec, hcompleted⟩ := exec_completes hnone
  obtain ⟨herr, hfault, -⟩ := hcompleted.keeps
  exact ⟨t, hexec, hfault.trans hs, herr⟩

/-- Settles O19: the checks that raise UnknownSymbol are the lookups of R273. -/
theorem unknownSymbolExactly : Obligations.UnknownSymbolExactly := fun i s hs =>
  (exec_faulted_iff i s hs _).trans (firstFailed_unknownSymbol_iff i s)

/-- Settles O20: the checks that raise LengthMismatch are those of R274; ENCB and DECB check the block's length first. -/
theorem lengthMismatchExactly : Obligations.LengthMismatchExactly := fun i s hs =>
  (exec_faulted_iff i s hs _).trans (firstFailed_lengthMismatch_iff i s)

/-- Settles O21: the key's length is checked after the lookups. -/
theorem keyLengthErrorExactly : Obligations.KeyLengthErrorExactly := fun i s hs =>
  (exec_faulted_iff i s hs _).trans (firstFailed_keyLengthError_iff i s)

/-- Settles O22: ENC and DEC join last, once the key has passed its checks. -/
theorem emptyJoinExactly : Obligations.EmptyJoinExactly := fun i s hs =>
  (exec_faulted_iff i s hs _).trans (firstFailed_emptyJoin_iff i s)

/-- Settles O23: KIDX alone checks its index. -/
theorem scheduleRangeExactly : Obligations.ScheduleRangeExactly := fun i s hs =>
  (exec_faulted_iff i s hs _).trans (firstFailed_scheduleRange_iff i s)

/-- Settles O24: the checks that raise OperandError are those of R278; FRND compares its operands' lengths first. -/
theorem operandErrorExactly : Obligations.OperandErrorExactly := fun i s hs =>
  (exec_faulted_iff i s hs _).trans (firstFailed_operandError_iff i s)

end Sys2Proof.Machine

namespace Sys2Proof.Machine

/-! ### The reset event (R40, R310) -/

/-- Settles O11: the oldest access is the reset event, which keeps only the tables and the accesses behind it. -/
theorem resetEventRestoresReset : Obligations.ResetEventRestoresReset :=
  fun _ _ hin => ⟨_, step_of_input_cons hin, rfl⟩

/-! ### The registers of the reset state (R40) -/

theorem packBits_nil : packBits [] = 0#2048 := by rw [packBits, val_nil, Nat.zero_mul]

/-- A register that holds v in canonical form is left as it is by a write of v (R23). -/
theorem writeB_eq_self {s : State} {n : BSel} {v : Bits} (h : s.b[n] = ⟨v.length, packBits v⟩) : s.writeB n v = s := by
  rw [State.writeB, ← h, Fin.getElem_fin, Vector.set_getElem_self]

theorem ceilDiv_zero {p : Nat} (hp : 1 ≤ p) : ceilDiv 0 p = 0 := Nat.div_eq_of_lt (by omega)

/-- The empty bitstring has no chunk (R170). -/
theorem splitFixed_nil {p : Nat} (hp : 1 ≤ p) : splitFixed [] p = [] :=
  List.eq_nil_of_length_eq_zero ((length_splitFixed [] p).trans (ceilDiv_zero hp))

section
variable {s : State} (hreset : s = { State.reset with tables := s.tables })
include hreset

theorem b_of_reset (n : BSel) : s.b[n] = BitReg.empty := by
  rw [hreset]; exact Vector.getElem_replicate n.isLt

theorem blen_of_reset (n : BSel) : s.b[n].len = 0 := by rw [b_of_reset hreset]; rfl

theorem tlen_of_reset (n : TSel) : s.t[n].len = 0 := by
  rw [hreset]; exact congrArg TextReg.len (Vector.getElem_replicate n.isLt)

theorem qcnt_of_reset : s.q.cnt = 0 := by rw [hreset]; rfl

theorem res_of_reset : s.res = 0#32 := by rw [hreset]; rfl

theorem fault_of_reset : s.fault = false := by rw [hreset]; rfl

theorem readB_of_reset (n : BSel) : s.readB n = [] := by
  rw [← List.length_eq_zero_iff, length_readB, blen_of_reset hreset]

theorem readT_of_reset (n : TSel) : s.readT n = [] := by
  rw [← List.length_eq_zero_iff, length_readT, tlen_of_reset hreset]

theorem writeB_nil_of_reset (n : BSel) : s.writeB n [] = s :=
  writeB_eq_self (by rw [b_of_reset hreset, packBits_nil]; rfl)

theorem writeRes_zero_of_reset : s.writeRes 0#32 = s := by
  rw [State.writeRes, ← res_of_reset hreset]

/-! ### Commands that complete on the reset state (R311) -/

theorem exec_t2b_of_reset (rd : BSel) (ra : TSel) : exec (.t2b rd ra) s = .next s := by
  rw [exec_t2b_of_textToBits (v := []) rd (by rw [readT_of_reset hreset]; rfl), writeB_nil_of_reset hreset]

theorem exec_xor_of_reset (rd ra rb : BSel) : exec (.xor rd ra rb) s = .next s := by
  rw [exec_xor_of_length_eq rd (by rw [blen_of_reset hreset, blen_of_reset hreset]), readB_of_reset hreset,
    readB_of_reset hreset, xorBits, List.zipWith_nil_left, writeB_nil_of_reset hreset]

theorem exec_split_of_reset (ra : BSel) {imm : Nat} (hpos : 1 ≤ imm) (hmax : imm ≤ 2048) :
    exec (.split ra imm) s = .next { s with q := ⟨imm, 0, 0#2048⟩ } := by
  have hcount : ceilDiv s.b[ra].len imm = 0 := by rw [blen_of_reset hreset, ceilDiv_zero hpos]
  obtain ⟨t, hexec, -, -, -, rfl⟩ := exec_completes (i := .split ra imm) (s := s)
    ⟨by omega, by rw [hcount]; omega, trivial⟩
  rw [hexec, readB_of_reset hreset, splitFixed_nil hpos, State.writeQ, List.flatten_nil, packBits_nil, List.length_nil]

/-- RES holds NUL, whose code is 0 (R33). -/
theorem exec_codeof_of_reset : exec .codeof s = .next s := by
  have hcode : codeOf s.tables s.res = .ok 0 := (codeOf_eq_zero_iff _ _).mpr (res_of_reset hreset)
  rw [exec_codeof_of_codeOf hcode]
  exact congrArg _ (writeRes_zero_of_reset hreset)

/-- RES holds the code 0, whose symbol is NUL (R121). -/
theorem exec_symof_of_reset : exec .symof s = .next s := by
  rw [exec_symof_of_le (by rw [res_of_reset hreset]; decide), res_of_reset hreset]
  exact congrArg _ (writeRes_zero_of_reset hreset)

theorem exec_kidx_zero_of_reset : exec (.kidx 0) s = .next s := by
  rw [(kidxFollowsSchedule s 0 (Nat.zero_le 31)).1]
  exact congrArg _ (writeRes_zero_of_reset hreset)

/-! ### Commands that fault on the reset state (R311) -/

/-- The empty message and the empty key pass their lookups, and the key's length fails (R241, R244). -/
theorem exec_enc_of_reset (rd : BSel) (ra rb : TSel) : exec (.enc rd ra rb) s = .next (s.faulted .keyLengthError) :=
  (keyLengthErrorExactly _ s (fault_of_reset hreset)).mpr
    ⟨textMapped_of_len_zero (tlen_of_reset hreset ra), textMapped_of_len_zero (tlen_of_reset hreset rb),
      by rw [tlen_of_reset hreset]; decide⟩

/-- DEC takes the empty key's fault before EmptyJoin (R248). -/
theorem exec_dec_of_reset (rd : TSel) (ra : BSel) (rb : TSel) :
    exec (.dec rd ra rb) s = .next (s.faulted .keyLengthError) :=
  (keyLengthErrorExactly _ s (fault_of_reset hreset)).mpr
    ⟨textMapped_of_len_zero (tlen_of_reset hreset rb), by rw [tlen_of_reset hreset]; decide⟩

end

/-- Settles O12: every operand is empty or 0. The commands that complete write what their register holds already (SPLIT
its chunk size, beside an empty Q); the others fail a check on the count of Q or on a length, which is 0. -/
theorem commandsOnResetState : Obligations.CommandsOnResetState := by
  intro s hreset
  have hs := fault_of_reset hreset
  have hlen := blen_of_reset hreset
  have herror : ∀ i, operandErrorCause i s → exec i s = .next (s.faulted .operandError) :=
    fun i => (operandErrorExactly i s hs).mpr
  refine ⟨exec_t2b_of_reset hreset, exec_xor_of_reset hreset, fun ra _ => exec_split_of_reset hreset ra,
    fun _ => (emptyJoinExactly _ s hs).mpr (qcnt_of_reset hreset), exec_enc_of_reset hreset, exec_dec_of_reset hreset,
    fun rd ra rb => ?_, fun rd imm => ?_, exec_codeof_of_reset hreset, exec_symof_of_reset hreset,
    exec_kidx_zero_of_reset hreset⟩
  · have hne : ∀ k, k ≠ 0 → s.b[ra].len ≠ k := fun _ hk => (hlen ra).trans_ne hk.symm
    refine ⟨herror _ (hne 64 (by decide)), herror _ (hne 64 (by decide)),
      herror _ ⟨(hlen ra).trans (hlen rb).symm, hne 32 (by decide)⟩, herror _ (hne 32 (by decide)),
      herror _ (hne 32 (by decide)), herror _ (hne 8 (by decide))⟩
  · exact herror _ ((qcnt_of_reset hreset).trans_le (Nat.zero_le imm))

end Sys2Proof.Machine
